-- ==== Sys2Proof/Word.lean ====
section
/-! DEFINITION. The words of the pixel encoding core and the enumerations its commands and registers hold
(spec/00_scope.md R9, R13; spec/30_encoding.md R90, R96). Their numeric codes stand in Decode.lean. -/

namespace Sys2Proof

/-- A channel value or a buffer byte: `CHW` = 8 bits (R7). -/
abbrev Byte := BitVec 8

/-- A command word: `CMDW` = 64 bits (R7, R90). -/
abbrev CmdWord := BitVec 64

/-- The four output formats (R13). The removed names of R128 have no constructor. -/
inductive Format where
  | binary
  | grayscale
  | rgb565
  | rgb
deriving DecidableEq, Repr

/-- The three transparency modes (R13): the document's Opaque, ChromaKey and AlphaChannel. -/
inductive Transparency where
  | solid
  | chromaKey
  | alphaChannel
deriving DecidableEq, Repr

/-- Dither modes (R13). -/
inductive Dither where
  | noDither
  | floydSteinberg
deriving DecidableEq, Repr

/-- Byte orders of the RGB565 colour word (R13). -/
inductive ByteOrder where
  | bigEndian
  | littleEndian
deriving DecidableEq, Repr

/-- How a frame is fed: `RAW` by PIX, `CANON` by ENC (R32, R93). -/
inductive SrcMode where
  | raw
  | canon
deriving DecidableEq, Repr

/-- A source pixel (R98), and the canonical pixel of RGB565 and RGB (R40). -/
structure Pixel where
  r : Byte
  g : Byte
  b : Byte
  a : Byte
deriving DecidableEq, Repr

/-- The fields of a CFG word (R91). `transp` is the raw 2-bit field: code 3 is a legal word with an illegal
value (R103). -/
structure CfgFields where
  format : Format
  transp : BitVec 2
  dither : Dither
  invertAlpha : Bool
  boSet : Bool
  bo : ByteOrder
  animated : Bool
  unresized : Bool
  srcFrames : BitVec 16
  height : BitVec 16
  width : BitVec 16
deriving DecidableEq, Repr

end Sys2Proof
end

