-- ==== Sys2Proof/Syntax.lean ====
section
/-! DEFINITION. The commands of the block, one constructor per row of spec/opcode_table.json
(spec/30_encoding.md R97). The four ENC rows share one opcode; `J.format` selects the row (R97, R100), so an ENC
operand is the whole 32-bit payload, whose must-be-zero bits are checked when the command executes (R100, R171). -/

namespace Sys2Proof

inductive Instr where
  /-- CFG: configure a job (R121). -/
  | cfg (d : CfgFields)
  /-- SCAN: show one source pixel to the alpha-only detector (R141). -/
  | scan (p : Pixel)
  /-- FRM: start a frame (R142). -/
  | frm (src : SrcMode)
  /-- PIX: normalise one source pixel and encode it (R145). -/
  | pix (p : Pixel)
  /-- ENC.B: encode one canonical Binary pixel (R171, R172). -/
  | encB (payload : BitVec 32)
  /-- ENC.G: encode one canonical Grayscale pixel (R171, R184). -/
  | encG (payload : BitVec 32)
  /-- ENC.565: encode one canonical RGB565 pixel (R171, R190). -/
  | enc565 (payload : BitVec 32)
  /-- ENC.RGB: encode one canonical RGB pixel (R171, R200). -/
  | encRGB (payload : BitVec 32)
  /-- EOR: end of row (R174). -/
  | eor
  /-- ABT: the raster source failed (R131). The 2-bit cause 3 is an illegal word (R102). -/
  | abt (cause : BitVec 2)
  /-- RST: reset (R130). -/
  | rst
deriving DecidableEq, Repr

end Sys2Proof
end

