-- ==== Sys2Proof/WellFormed.lean ====
section
/-! DEFINITION. Which instructions are commands of the block. The operand types admit exactly the values of the
fields of spec/30_encoding.md R91 to R93 but for one reserved value: ABT with `cause` 3 (R93, R102). -/

namespace Sys2Proof

/-- R102: the only ill-formed term is ABT with cause 3. -/
def Instr.wellFormed : Instr → Bool
  | .cfg _ => true
  | .scan _ => true
  | .frm _ => true
  | .pix _ => true
  | .encB _ => true
  | .encG _ => true
  | .enc565 _ => true
  | .encRGB _ => true
  | .eor => true
  | .abt cause => cause != 3
  | .rst => true

/-- Whether `J.format` = `f` lets a word stand for this instruction: an ENC row is selected only in its own format
(R97, R100, the table's "condition"); every other command in every format. -/
def Instr.fits (f : Format) : Instr → Bool
  | .cfg _ => true
  | .scan _ => true
  | .frm _ => true
  | .pix _ => true
  | .encB _ => f == .binary
  | .encG _ => f == .grayscale
  | .enc565 _ => f == .rgb565
  | .encRGB _ => f == .rgb
  | .eor => true
  | .abt _ => true
  | .rst => true

end Sys2Proof
end

