-- ==== Sys2Proof/Decode.lean ====
section
/-! DEFINITION. The decoder, total on all 2^64 words (spec/30_encoding.md R104), and the encoder, both written from
the field tables R91 to R93 and the codes of R96. Whether a word is legal does not depend on any state (R104);
`J.format` only selects which of the four ENC rows a legal ENC word is (R97, R100). -/

namespace Sys2Proof

/-- Bits `lo + len - 1` to `lo` of a word (R9). -/
def field (w : CmdWord) (lo len : Nat) : BitVec len := w.extractLsb' lo len

/-- The 1-bit field at `i`. -/
def flag (w : CmdWord) (i : Nat) : Bool := w.getLsbD i

/-! ## Codes of the enumerations (R96, R93) -/

def Format.code : Format → BitVec 2
  | .binary => 0
  | .grayscale => 1
  | .rgb565 => 2
  | .rgb => 3

def Format.ofCode (c : BitVec 2) : Format :=
  if c = 0 then .binary else if c = 1 then .grayscale else if c = 2 then .rgb565 else .rgb

def Transparency.code : Transparency → BitVec 2
  | .solid => 0
  | .chromaKey => 1
  | .alphaChannel => 2

/-- Code 3 is reserved (R96): no mode. -/
def Transparency.ofCode (c : BitVec 2) : Option Transparency :=
  if c = 0 then some .solid else if c = 1 then some .chromaKey else if c = 2 then some .alphaChannel else none

def Dither.code : Dither → Bool
  | .noDither => false
  | .floydSteinberg => true

def Dither.ofCode (c : Bool) : Dither := if c then .floydSteinberg else .noDither

def ByteOrder.code : ByteOrder → Bool
  | .bigEndian => false
  | .littleEndian => true

def ByteOrder.ofCode (c : Bool) : ByteOrder := if c then .littleEndian else .bigEndian

def SrcMode.code : SrcMode → Bool
  | .raw => false
  | .canon => true

def SrcMode.ofCode (c : Bool) : SrcMode := if c then .canon else .raw

/-! ## Decoding -/

/-- Why a word is illegal (R102, R103). Every one of them raises `ILLEGAL_CMD`. -/
inductive DecodeError where
  /-- Opcodes 0000 and 1000 to 1110 (R103). -/
  | reservedOpcode
  /-- A reserved field that is not all zero (R102). -/
  | reservedBits
  /-- ABT with `cause` = 3 (R102). -/
  | reservedCause
deriving DecidableEq, Repr

/-- The source pixel of a payload (R98). -/
def pixelOfPayload (p : BitVec 32) : Pixel :=
  { r := p.extractLsb' 24 8, g := p.extractLsb' 16 8, b := p.extractLsb' 8 8, a := p.extractLsb' 0 8 }

/-- The fields of a CFG word (R91). -/
def cfgFieldsOf (w : CmdWord) : CfgFields :=
  { format := Format.ofCode (field w 58 2)
    transp := field w 56 2
    dither := Dither.ofCode (flag w 55)
    invertAlpha := flag w 54
    boSet := flag w 53
    bo := ByteOrder.ofCode (flag w 52)
    animated := flag w 51
    unresized := flag w 50
    srcFrames := field w 32 16
    height := field w 16 16
    width := field w 0 16 }

/-- The ENC row that `J.format` selects (R97, R100). -/
def encRow (f : Format) (payload : BitVec 32) : Instr :=
  match f with
  | .binary => .encB payload
  | .grayscale => .encG payload
  | .rgb565 => .enc565 payload
  | .rgb => .encRGB payload

/-- An instruction, provided the reserved bits are zero (R102). -/
def unlessReserved {n : Nat} (reserved : BitVec n) (i : Instr) : Except DecodeError Instr :=
  if reserved = 0 then .ok i else .error .reservedBits

/-- ABT's reserved bits, then its cause (R102, R104). -/
def decodeAbt (w : CmdWord) : Except DecodeError Instr :=
  if field w 2 58 ≠ 0 then .error .reservedBits
  else if field w 0 2 = 3 then .error .reservedCause
  else .ok (.abt (field w 0 2))

/-- The opcode map (R97) and the order of R104: the opcode, then the reserved fields, then the command. -/
def decode (f : Format) (w : CmdWord) : Except DecodeError Instr :=
  let op := field w 60 4
  if op = 1 then unlessReserved (field w 48 2) (.cfg (cfgFieldsOf w))
  else if op = 2 then unlessReserved (field w 32 28) (.scan (pixelOfPayload (field w 0 32)))
  else if op = 3 then unlessReserved (field w 1 59) (.frm (SrcMode.ofCode (flag w 0)))
  else if op = 4 then unlessReserved (field w 32 28) (.pix (pixelOfPayload (field w 0 32)))
  else if op = 5 then unlessReserved (field w 32 28) (encRow f (field w 0 32))
  else if op = 6 then unlessReserved (field w 0 60) .eor
  else if op = 7 then decodeAbt w
  else if op = 15 then unlessReserved (field w 0 60) .rst
  else .error .reservedOpcode

/-! ## Encoding -/

/-- The payload of a source pixel (R98): `{r, g, b, a}`. -/
def Pixel.payload (p : Pixel) : BitVec 32 := p.r ++ p.g ++ p.b ++ p.a

/-- The opcode of an instruction (R97). -/
def Instr.opcode : Instr → BitVec 4
  | .cfg _ => 1
  | .scan _ => 2
  | .frm _ => 3
  | .pix _ => 4
  | .encB _ => 5
  | .encG _ => 5
  | .enc565 _ => 5
  | .encRGB _ => 5
  | .eor => 6
  | .abt _ => 7
  | .rst => 15

/-- A CFG word's bits 59 to 0 (R91). -/
def CfgFields.body (d : CfgFields) : BitVec 60 :=
  d.format.code ++ d.transp ++ BitVec.ofBool d.dither.code ++ BitVec.ofBool d.invertAlpha ++ BitVec.ofBool d.boSet
    ++ BitVec.ofBool d.bo.code ++ BitVec.ofBool d.animated ++ BitVec.ofBool d.unresized ++ 0#2
    ++ d.srcFrames ++ d.height ++ d.width

/-- Format P's bits 59 to 0 (R92). -/
def payloadBody (p : BitVec 32) : BitVec 60 := 0#28 ++ p

/-- Bits 59 to 0 of an instruction's word (R91 to R93). -/
def Instr.body : Instr → BitVec 60
  | .cfg d => d.body
  | .scan p => payloadBody p.payload
  | .frm src => 0#59 ++ BitVec.ofBool src.code
  | .pix p => payloadBody p.payload
  | .encB p => payloadBody p
  | .encG p => payloadBody p
  | .enc565 p => payloadBody p
  | .encRGB p => payloadBody p
  | .eor => 0#60
  | .abt cause => 0#58 ++ cause
  | .rst => 0#60

/-- The word of an instruction: `{op, body}` (R90). -/
def encode (i : Instr) : CmdWord := i.opcode ++ i.body

/-! ## The host's view of an opcode-table word -/

/-- The low `nbits` bits of a table word, as a command word: bits the table gives no value are 0. -/
def wordOfTable (nbits w : Nat) : CmdWord := BitVec.ofNat 64 (w % 2 ^ nbits)

/-- The instruction the decoder reads from a table word while `J.format` has its reset value, Binary (R41): an ENC
word is then the row ENC.B (log 3). -/
def decodeTableWord (nbits w : Nat) : Option Instr :=
  match decode .binary (wordOfTable nbits w) with
  | .ok i => some i
  | .error _ => none

end Sys2Proof
end

