-- ==== Sys2Proof/Config.lean ====
section
/-! DEFINITION. What is fixed for a block (spec/00_scope.md R7): the FIXED parameters as constants, and the OPEN
functions LUMA and FS where a block does not use the spec's default, as opaque constants: nothing can be proved of
their values. Which of them a block has is plain data in State (`Machine.Params`, log 2). -/

namespace Sys2Proof

/-- `OVERSIZE`: the oversize warning bound in pixels (R7, R232). -/
def Config.oversize : Nat := 500

/-- `A_KEY`: in RGB565 and RGB chroma-key a pixel is transparent when its alpha is below this (R7). -/
def Config.aKey : Nat := 128

/-- `KEYGRAY`: the reserved Grayscale luma (R7, R214). -/
def Config.keyGray : Byte := 1

/-- `KEY888`: the reserved RGB colour (R7, R214). -/
def Config.key888 : Byte × Byte × Byte := (0, 1, 0)

/-- `KEY565`: the reserved RGB565 colour, quantised (R7, R192). -/
def Config.key565 : BitVec 5 × BitVec 6 × BitVec 5 := (0, 1, 0)

/-- A `LUMA` other than the default (U1): one function of (r, g, b) for each number, of which nothing is known. -/
opaque Config.openLuma : Nat → Byte → Byte → Byte → Byte

/-- A Floyd-Steinberg step other than the default (U3): for each number, a function of (m, x, errCur, errNxt) to the
bit and the new error state, of which nothing is known. -/
opaque Config.openFs : Nat → Byte → Nat → List Int → List Int → Bool × List Int × List Int

end Sys2Proof
end

