-- ==== Sys2Proof/Machine/State.lean ====
section
/-! DEFINITION. All the state the spec gives the block (spec/10_state.md R20 to R34, R41), the two fields of the
model's own (the OPEN parameters, log 2; the host's pending inputs, log 1), and the state after reset. Plain data. -/

namespace Sys2Proof.Machine

/-- `phase` (R31). -/
inductive Phase where
  | idle
  | ready
  | encoding
  | done
  | failed
deriving DecidableEq, Repr

/-- What `errCode` can hold (R34, R251). The numbers are `ErrCode.code`; 7 and 11 are reserved and never recorded. Which
code stands after a CFG rejected in FAILED is log 18. -/
inductive ErrCode where
  | none
  | cfgTransp
  | cfgInvert
  | cfgByteOrder
  | cfgBadEnum
  | cfgBadDim
  | cfgCapacity
  | srcNotFound
  | srcUnreadable
  | srcUnparsable
  | protoOrder
  | protoRow
  | protoScan
  | illegalCmd
deriving DecidableEq, Repr

/-- The job registers `J.*` (R21 to R25). -/
structure Job where
  width : BitVec 16
  height : BitVec 16
  srcFrames : BitVec 16
  format : Format
  transp : Transparency
  dither : Dither
  invertAlpha : Bool
  boSet : Bool
  bo : ByteOrder
  animated : Bool
  unresized : Bool
deriving DecidableEq, Repr

/-- The encoder constants `E.*` (R26) and the resolved transparency `E.transp` (R27). -/
structure EncConst where
  frameCount : BitVec 16
  storageWidth : Nat
  totalRows : Nat
  bufLen : Nat
  bigEndian : Bool
  transp : Transparency
deriving DecidableEq, Repr

/-- The output buffer's contents (R30, R60): its nonzero bytes, by rising offset; an unlisted offset reads as 0
(R61). Its length is `E.bufLen`. -/
abbrev Memory := List Host.Cell

/-- Which `LUMA` the block has (R7, U1): the default of R146, or another one. -/
inductive LumaParam where
  | standard
  | other (n : Nat)
deriving DecidableEq, Repr

/-- Which Floyd-Steinberg step the block has (R7, U3): the default of R151 and R152, or another one. -/
inductive FsParam where
  | standard
  | other (n : Nat)
deriving DecidableEq, Repr

/-- The OPEN parameters of R7. They are arguments of the model and not registers: no step changes them. `bufMax` =
none is "unbounded" (U4). -/
structure Params where
  bufMax : Option Nat
  luma : LumaParam
  tMono : Byte
  fs : FsParam
deriving DecidableEq, Repr

/-- What the host can send (R3, R90, R280): a command word, or the hardware reset. -/
inductive HostInput where
  | command (w : CmdWord)
  | hardwareReset
deriving DecidableEq, Repr

structure State where
  -- job registers and encoder constants
  job : Job
  enc : EncConst
  -- encoder working registers (R30)
  buffer : Memory
  writeIndex : Nat
  bitCursor : BitVec 3
  -- sequencing state (R31)
  phase : Phase
  frame : Nat
  row : Nat
  col : Nat
  -- normaliser registers (R32, R33)
  scanColorMax : Byte
  scanAlphaMin : Byte
  scanCount : Nat
  alphaOnly : Bool
  srcMode : SrcMode
  errCur : List Int
  errNxt : List Int
  -- status (R34)
  errCode : ErrCode
  warnOversize : Bool
  warnAlphaOnly : Bool
  warnFrames : Bool
  -- the model's own: the OPEN parameters (log 2), and what the host has sent and the block not yet looked at (log 1)
  params : Params
  inputs : List HostInput
deriving DecidableEq, Repr

/-- Why a step can stop the model. The block itself has no stuck state (R14): neither is reached from a state that
meets `Inv` (Safety.lean). -/
inductive Fault where
  /-- Raised by `memRead` and `memWrite` at an offset that is not below `E.bufLen`: no such byte exists (R60). Safe. -/
  | offsetOutsideBuffer
  /-- Raised by the dither step when `col` is no cell of `errCur` and `errNxt` (R33). Safe. -/
  | cellOutsideRow
deriving DecidableEq, Repr

/-- Why a step can refuse an instruction. -/
inductive Refusal where
  /-- Raised by an arm of `exec` whose instruction has no meaning yet; no arm of this model does so. Safe. -/
  | notModelled (mnemonic : String)
deriving DecidableEq, Repr

/-- The state after reset: every register as R41's table gives it. The OPEN parameters have R7's defaults, and the
host has sent nothing (DESIGN CHOICE: log 1, log 2). -/
def State.reset : State :=
  { job :=
      { width := 0, height := 0, srcFrames := 0, format := .binary, transp := .solid, dither := .noDither
        invertAlpha := false, boSet := false, bo := .bigEndian, animated := false, unresized := false }
    enc := { frameCount := 0, storageWidth := 0, totalRows := 0, bufLen := 0, bigEndian := true, transp := .solid }
    buffer := []
    writeIndex := 0
    bitCursor := 0
    phase := .idle
    frame := 0
    row := 0
    col := 0
    scanColorMax := 0
    scanAlphaMin := 0xFF
    scanCount := 0
    alphaOnly := false
    srcMode := .raw
    errCur := []
    errNxt := []
    errCode := .none
    warnOversize := false
    warnAlphaOnly := false
    warnFrames := false
    params := { bufMax := none, luma := .standard, tMono := 128, fs := .standard }
    inputs := [] }

end Sys2Proof.Machine
end

