-- ==== Sys2Proof/Machine/Flags.lean ====
section
/-! DEFINITION. The status the block shows: the numbers of `phase` and `errCode`, the three warning flags, and the
alpha-only decision (spec/10_state.md R31, R34; spec/60_exceptions.md R251; spec/47_frame_orchestrator.md R231, R232;
spec/41_pixel_normalizer.md R143, R144). -/

namespace Sys2Proof.Machine

/-- The 3-bit value of `phase` (R31). -/
def Phase.code : Phase → BitVec 3
  | .idle => 0
  | .ready => 1
  | .encoding => 2
  | .done => 3
  | .failed => 4

/-- The 4-bit value of `errCode` (R251). -/
def ErrCode.code : ErrCode → BitVec 4
  | .none => 0
  | .cfgTransp => 1
  | .cfgInvert => 2
  | .cfgByteOrder => 3
  | .cfgBadEnum => 4
  | .cfgBadDim => 5
  | .cfgCapacity => 6
  | .srcNotFound => 8
  | .srcUnreadable => 9
  | .srcUnparsable => 10
  | .protoOrder => 12
  | .protoRow => 13
  | .protoScan => 14
  | .illegalCmd => 15

/-- `SourceError(8 + cause)` (R131). Cause 3 belongs to an illegal word (R102). -/
def sourceError (cause : BitVec 2) : ErrCode :=
  if cause = 0 then .srcNotFound
  else if cause = 1 then .srcUnreadable
  else if cause = 2 then .srcUnparsable
  else .illegalCmd

/-- `warn.FRAMES` as CFG sets it (R231). -/
def warnsFrames (animated : Bool) (srcFrames : BitVec 16) : Bool := animated && decide (srcFrames.toNat ≤ 1)

/-- `warn.OVERSIZE` as CFG sets it (R232): strictly more than 500 in either dimension. -/
def warnsOversize (unresized : Bool) (width height : BitVec 16) : Bool :=
  unresized && (decide (Config.oversize < width.toNat) || decide (Config.oversize < height.toNat))

/-- R143: no colour anywhere, and at least one pixel that is not fully opaque. -/
def isAlphaOnly (colorMax alphaMin : Byte) : Bool := colorMax == 0 && alphaMin != 0xFF

/-- R144: whether opening an alpha-only frame forces `E.transp` to AlphaChannel. -/
def overrides (f : Format) (alphaOnly : Bool) (t : Transparency) : Bool :=
  f == .grayscale && alphaOnly && t != .alphaChannel

end Sys2Proof.Machine
end

