-- ==== Sys2Proof/Machine/Operands.lean ====
section
/-! DEFINITION. The arithmetic of the commands, as functions of values alone: layout (spec/20_memory.md R62), frame
count (R231), the allow-table (R123, R124), the canonical pixels (R100), luma and one-bit conversion
(spec/41_pixel_normalizer.md R146, R150 to R152) and the bytes of each format (R184, R190, R200). -/

namespace Sys2Proof.Machine

/-! ## The job -/

/-- Bytes per row (R62). -/
def storageWidth (f : Format) (t : Transparency) (width : Nat) : Nat :=
  match f with
  | .binary => (width + 7) / 8
  | .grayscale => width
  | .rgb565 => if t = .alphaChannel then width * 3 else width * 2
  | .rgb => if t = .alphaChannel then width * 4 else width * 3

/-- The number of frames a job emits (R231). -/
def frameCount (animated : Bool) (srcFrames : BitVec 16) : BitVec 16 :=
  if animated ∧ 1 < srcFrames.toNat then srcFrames else 1

/-- The allow-table (R123): every pair but (Binary, AlphaChannel). -/
def transpAllowed (f : Format) (t : Transparency) : Bool := !(f == .binary && t == .alphaChannel)

/-- The capability flag `standaloneInvert` (R123). -/
def standaloneInvert : Format → Bool
  | .binary => true
  | .grayscale => true
  | .rgb565 => false
  | .rgb => false

/-- The capability flag `supportsByteOrder` (R123). -/
def supportsByteOrder : Format → Bool
  | .binary => false
  | .grayscale => false
  | .rgb565 => true
  | .rgb => false

/-- R124. -/
def invertLegal (f : Format) (t : Transparency) : Bool := t == .alphaChannel || standaloneInvert f

/-- `E.bigEndian` (R26): big-endian unless the job says otherwise. -/
def bigEndianOf (boSet : Bool) (bo : ByteOrder) : Bool := !boSet || bo == .bigEndian

/-! ## The canonical pixel of an ENC payload (R100) -/

/-- The bits of a Binary payload that must be 0. -/
def payloadRestB (p : BitVec 32) : BitVec 31 := p.extractLsb' 1 31

def payloadBit (p : BitVec 32) : Bool := p.getLsbD 0

/-- The bits of a Grayscale payload that must be 0. -/
def payloadRestG (p : BitVec 32) : BitVec 16 := p.extractLsb' 16 16

def payloadLuma (p : BitVec 32) : Byte := p.extractLsb' 8 8

def payloadAlpha (p : BitVec 32) : Byte := p.extractLsb' 0 8

/-! ## Luma and one-bit conversion -/

/-- The default `LUMA` (R146). -/
def lumaStandard (r g b : Byte) : Byte :=
  BitVec.ofNat 8 ((19595 * r.toNat + 38470 * g.toNat + 7471 * b.toNat + 32768) >>> 16)

/-- `LUMA` of a block (R7, U1). -/
def LumaParam.apply (l : LumaParam) (p : Pixel) : Byte :=
  match l with
  | .standard => lumaStandard p.r p.g p.b
  | .other n => Config.openLuma n p.r p.g p.b

/-- The 8-bit monochrome source of a Binary pixel (R147). -/
def monoSource (l : LumaParam) (alphaOnly : Bool) (p : Pixel) : Byte := if alphaOnly then p.a else l.apply p

/-- The (luma, alpha) pair of a Grayscale pixel (R148). -/
def grayPair (l : LumaParam) (alphaOnly : Bool) (p : Pixel) : Byte × Byte :=
  if alphaOnly then (p.a, 0xFF) else (l.apply p, p.a)

/-- R150. -/
def mono1 (tMono m : Byte) : Bool := decide (tMono.toNat ≤ m.toNat)

/-- `asr4` (R10): floor division by 16. -/
def asr4 (z : Int) : Int := z / 16

/-- `clamp` (R10). -/
def clamp (z lo hi : Int) : Int := if z < lo then lo else if hi < z then hi else z

/-- Adds `d` to cell `i`; a share outside the row is dropped (R152). -/
def addAt : List Int → Nat → Int → List Int
  | [], _, _ => []
  | c :: cs, 0, d => (c + d) :: cs
  | c :: cs, i + 1, d => c :: addAt cs i d

/-- The cells of the current row after `distribute(e, x)` (R152). -/
def distributeCur (width x : Nat) (e : Int) (cur : List Int) : List Int :=
  if x + 1 < width then addAt cur (x + 1) (7 * e) else cur

/-- The cells of the next row after `distribute(e, x)` (R152). -/
def distributeNxt (width x : Nat) (e : Int) (nxt : List Int) : List Int :=
  let below := addAt (if 1 ≤ x then addAt nxt (x - 1) (3 * e) else nxt) x (5 * e)
  if x + 1 < width then addAt below (x + 1) e else below

/-- The value the default step compares with the threshold (R151). -/
def fsValue (m : Byte) (x : Nat) (cur : List Int) : Int := clamp ((m.toNat : Int) + asr4 (cur.getD x 0)) 0 255

/-- The default step's bit (R151). -/
def fsBit (tMono m : Byte) (x : Nat) (cur : List Int) : Bool := decide ((tMono.toNat : Int) ≤ fsValue m x cur)

/-- The default step's quantisation error (R151). -/
def fsError (tMono m : Byte) (x : Nat) (cur : List Int) : Int :=
  fsValue m x cur - if fsBit tMono m x cur then 255 else 0

/-- A list as `n` cells: an error array has `J.width` of them whatever another step answers (R33, log 2). -/
def fitCells (n : Nat) (cells : List Int) : List Int := (cells ++ List.replicate n 0).take n

/-- The dither step at `x` (R151, R152, U3): the bit, `errCur` and `errNxt`. -/
def FsParam.apply (fs : FsParam) (tMono : Byte) (width : Nat) (m : Byte) (x : Nat) (cur nxt : List Int) :
    Bool × List Int × List Int :=
  match fs with
  | .standard =>
    (fsBit tMono m x cur, distributeCur width x (fsError tMono m x cur) cur,
      distributeNxt width x (fsError tMono m x cur) nxt)
  | .other n =>
    let out := Config.openFs n m x cur nxt
    (out.1, fitCells cur.length out.2.1, fitCells nxt.length out.2.2)

/-! ## The bytes of a pixel -/

/-- Alpha or colour inversion: XOR with 0xFF when asked for. -/
def invertByte (invert : Bool) (v : Byte) : Byte := if invert then v ^^^ 0xFF else v

/-- Step 1 of R184: under ChromaKey the luma that equals the key is remapped to 0, then a pixel that is not fully
opaque takes the key. -/
def grayKeyed (t : Transparency) (luma alpha : Byte) : Byte :=
  let remapped := if luma = Config.keyGray then 0 else luma
  if t = .chromaKey then (if alpha ≠ 0xFF then Config.keyGray else remapped) else luma

/-- Step 3 of R184: under AlphaChannel a pixel that is not fully opaque is its alpha. -/
def graySubstituted (t : Transparency) (v alpha : Byte) : Byte :=
  if t = .alphaChannel ∧ alpha ≠ 0xFF then alpha else v

/-- The byte of a Grayscale pixel (R184): key, inversion, substitution, in that order (R185). -/
def grayByte (t : Transparency) (invert : Bool) (luma alpha : Byte) : Byte :=
  graySubstituted t (invertByte invert (grayKeyed t luma alpha)) alpha

/-- The quantised colour (R190): shifts that truncate. -/
def quantise (p : Pixel) : BitVec 5 × BitVec 6 × BitVec 5 :=
  (p.r.extractLsb' 3 5, p.g.extractLsb' 2 6, p.b.extractLsb' 3 5)

/-- The chroma-key step shared by RGB565 and RGB (R190, R200): the colour that equals the key loses its green, and
only a colour that does not is tested for transparency. -/
def keyed {α : Type} [DecidableEq α] (key black : α) (t : Transparency) (a : Byte) (colour : α) : α :=
  if t = .chromaKey then
    if colour = key then black else if a.toNat < Config.aKey then key else colour
  else colour

/-- The 16-bit colour word of an RGB565 pixel (R190). -/
def word565 (t : Transparency) (p : Pixel) : BitVec 16 :=
  let c := keyed Config.key565 (0, 0, 0) t p.a (quantise p)
  c.1 ++ c.2.1 ++ c.2.2

/-- The alpha byte that RGB565 and RGB append under AlphaChannel (R190, R200). -/
def alphaBytes (t : Transparency) (invert : Bool) (a : Byte) : List Byte :=
  if t = .alphaChannel then [invertByte invert a] else []

/-- The colour word's two bytes, in the job's order (R65, R190). -/
def wordBytes (bigEndian : Bool) (w : BitVec 16) : List Byte :=
  if bigEndian then [w.extractLsb' 8 8, w.extractLsb' 0 8] else [w.extractLsb' 0 8, w.extractLsb' 8 8]

/-- The bytes of an RGB565 pixel (R190). -/
def bytes565 (t : Transparency) (invert bigEndian : Bool) (p : Pixel) : List Byte :=
  wordBytes bigEndian (word565 t p) ++ alphaBytes t invert p.a

/-- The colour of an RGB pixel (R200). -/
def colour888 (t : Transparency) (p : Pixel) : Byte × Byte × Byte :=
  keyed Config.key888 (0, 0, 0) t p.a (p.r, p.g, p.b)

/-- The bytes of an RGB pixel (R200). -/
def bytesRGB (t : Transparency) (invert : Bool) (p : Pixel) : List Byte :=
  [(colour888 t p).1, (colour888 t p).2.1, (colour888 t p).2.2] ++ alphaBytes t invert p.a

/-- The mask of a Binary pixel (R172): bit `7 - k` of a byte. -/
def bitMask (k : BitVec 3) : Byte := 0x80#8 >>> k.toNat

end Sys2Proof.Machine
end

