-- ==== Sys2Proof/Machine/Ops.lean ====
section
/-! DEFINITION. The named operations over registers and memory that the commands share: the output buffer
(spec/20_memory.md), the error entry (spec/60_exceptions.md R256) and the leaving of FAILED (R259, R260), reset
(spec/10_state.md R41), the four packers (R172, R184, R190, R200), the normaliser (R147, R148) and the position
counters (spec/47_frame_orchestrator.md R234). -/

namespace Sys2Proof.Machine

abbrev Result := Host.Outcome State Fault Refusal

/-! ## The output buffer -/

/-- What an offset of the buffer with no listed byte reads as: CFG zero-fills the buffer (R61). -/
def unlistedByte : Byte := 0

/-- The byte at offset `a`. -/
def Memory.get : Memory → Nat → Byte
  | [], _ => unlistedByte
  | (k, v) :: m, a => if k = a then v else Memory.get m a

/-- A listed byte, or none when it equals what the unlisted offset reads as. -/
def Memory.cell (a : Nat) (v : Byte) (m : Memory) : Memory := if v = unlistedByte then m else (a, v) :: m

/-- Writes `v` at offset `a`, keeping the canonical form. -/
def Memory.set : Memory → Nat → Byte → Memory
  | [], a, v => Memory.cell a v []
  | (k, w) :: m, a, v =>
    if a < k then Memory.cell a v ((k, w) :: m)
    else if a = k then Memory.cell a v m
    else (k, w) :: Memory.set m a v

/-- Every offset of `m` is at least `lo`, they strictly rise, and no byte is the unlisted one. -/
def Memory.wfFrom : Nat → Memory → Bool
  | _, [] => true
  | lo, (k, v) :: m => decide (lo ≤ k) && v != unlistedByte && Memory.wfFrom (k + 1) m

/-- The canonical form. -/
def Memory.wf (m : Memory) : Bool := Memory.wfFrom 0 m

/-- Every listed offset is below `n`. -/
def Memory.below (n : Nat) (m : Memory) : Bool := m.all fun c => decide (c.1 < n)

/-- The buffer's byte at an offset, as every read of it sees it (R11 `MemRead`). -/
def State.byteAt (s : State) (a : Nat) : Byte := Memory.get s.buffer a

/-- `MemRead(a, 1)` (R11, R60). -/
def memRead (a : Nat) (s : State) : Except Fault Byte :=
  if a < s.enc.bufLen then .ok (s.byteAt a) else .error .offsetOutsideBuffer

/-- The buffer with `v` at `a`. -/
def State.putByte (a : Nat) (v : Byte) (s : State) : State := { s with buffer := Memory.set s.buffer a v }

/-- `MemWrite(a, 1, v)` (R11, R60). -/
def memWrite (a : Nat) (v : Byte) (s : State) : Except Fault State :=
  if a < s.enc.bufLen then .ok (s.putByte a v) else .error .offsetOutsideBuffer

/-! ## Errors -/

/-- The error entry, `raise X(code)` (R256): the code and the phase, nothing else. -/
def State.raise (c : ErrCode) (s : State) : State := { s with errCode := c, phase := .failed }

/-- In FAILED a command other than CFG and RST is ignored (R259). -/
def unlessFailed (s : State) (r : Result) : Result := if s.phase = .failed then .next s else r

/-- An illegal word (R102, R233, R259). -/
def illegalWord (s : State) : Result := unlessFailed s (.next (s.raise .illegalCmd))

/-! ## Reset -/

/-- Every register at its value of R41; the OPEN parameters and the host's pending inputs are no registers (R20). -/
def State.resetRegisters (s : State) : State := { State.reset with params := s.params, inputs := s.inputs }

/-! ## The host's inputs -/

def State.withInputs (inputs : List HostInput) (s : State) : State := { s with inputs := inputs }

/-- Takes the next input the host has sent, if any. -/
def State.nextInput (s : State) : Option (HostInput × State) :=
  match s.inputs with
  | [] => none
  | x :: rest => some (x, s.withInputs rest)

/-- Puts a command word where the next step looks. -/
def State.queueWord (w : CmdWord) (s : State) : State := s.withInputs (.command w :: s.inputs)

/-! ## Configuration -/

/-- CFG clears the warning flags before its checks (R121, R126). -/
def State.clearWarnings (s : State) : State :=
  { s with warnOversize := false, warnAlphaOnly := false, warnFrames := false }

/-- `E.bufLen` of a job (R26). -/
def bufLenOf (d : CfgFields) (t : Transparency) : Nat :=
  storageWidth d.format t d.width.toNat * (d.height.toNat * (frameCount d.animated d.srcFrames).toNat)

/-- Check 6 (R122): whether the buffer holds `n` bytes; none is unbounded (R7). -/
def fitsBuffer (bufMax : Option Nat) (n : Nat) : Bool :=
  match bufMax with
  | none => true
  | some m => decide (n ≤ m)

/-- Checks 2 to 6 (R122), in order, for a job whose transparency code is legal; none when all pass. -/
def cfgCheckJob (bufMax : Option Nat) (d : CfgFields) (t : Transparency) : Option ErrCode :=
  if d.width = 0 ∨ d.height = 0 then some .cfgBadDim
  else if !transpAllowed d.format t then some .cfgTransp
  else if d.invertAlpha && !invertLegal d.format t then some .cfgInvert
  else if d.boSet && !supportsByteOrder d.format then some .cfgByteOrder
  else if !fitsBuffer bufMax (bufLenOf d t) then some .cfgCapacity
  else none

/-- The checks of CFG (R122): the first that fails gives the code; a job that passes has its transparency mode. -/
def cfgCheck (bufMax : Option Nat) (d : CfgFields) : Except ErrCode Transparency :=
  match Transparency.ofCode d.transp with
  | none => .error .cfgBadEnum
  | some t =>
    match cfgCheckJob bufMax d t with
    | some c => .error c
    | none => .ok t

/-- The job registers an accepted CFG writes (R121). -/
def jobOf (d : CfgFields) (t : Transparency) : Job :=
  { width := d.width, height := d.height, srcFrames := d.srcFrames, format := d.format, transp := t
    dither := d.dither, invertAlpha := d.invertAlpha, boSet := d.boSet, bo := d.bo, animated := d.animated
    unresized := d.unresized }

/-- The encoder constants an accepted CFG computes (R26, R27). -/
def encOf (d : CfgFields) (t : Transparency) : EncConst :=
  { frameCount := frameCount d.animated d.srcFrames
    storageWidth := storageWidth d.format t d.width.toNat
    totalRows := d.height.toNat * (frameCount d.animated d.srcFrames).toNat
    bufLen := bufLenOf d t
    bigEndian := bigEndianOf d.boSet d.bo
    transp := t }

/-- What an accepted CFG does (R121). -/
def State.configure (d : CfgFields) (t : Transparency) (s : State) : State :=
  { s with
    job := jobOf d t
    enc := encOf d t
    buffer := []
    writeIndex := 0
    bitCursor := 0
    phase := .ready
    frame := 0
    row := 0
    col := 0
    scanColorMax := 0
    scanAlphaMin := 0xFF
    scanCount := 0
    alphaOnly := false
    srcMode := .raw
    errCur := List.replicate d.width.toNat 0
    errNxt := List.replicate d.width.toNat 0
    errCode := .none
    warnOversize := warnsOversize d.unresized d.width d.height
    warnAlphaOnly := false
    warnFrames := warnsFrames d.animated d.srcFrames }

/-! ## The alpha-only detector and the start of a frame -/

/-- The larger of two channel values. -/
def maxByte (x y : Byte) : Byte := if x.toNat < y.toNat then y else x

/-- The smaller of two channel values. -/
def minByte (x y : Byte) : Byte := if y.toNat < x.toNat then y else x

/-- SCAN's accumulation (R141). -/
def State.accumulate (p : Pixel) (s : State) : State :=
  { s with
    scanColorMax := maxByte (maxByte (maxByte s.scanColorMax p.r) p.g) p.b
    scanAlphaMin := minByte s.scanAlphaMin p.a
    scanCount := min (s.scanCount + 1) (2 ^ 33 - 1) }

/-- Whether FRM reads the scan accumulators: a raw frame of format Binary or Grayscale (R142). -/
def State.needsScan (src : SrcMode) (s : State) : Bool :=
  src == .raw && (s.job.format == .binary || s.job.format == .grayscale)

/-- The alpha-only decision of a frame (R142, R143). -/
def State.frameAlphaOnly (src : SrcMode) (s : State) : Bool :=
  s.needsScan src && isAlphaOnly s.scanColorMax s.scanAlphaMin

/-- The override of R144, when `on`. -/
def State.override (on : Bool) (s : State) : State :=
  if on then { s with enc := { s.enc with transp := .alphaChannel }, warnAlphaOnly := true } else s

/-- Every cell 0. -/
def zeroCells (cells : List Int) : List Int := List.replicate cells.length 0

/-- The rest of FRM (R142): the decision and the source recorded, the normaliser and the position cleared, ENCODING. -/
def State.openFrame (src : SrcMode) (alphaOnly : Bool) (s : State) : State :=
  { s with
    alphaOnly := alphaOnly
    srcMode := src
    errCur := zeroCells s.errCur
    errNxt := zeroCells s.errNxt
    scanColorMax := 0
    scanAlphaMin := 0xFF
    scanCount := 0
    row := 0
    col := 0
    phase := .encoding }

/-- FRM once its checks have passed (R142): the override, then the frame. -/
def State.startFrame (src : SrcMode) (s : State) : State :=
  (s.override (overrides s.job.format (s.frameAlphaOnly src) s.enc.transp)).openFrame src (s.frameAlphaOnly src)

/-! ## The packers -/

/-- `MemWrite(writeIndex, 1, v); writeIndex <- writeIndex + 1` (R184). -/
def appendByte (v : Byte) (s : State) : Except Fault State :=
  match memWrite s.writeIndex v s with
  | .ok t => .ok { t with writeIndex := t.writeIndex + 1 }
  | .error f => .error f

/-- Bytes at consecutive offsets in increasing order (R67). -/
def appendBytes : List Byte → State → Except Fault State
  | [], s => .ok s
  | v :: vs, s =>
    match appendByte v s with
    | .ok t => appendBytes vs t
    | .error f => .error f

/-- The bit cursor's advance (R172). -/
def State.advanceBit (s : State) : State :=
  if s.bitCursor = 7 then { s with bitCursor := 0, writeIndex := s.writeIndex + 1 }
  else { s with bitCursor := s.bitCursor + 1 }

/-- ORs the cursor's mask into the current byte (R67, R172). -/
def setCursorBit (s : State) : Except Fault State :=
  match memRead s.writeIndex s with
  | .ok v => memWrite s.writeIndex (v ||| bitMask s.bitCursor) s
  | .error f => .error f

/-- `encodeBinary(bit)` (R172): a 0 bit accesses no byte. -/
def packBinary (bit : Bool) (s : State) : Except Fault State :=
  if (bit ^^ s.job.invertAlpha) then
    match setCursorBit s with
    | .ok t => .ok t.advanceBit
    | .error f => .error f
  else .ok s.advanceBit

/-- `encodeGray(luma, alpha)` (R184). -/
def packGray (luma alpha : Byte) (s : State) : Except Fault State :=
  appendByte (grayByte s.enc.transp s.job.invertAlpha luma alpha) s

/-- `encode565(r, g, b, a)` (R190). -/
def pack565 (p : Pixel) (s : State) : Except Fault State :=
  appendBytes (bytes565 s.enc.transp s.job.invertAlpha s.enc.bigEndian p) s

/-- `encodeRGB(r, g, b, a)` (R200). -/
def packRGB (p : Pixel) (s : State) : Except Fault State :=
  appendBytes (bytesRGB s.enc.transp s.job.invertAlpha p) s

/-! ## The normaliser -/

def State.withCells (cur nxt : List Int) (s : State) : State := { s with errCur := cur, errNxt := nxt }

/-- `fsStep(m)` at `x` = `col` (R151): the bit, and the state with the error spread. -/
def fsStep (m : Byte) (s : State) : Except Fault (Bool × State) :=
  if s.col < s.errCur.length ∧ s.col < s.errNxt.length then
    let out := s.params.fs.apply s.params.tMono s.job.width.toNat m s.col s.errCur s.errNxt
    .ok (out.1, s.withCells out.2.1 out.2.2)
  else .error .cellOutsideRow

/-- `normBinary(r, g, b, a)` (R147). -/
def normBinary (p : Pixel) (s : State) : Except Fault (Bool × State) :=
  let m := monoSource s.params.luma s.alphaOnly p
  match s.job.dither with
  | .noDither => .ok (mono1 s.params.tMono m, s)
  | .floydSteinberg => fsStep m s

/-- PIX's normalising and packing, by format (R145). -/
def encodeSource (p : Pixel) (s : State) : Except Fault State :=
  match s.job.format with
  | .binary =>
    match normBinary p s with
    | .ok (bit, t) => packBinary bit t
    | .error f => .error f
  | .grayscale =>
    let pair := grayPair s.params.luma s.alphaOnly p
    packGray pair.1 pair.2 s
  | .rgb565 => pack565 p s
  | .rgb => packRGB p s

/-! ## Pixel commands and rows -/

/-- `col <- col + 1`, the end of every pixel command (R145, R171). -/
def finishPixel (r : Except Fault State) : Result :=
  match r with
  | .ok s => .next { s with col := s.col + 1 }
  | .error f => .fault f

/-- The checks every pixel command makes before it encodes (R145, R171), in the order of R254: FAILED ignores it, then
the phase and source, then the row. -/
def pixelShell (src : SrcMode) (s : State) (r : Result) : Result :=
  unlessFailed s
    (if s.phase ≠ .encoding ∨ s.srcMode ≠ src then .next (s.raise .protoOrder)
     else if s.col = s.job.width.toNat then .next (s.raise .protoRow)
     else r)

/-- The ENC shell (R171): after those checks, the payload's must-be-zero bits (R100), then the packer. -/
def encShell (restZero : Bool) (pack : State → Except Fault State) (s : State) : Result :=
  pixelShell .canon s (if restZero then finishPixel (pack s) else .next (s.raise .illegalCmd))

/-- EOR's padding (R174): Binary only, and only mid-byte; no byte is written. -/
def State.padRow (s : State) : State :=
  if s.job.format = .binary ∧ s.bitCursor ≠ 0 then { s with bitCursor := 0, writeIndex := s.writeIndex + 1 } else s

/-- EOR's move of the dither error to the new row (R153, R174). -/
def State.shiftErrors (s : State) : State :=
  if s.job.format = .binary ∧ s.job.dither = .floydSteinberg then s.withCells s.errNxt (zeroCells s.errNxt) else s

/-- EOR's advance of the position and the phase (R174, R234). -/
def State.nextRow (s : State) : State :=
  if s.row + 1 = s.job.height.toNat then
    { s with
      col := 0
      row := 0
      frame := s.frame + 1
      phase := if s.frame + 1 = s.enc.frameCount.toNat then .done else .ready }
  else { s with col := 0, row := s.row + 1 }

end Sys2Proof.Machine
end

