-- ==== Sys2Proof/Machine/Encoders.lean ====
section
/-! DEFINITION. The commands of the encoders: the four ENC rows and EOR (spec/42_binary_encoder.md to
spec/45_rgba_encoder.md). An ENC row is the ENC shell R171 at the format the row stands for; the step selects the row
by `J.format` (log 3). -/

namespace Sys2Proof.Machine

/-- ENC.B (R171, R172): `bit = payload[0]`, `payload[31:1]` must be 0. -/
def execEncB (payload : BitVec 32) (s : State) : Result :=
  encShell (payloadRestB payload == 0) (packBinary (payloadBit payload)) s

/-- ENC.G (R171, R184): `luma = payload[15:8]`, `alpha = payload[7:0]`, `payload[31:16]` must be 0. -/
def execEncG (payload : BitVec 32) (s : State) : Result :=
  encShell (payloadRestG payload == 0) (packGray (payloadLuma payload) (payloadAlpha payload)) s

/-- ENC.565 (R171, R190): the payload is a source pixel's. -/
def execEnc565 (payload : BitVec 32) (s : State) : Result := encShell true (pack565 (pixelOfPayload payload)) s

/-- ENC.RGB (R171, R200): the payload is a source pixel's. -/
def execEncRGB (payload : BitVec 32) (s : State) : Result := encShell true (packRGB (pixelOfPayload payload)) s

/-- EOR (R174). -/
def execEor (s : State) : Result :=
  unlessFailed s
    (if s.phase ≠ .encoding then .next (s.raise .protoOrder)
     else if s.col ≠ s.job.width.toNat then .next (s.raise .protoRow)
     else .next s.padRow.shiftErrors.nextRow)

end Sys2Proof.Machine
end

