-- ==== Sys2Proof/Machine/Normalizer.lean ====
section
/-! DEFINITION. The commands of the pixel normaliser: SCAN, FRM, PIX (spec/41_pixel_normalizer.md). -/

namespace Sys2Proof.Machine

/-- SCAN (R141). -/
def execScan (p : Pixel) (s : State) : Result :=
  unlessFailed s (if s.phase ≠ .ready then .next (s.raise .protoOrder) else .next (s.accumulate p))

/-- FRM (R142). -/
def execFrm (src : SrcMode) (s : State) : Result :=
  unlessFailed s
    (if s.phase ≠ .ready then .next (s.raise .protoOrder)
     else if s.needsScan src ∧ s.scanCount ≠ s.job.width.toNat * s.job.height.toNat then .next (s.raise .protoScan)
     else .next (s.startFrame src))

/-- PIX (R145). -/
def execPix (p : Pixel) (s : State) : Result := pixelShell .raw s (finishPixel (encodeSource p s))

end Sys2Proof.Machine
end

