-- ==== Sys2Proof/Machine/System.lean ====
section
/-! DEFINITION. The commands that act on the block as a whole: CFG, ABT, RST (spec/40_job_validator.md). -/

namespace Sys2Proof.Machine

/-- CFG (R121, R126): refused while a job is in progress; else the warnings are cleared and the checks decide.
DESIGN CHOICE (log 18): a CFG rejected in FAILED records its own code over the earlier one, as R126 and R260 say; R34 and
R259 word `errCode` as the code of the first error since the last accepted CFG or reset. -/
def execCfg (d : CfgFields) (s : State) : Result :=
  if s.phase = .ready ∨ s.phase = .encoding then .next (s.raise .protoOrder)
  else
    match cfgCheck s.params.bufMax d with
    | .error c => .next (s.clearWarnings.raise c)
    | .ok t => .next (s.clearWarnings.configure d t)

/-- ABT (R131). The ill-formed cause 3 stands for an illegal word and acts as one (R102, log 10). -/
def execAbt (cause : BitVec 2) (s : State) : Result :=
  if cause = 3 then illegalWord s
  else unlessFailed s (if s.phase = .done then .next (s.raise .protoOrder) else .next (s.raise (sourceError cause)))

/-- RST (R130): performed in every phase. -/
def execRst (s : State) : Result := .next s.resetRegisters

/-- The hardware reset input (R280): the same registers, the same values. -/
def hardwareReset (s : State) : Result := .next s.resetRegisters

end Sys2Proof.Machine
end

