-- ==== Sys2Proof/Machine/Dispatch.lean ====
section
/-! DEFINITION. One arm per constructor of Instr. -/

namespace Sys2Proof.Machine

def exec (i : Instr) (s : State) : Host.Outcome State Fault Refusal :=
  match i with
  | .cfg d => Sys2Proof.Machine.execCfg d s
  | .scan p => Sys2Proof.Machine.execScan p s
  | .frm src => Sys2Proof.Machine.execFrm src s
  | .pix p => Sys2Proof.Machine.execPix p s
  | .encB payload => Sys2Proof.Machine.execEncB payload s
  | .encG payload => Sys2Proof.Machine.execEncG payload s
  | .enc565 payload => Sys2Proof.Machine.execEnc565 payload s
  | .encRGB payload => Sys2Proof.Machine.execEncRGB payload s
  | .eor => Sys2Proof.Machine.execEor s
  | .abt cause => Sys2Proof.Machine.execAbt cause s
  | .rst => Sys2Proof.Machine.execRst s

end Sys2Proof.Machine
end

