-- ==== Sys2Proof/Machine/Step.lean ====
section
/-! DEFINITION. One step: the block takes the next input the host has sent and performs it to completion
(spec/00_scope.md R3, R14; spec/30_encoding.md R104). With nothing sent, nothing happens (R242). -/

namespace Sys2Proof.Machine

/-- A command word: decoded, with `J.format` selecting the ENC row (R97), and executed; or illegal (R104). -/
def stepWord (w : CmdWord) (s : State) : Host.Outcome State Fault Refusal :=
  match decode s.job.format w with
  | .ok i => exec i s
  | .error _ => illegalWord s

def step (s : State) : Host.Outcome State Fault Refusal :=
  match s.nextInput with
  | none => .next s
  | some (.command w, t) => stepWord w t
  | some (.hardwareReset, t) => hardwareReset t

/-- The state in which the next step takes this word: it stands first among the host's pending inputs (log 4). -/
def State.withFetchWord (s : State) (nbits w : Nat) : State := s.queueWord (wordOfTable nbits w)

end Sys2Proof.Machine
end

