-- ==== Sys2Proof/Machine/HostSide.lean ====
section
/-! DEFINITION. What the spec rules of the host, outside the block: the frame size (spec/41_pixel_normalizer.md R160),
the removed format names (spec/40_job_validator.md R128), the trace form of command streams (spec/30_encoding.md R106,
R107), the streams of a complete job (spec/47_frame_orchestrator.md R230) and the host's duty to scan what it sends
(R242; spec/41_pixel_normalizer.md R155). No step of the block uses them (log 11). -/

namespace Sys2Proof.Machine

/-! ## Frame size (R160) -/

/-- The frame's final size under a bound. -/
def resizeDims (origW origH maxW maxH : Nat) : Nat × Nat :=
  if maxW * origH ≤ maxH * origW then (maxW, origH * maxW / origW) else (origW * maxH / origH, maxH)

/-- The final size, and `unresized`. -/
def finalDims (origW origH : Nat) (bound : Option (Nat × Nat)) : (Nat × Nat) × Bool :=
  match bound with
  | some (maxW, maxH) => (resizeDims origW origH maxW maxH, false)
  | none => ((origW, origH), true)

/-! ## Removed format names (R128) -/

/-- The migration message of a removed name. -/
def removedNameMessage (name : String) : Option String :=
  if name = "TRANSPARENT_BINARY" then some "use Binary + chroma_key"
  else if name = "RGB24" then some "use RGB"
  else if name = "RGBA" then some "use RGB + alpha_channel"
  else none

/-! ## Trace lines (R106, R107) -/

/-- The options of a CFG line. -/
inductive TraceOption where
  | frames (n : BitVec 16)
  | dither
  | inv
  | bo (order : ByteOrder)
  | anim
  | unresized
deriving DecidableEq, Repr

/-- A CFG line without options: every option's zero, and `frames` omitted is 1 (R106). -/
def traceCfg (f : Format) (t : Transparency) (width height : BitVec 16) : CfgFields :=
  { format := f, transp := t.code, dither := .noDither, invertAlpha := false, boSet := false, bo := .bigEndian
    animated := false, unresized := false, srcFrames := 1, height := height, width := width }

/-- What an option says. -/
def TraceOption.apply (o : TraceOption) (d : CfgFields) : CfgFields :=
  match o with
  | .frames n => { d with srcFrames := n }
  | .dither => { d with dither := .floydSteinberg }
  | .inv => { d with invertAlpha := true }
  | .bo order => { d with boSet := true, bo := order }
  | .anim => { d with animated := true }
  | .unresized => { d with unresized := true }

/-- The lines of a trace. -/
inductive TraceLine where
  | cfg (f : Format) (t : Transparency) (width height : BitVec 16) (options : List TraceOption)
  | scan (p : Pixel)
  | frm (src : SrcMode)
  | pix (p : Pixel)
  | enc (payload : BitVec 32)
  | eor
  | abt (cause : BitVec 2)
  | rst
  | row (ps : List Pixel)
  | crow (payloads : List (BitVec 32))
  | scanf (ps : List Pixel)
  | frame (ps : List Pixel)
deriving DecidableEq, Repr

/-- `ROW p0 ... pk`. -/
def rowCommands (ps : List Pixel) : List Instr := ps.map .pix ++ [.eor]

/-- `CROW c0 ... ck`, in a job of format `f`. -/
def crowCommands (f : Format) (payloads : List (BitVec 32)) : List Instr := payloads.map (encRow f) ++ [.eor]

/-- `SCANF p0 ... pk`. -/
def scanCommands (ps : List Pixel) : List Instr := ps.map .scan

/-- The rows of a frame given in raster order. -/
def rowsOf (width : Nat) : Nat → List Pixel → List (List Pixel)
  | 0, _ => []
  | h + 1, ps => ps.take width :: rowsOf width h (ps.drop width)

/-- A raw frame, row by row: the scan pass, FRM, the rows. -/
def rawFrameCommands (scan : List Pixel) (rows : List (List Pixel)) : List Instr :=
  scanCommands scan ++ .frm .raw :: rows.flatMap rowCommands

/-- A canonical frame, row by row: the scan pass, FRM, the rows. -/
def canonFrameCommands (f : Format) (scan : List Pixel) (rows : List (List (BitVec 32))) : List Instr :=
  scanCommands scan ++ .frm .canon :: rows.flatMap (crowCommands f)

/-- The commands of a trace line, in a job of format `f` and size `width` x `height`. -/
def TraceLine.commands (f : Format) (width height : Nat) : TraceLine → List Instr
  | .cfg f' t w h options => [.cfg (options.foldl (fun d o => o.apply d) (traceCfg f' t w h))]
  | .scan p => [.scan p]
  | .frm src => [.frm src]
  | .pix p => [.pix p]
  | .enc payload => [encRow f payload]
  | .eor => [.eor]
  | .abt cause => [.abt cause]
  | .rst => [.rst]
  | .row ps => rowCommands ps
  | .crow payloads => crowCommands f payloads
  | .scanf ps => scanCommands ps
  | .frame ps => rawFrameCommands ps (rowsOf width height ps)

/-! ## A complete job (R230) -/

/-- One frame of a job: the pixels of its scan pass, then raw pixels or canonical payloads, row by row. -/
inductive JobFrame where
  | raw (scan : List Pixel) (rows : List (List Pixel))
  | canon (scan : List Pixel) (rows : List (List (BitVec 32)))
deriving DecidableEq, Repr

/-- Whether the bits of an ENC payload that R100 wants 0 are 0. -/
def payloadLegal (f : Format) (p : BitVec 32) : Bool :=
  match f with
  | .binary => payloadRestB p == 0
  | .grayscale => payloadRestG p == 0
  | .rgb565 => true
  | .rgb => true

/-- How many SCANs the grammar has before `FRM raw`: every pixel of the frame for Binary and Grayscale, any number for
RGB565 and RGB. -/
def rawScanFits (f : Format) (width height scans : Nat) : Bool :=
  match f with
  | .binary => scans == width * height
  | .grayscale => scans == width * height
  | .rgb565 => true
  | .rgb => true

/-- A frame of the grammar: `height` rows of `width` pixels after a scan pass of a length it allows (any before
`FRM canon`); canonical payloads are legal for the format. -/
def JobFrame.fits (f : Format) (width height : Nat) : JobFrame → Bool
  | .raw scan rows =>
    rawScanFits f width height scan.length && rows.length == height && rows.all fun r => r.length == width
  | .canon _ rows => rows.length == height && rows.all fun r => r.length == width && r.all (payloadLegal f)

def JobFrame.commands (f : Format) : JobFrame → List Instr
  | .raw scan rows => rawFrameCommands scan rows
  | .canon scan rows => canonFrameCommands f scan rows

/-- The host's duty, which the block does not check (R155, R242): the scan pass of a raw Binary or Grayscale frame
shows the pixels of its PIX pass, in any order. -/
def JobFrame.scansItsPixels (f : Format) : JobFrame → Bool
  | .raw scan rows => f == .rgb565 || f == .rgb || scan.isPerm rows.flatten
  | .canon _ _ => true

/-- `job := CFG frame{frameCount}`. -/
def jobCommands (d : CfgFields) (frames : List JobFrame) : List Instr :=
  .cfg d :: frames.flatMap (JobFrame.commands d.format)

/-- The words the host sends for commands. -/
def hostInputs (commands : List Instr) : List HostInput := commands.map fun i => .command (encode i)

end Sys2Proof.Machine
end

