-- ==== Sys2Proof/Machine/Outputs.lean ====
section
/-! DEFINITION. What the host reads (spec/10_state.md R35): pure functions of the state; reading changes nothing. The
metadata and the buffer have no value outside DONE (spec/70_reset_and_hazards.md R287). -/

namespace Sys2Proof.Machine

def State.outValid (s : State) : Bool := s.phase == .done

def State.outError (s : State) : Bool := s.phase == .failed

def State.outErrCode (s : State) : BitVec 4 := s.errCode.code

/-- (`warn.OVERSIZE`, `warn.ALPHA_ONLY`, `warn.FRAMES`). -/
def State.outWarn (s : State) : Bool × Bool × Bool := (s.warnOversize, s.warnAlphaOnly, s.warnFrames)

/-- A value the host can read only while `out_valid` = 1. -/
def State.whenDone {α : Type} (s : State) (v : α) : Option α := if s.outValid then some v else none

def State.metaWidth (s : State) : Option (BitVec 16) := s.whenDone s.job.width

def State.metaHeight (s : State) : Option (BitVec 16) := s.whenDone s.job.height

/-- The metadata reuse the input codes (R96, U16). -/
def State.metaFormat (s : State) : Option (BitVec 2) := s.whenDone s.job.format.code

/-- The resolved transparency, not the requested one (R27). -/
def State.metaTransparency (s : State) : Option (BitVec 2) := s.whenDone s.enc.transp.code

def State.metaFrameCount (s : State) : Option (BitVec 16) := s.whenDone s.enc.frameCount

/-- The buffer's read port: `out_byte(i)` for `i < E.bufLen`. -/
def State.outByte (s : State) (i : Nat) : Option Byte :=
  if i < s.enc.bufLen then s.whenDone (s.byteAt i) else none

/-! ## The document's state machine (R36) -/

def State.isInit (s : State) : Bool := s.phase == .ready && s.frame == 0

def State.isEncodingAt (n m : Nat) (s : State) : Bool := s.phase == .encoding && s.row == n && s.col == m

def State.isRowComplete (s : State) : Bool :=
  s.col == 0 &&
    ((s.phase == .encoding && decide (0 < s.row)) || (s.phase == .ready && decide (0 < s.frame)) || s.phase == .done)

def State.isDone (s : State) : Bool := s.phase == .done

end Sys2Proof.Machine
end

