-- ==== Sys2Proof/Safety.lean ====
section
/-! DEFINITION. The states a run can reach: the invariants of spec/10_state.md R42, with what they rest on, and the
bound on the dither cells of R33. -/

namespace Sys2Proof.Machine

/-- `J.width`, `J.height` and `E.frameCount` as numbers. -/
def State.widthNat (s : State) : Nat := s.job.width.toNat

def State.heightNat (s : State) : Nat := s.job.height.toNat

def State.framesNat (s : State) : Nat := s.enc.frameCount.toNat

/-- Bytes of the first `col` pixels of a row (R42(c)); the factor is that of the transparency CFG accepted. -/
def rowBytes (f : Format) (accepted : Transparency) (col : Nat) : Nat :=
  match f with
  | .binary => col / 8
  | .grayscale => col
  | .rgb565 => if accepted = .alphaChannel then col * 3 else col * 2
  | .rgb => if accepted = .alphaChannel then col * 4 else col * 3

/-- `rowBase(frame, row)` (R63). -/
def State.rowBase (s : State) (frame row : Nat) : Nat := s.enc.storageWidth * (frame * s.heightNat + row)

/-- The invariant of every reachable state. -/
structure Inv (s : State) : Prop where
  /-- The buffer's list is canonical. -/
  memory : Memory.wf s.buffer = true
  /-- It lists no offset the buffer does not have (R60). -/
  listed : Memory.below s.enc.bufLen s.buffer = true
  /-- R42(a). -/
  index : s.writeIndex ≤ s.enc.bufLen
  /-- R42(b). -/
  cursor : s.bitCursor ≠ 0 → s.job.format = .binary ∧ (s.phase = .encoding ∨ s.phase = .failed)
  /-- R42(f), above the write position. -/
  unwritten : ∀ a, s.writeIndex < a → s.byteAt a = 0
  /-- R42(f), at the write position. -/
  current : s.byteAt s.writeIndex &&& (0xFF#8 >>> s.bitCursor.toNat) = 0
  /-- R62: the storage width is that of the resolved transparency too. -/
  storage : s.enc.storageWidth = storageWidth s.job.format s.enc.transp s.widthNat
  /-- R26. -/
  totalRows : s.enc.totalRows = s.heightNat * s.framesNat
  /-- R26, R61. -/
  length : s.enc.bufLen = s.enc.storageWidth * s.enc.totalRows
  /-- R26. -/
  order : s.enc.bigEndian = bigEndianOf s.job.boSet s.job.bo
  /-- R27: only a Grayscale job's transparency is ever overridden. -/
  resolved : s.enc.transp = s.job.transp ∨ (s.job.format = .grayscale ∧ s.enc.transp = .alphaChannel)
  /-- R123. -/
  allowed : transpAllowed s.job.format s.job.transp = true
  /-- R22, R26: a configured job has pixels, rows and frames. -/
  configured : s.phase ≠ .idle → s.phase ≠ .failed → 0 < s.widthNat ∧ 0 < s.heightNat ∧ 0 < s.framesNat
  /-- IDLE is the reset state (R130, R280). -/
  idle : s.phase = .idle → s = s.resetRegisters
  /-- R42(d). -/
  ready : s.phase = .ready → s.frame < s.framesNat ∧ s.row = 0 ∧ s.col = 0 ∧ s.writeIndex = s.rowBase s.frame 0
  /-- R42(c). -/
  encoding : s.phase = .encoding → s.frame < s.framesNat ∧ s.row < s.heightNat ∧
    s.writeIndex = s.rowBase s.frame s.row + rowBytes s.job.format s.job.transp s.col ∧
    (s.job.format = .binary → s.bitCursor.toNat = s.col % 8)
  /-- R42(e). -/
  done : s.phase = .done → s.frame = s.framesNat ∧ s.row = 0 ∧ s.col = 0 ∧ s.writeIndex = s.enc.bufLen
  /-- R31: the counters stop at their bounds. -/
  position : s.frame ≤ s.framesNat ∧ s.row ≤ s.heightNat ∧ s.col ≤ s.widthNat
  /-- R33: `J.width` cells each. -/
  cells : s.errCur.length = s.widthNat ∧ s.errNxt.length = s.widthNat
  /-- R33: for every other job they stay 0. -/
  quiet : ¬(s.job.format = .binary ∧ s.job.dither = .floydSteinberg) →
    (∀ c ∈ s.errCur, c = 0) ∧ (∀ c ∈ s.errNxt, c = 0)
  /-- R142, R144: an alpha-only frame is Binary, or Grayscale resolved to AlphaChannel. -/
  alphaOnly : s.alphaOnly = true →
    s.job.format = .binary ∨ (s.job.format = .grayscale ∧ s.enc.transp = .alphaChannel)
  /-- R34, R256: a code is recorded exactly in FAILED. -/
  error : s.errCode ≠ .none ↔ s.phase = .failed
  /-- R32: 33 bits. -/
  scanned : s.scanCount ≤ 2 ^ 33 - 1
  /-- U2: `T_MONO` is 1 to 255. -/
  threshold : s.params.tMono ≠ 0

/-- How large the dither cells can be with the default step and threshold (R33), in units of the largest error 127:
a cell of the current row not yet reached holds at most 3 + 5 + 1 shares, one reached at most 7 more; a cell of the
next row holds the shares of the pixels already encoded. -/
def nextRowShares (col j : Nat) : Int := if col < j then 0 else if col = j then 1 else if col = j + 1 then 6 else 9

def DitherBounded (s : State) : Prop :=
  s.params.fs = .standard → s.params.tMono = 128 → ∀ j,
    |s.errCur.getD j 0| ≤ 16 * 127 ∧ |s.errNxt.getD j 0| ≤ 16 * 127 ∧
    (s.phase = .encoding →
      (s.col < j → |s.errCur.getD j 0| ≤ 9 * 127) ∧ |s.errNxt.getD j 0| ≤ nextRowShares s.col j * 127)

end Sys2Proof.Machine
end

