-- ==== Sys2Proof/Certificates/Slice0/Obligations.lean ====
section
/-! DEFINITION. The statements for the provers. Those about one command say its result, its frame (the whole next
state is given: a field not named is unchanged) and that it completes. Hypothesis `Inv s` (Safety.lean) rules out
states that no run reaches; that every step keeps it is `Obligations.StepKeepsInvariant`. -/

open Sys2Proof Sys2Proof.Machine

namespace Sys2Proof.Machine

/-! ## Forms shared by several statements -/

/-- A pixel command may encode: a frame fed by `src` is open and the row is not full (R145, R171). -/
def PixelDue (src : SrcMode) (s : State) : Prop :=
  s.phase = .encoding ∧ s.srcMode = src ∧ s.col ≠ s.job.width.toNat

/-- `t` is `s` after the bytes `vs` were stored from `writeIndex` on and the pixel counted; every other byte and every
other register is as it was. -/
def StoresBytes (s t : State) (vs : List Byte) : Prop :=
  t = { s with buffer := t.buffer, writeIndex := s.writeIndex + vs.length, col := s.col + 1 } ∧
  (∀ k v, vs[k]? = some v → t.byteAt (s.writeIndex + k) = v) ∧
  ∀ a, (a < s.writeIndex ∨ s.writeIndex + vs.length ≤ a) → t.byteAt a = s.byteAt a

/-- `t` is `s` after the canonical bit was packed (R172): inverted if the job says so, ORed into bit `7 - bitCursor`
of the current byte, the cursor advanced and the pixel counted; every other byte and register is as it was. -/
def PacksBit (s t : State) (bit : Bool) : Prop :=
  t = { s with
    buffer := t.buffer
    writeIndex := if s.bitCursor.toNat = 7 then s.writeIndex + 1 else s.writeIndex
    bitCursor := BitVec.ofNat 3 ((s.bitCursor.toNat + 1) % 8)
    col := s.col + 1 } ∧
  (∀ k, k < 8 → (t.byteAt s.writeIndex).getLsbD k =
    ((s.byteAt s.writeIndex).getLsbD k || ((bit != s.job.invertAlpha) && decide (k + s.bitCursor.toNat = 7)))) ∧
  ∀ a, a ≠ s.writeIndex → t.byteAt a = s.byteAt a

/-- The byte of a Grayscale pixel, case by case (R184, R186). -/
def GrayByteIs (t : Transparency) (invert : Bool) (luma alpha v : Byte) : Prop :=
  (t = .solid → v.toNat = if invert = true then 255 - luma.toNat else luma.toNat) ∧
  (t = .chromaKey → alpha ≠ 0xFF → v = if invert = true then 0xFE else 0x01) ∧
  (t = .chromaKey → alpha = 0xFF → luma = 1 → v = if invert = true then 0xFF else 0x00) ∧
  (t = .chromaKey → alpha = 0xFF → luma ≠ 1 → v.toNat = if invert = true then 255 - luma.toNat else luma.toNat) ∧
  (t = .alphaChannel → alpha = 0xFF → v.toNat = if invert = true then 255 - luma.toNat else luma.toNat) ∧
  (t = .alphaChannel → alpha ≠ 0xFF → v = alpha)

/-- The RGB565 colour word as a number (R190): quantised by truncation, the key colour remapped to black, any other
transparent colour to the key 32. -/
def colourNumber565 (t : Transparency) (p : Pixel) : Nat :=
  if t = .chromaKey ∧ p.r.toNat / 8 = 0 ∧ p.g.toNat / 4 = 1 ∧ p.b.toNat / 8 = 0 then 0
  else if t = .chromaKey ∧ p.a.toNat < 128 then 32
  else p.r.toNat / 8 * 2048 + p.g.toNat / 4 * 32 + p.b.toNat / 8

/-- The colour bytes of an RGB565 pixel in the job's order (R65, R190). -/
def ColourBytes565 (bigEndian : Bool) (t : Transparency) (p : Pixel) (v w : Byte) : Prop :=
  (bigEndian = true → v.toNat = colourNumber565 t p / 256 ∧ w.toNat = colourNumber565 t p % 256) ∧
  (bigEndian = false → v.toNat = colourNumber565 t p % 256 ∧ w.toNat = colourNumber565 t p / 256)

/-- The colour bytes of an RGB pixel (R200). -/
def colourBytesRGB (t : Transparency) (p : Pixel) : List Byte :=
  if t = .chromaKey ∧ p.r = 0 ∧ p.g = 1 ∧ p.b = 0 then [0, 0, 0]
  else if t = .chromaKey ∧ p.a.toNat < 128 then [0, 1, 0]
  else [p.r, p.g, p.b]

/-- The byte appended under AlphaChannel: the alpha, or 255 minus it. -/
def AlphaByteIs (invert : Bool) (a v : Byte) : Prop := v.toNat = if invert = true then 255 - a.toNat else a.toNat

/-- `i` is the command that gives the pixel `p` in a state's source mode: PIX with it in a raw frame, the ENC row
`row` with its payload in a canonical one (R98, R100). -/
def GivesPixel (row : BitVec 32 → Instr) (s : State) (i : Instr) (p : Pixel) : Prop :=
  (s.srcMode = .raw ∧ i = .pix p) ∨
  (s.srcMode = .canon ∧ ∃ q : BitVec 32, i = row q ∧
    p = { r := q.extractLsb' 24 8, g := q.extractLsb' 16 8, b := q.extractLsb' 8 8, a := q.extractLsb' 0 8 })

/-- Bytes a row takes (R62). -/
def rowWidth (f : Format) (t : Transparency) (w : Nat) : Nat :=
  match f, t with
  | .binary, _ => (w + 7) / 8
  | .grayscale, _ => w
  | .rgb565, .alphaChannel => 3 * w
  | .rgb565, _ => 2 * w
  | .rgb, .alphaChannel => 4 * w
  | .rgb, _ => 3 * w

/-- Frames a job emits (R231). -/
def framesEmitted (d : CfgFields) : BitVec 16 :=
  if d.animated = true ∧ 2 ≤ d.srcFrames.toNat then d.srcFrames else 1

/-- Checks 1 to 6 of R122 that a job fails, each as the table words it. -/
def FailsCheck (bufMax : Option Nat) (d : CfgFields) : ErrCode → Prop
  | .cfgBadEnum => d.transp = 3
  | .cfgBadDim => d.width = 0 ∨ d.height = 0
  | .cfgTransp => d.format = .binary ∧ d.transp = 2
  | .cfgInvert => d.invertAlpha = true ∧ d.transp ≠ 2 ∧ d.format ≠ .binary ∧ d.format ≠ .grayscale
  | .cfgByteOrder => d.boSet = true ∧ d.format ≠ .rgb565
  | .cfgCapacity => ∃ m t, bufMax = some m ∧ Transparency.ofCode d.transp = some t ∧
      m < rowWidth d.format t d.width.toNat * d.height.toNat * (framesEmitted d).toNat
  | _ => False

/-- The order of the checks (R122). -/
def checkOrder : List ErrCode := [.cfgBadEnum, .cfgBadDim, .cfgTransp, .cfgInvert, .cfgByteOrder, .cfgCapacity]

/-- `c` is the first check of R122 that the job fails. -/
def FirstFailure (bufMax : Option Nat) (d : CfgFields) (c : ErrCode) : Prop :=
  ∃ before after, checkOrder = before ++ c :: after ∧ FailsCheck bufMax d c ∧ ∀ b ∈ before, ¬FailsCheck bufMax d b

/-- The scan pass of this frame shows an alpha-only frame (R143): no pixel has colour, and one is not fully opaque. -/
def ShowsAlphaOnly : JobFrame → Prop
  | .raw scan _ => (∀ p ∈ scan, p.r = 0 ∧ p.g = 0 ∧ p.b = 0) ∧ ∃ p ∈ scan, p.a ≠ 0xFF
  | .canon _ _ => False

/-- A word the decoder must reject (R102, R103). -/
def IllegalByTheRules (w : CmdWord) : Prop :=
  let op := (w.extractLsb' 60 4).toNat
  op = 0 ∨ (8 ≤ op ∧ op ≤ 14) ∨
  (op = 1 ∧ w.extractLsb' 48 2 ≠ 0) ∨
  ((op = 2 ∨ op = 4 ∨ op = 5) ∧ w.extractLsb' 32 28 ≠ 0) ∨
  (op = 3 ∧ w.extractLsb' 1 59 ≠ 0) ∨
  (op = 7 ∧ (w.extractLsb' 2 58 ≠ 0 ∨ w.extractLsb' 0 2 = 3)) ∨
  ((op = 6 ∨ op = 15) ∧ w.extractLsb' 0 60 ≠ 0)

/-- `t` is `s` with an error entered: FAILED, with this code. -/
def Raised (t : State) (c : ErrCode) : Prop := t.phase = .failed ∧ t.errCode = c

/-- One row of R233's table: the next phase, or the error, of command `i` in each phase. -/
def PhaseRow (s : State) (i : Instr) (t : State) : Prop :=
  match i with
  | .cfg d =>
    match s.phase with
    | .ready => Raised t .protoOrder
    | .encoding => Raised t .protoOrder
    | _ => t.phase = .ready ∨ ∃ c, FirstFailure s.params.bufMax d c ∧ Raised t c
  | .scan _ =>
    match s.phase with
    | .ready => t.phase = .ready
    | .failed => t = s
    | _ => Raised t .protoOrder
  | .frm _ =>
    match s.phase with
    | .ready => t.phase = .encoding ∨ Raised t .protoScan
    | .failed => t = s
    | _ => Raised t .protoOrder
  | .pix _ =>
    match s.phase with
    | .encoding =>
      (s.srcMode = .canon → Raised t .protoOrder) ∧
      (s.srcMode = .raw → s.col = s.job.width.toNat → Raised t .protoRow) ∧
      (s.srcMode = .raw → s.col ≠ s.job.width.toNat → t.phase = .encoding)
    | .failed => t = s
    | _ => Raised t .protoOrder
  | .encB q => encCell (q.extractLsb' 1 31 = 0)
  | .encG q => encCell (q.extractLsb' 16 16 = 0)
  | .enc565 _ => encCell True
  | .encRGB _ => encCell True
  | .eor =>
    match s.phase with
    | .encoding =>
      (s.col ≠ s.job.width.toNat → Raised t .protoRow) ∧
      (s.col = s.job.width.toNat → s.row + 1 ≠ s.job.height.toNat → t.phase = .encoding) ∧
      (s.col = s.job.width.toNat → s.row + 1 = s.job.height.toNat → s.frame + 1 ≠ s.enc.frameCount.toNat →
        t.phase = .ready) ∧
      (s.col = s.job.width.toNat → s.row + 1 = s.job.height.toNat → s.frame + 1 = s.enc.frameCount.toNat →
        t.phase = .done)
    | .failed => t = s
    | _ => Raised t .protoOrder
  | .abt cause =>
    match s.phase with
    | .done => Raised t .protoOrder
    | .failed => t = s
    | _ => t.phase = .failed ∧ t.errCode.code.toNat = 8 + cause.toNat
  | .rst => t.phase = .idle
where
  /-- The ENC column: `legal` says that the payload's must-be-zero bits are 0. -/
  encCell (legal : Prop) : Prop :=
    match s.phase with
    | .encoding =>
      (s.srcMode = .raw → Raised t .protoOrder) ∧
      (s.srcMode = .canon → s.col = s.job.width.toNat → Raised t .protoRow) ∧
      (s.srcMode = .canon → s.col ≠ s.job.width.toNat → ¬legal → Raised t .illegalCmd) ∧
      (s.srcMode = .canon → s.col ≠ s.job.width.toNat → legal → t.phase = .encoding)
    | .failed => t = s
    | _ => Raised t .protoOrder

end Sys2Proof.Machine

/-! ## Encoding -/

/-- Decoding an encoded command gives it back, in the job format that selects its row, every operand at every value
(30_encoding.md, R90 to R93, R97, R104). -/
def Obligations.DecodeEncodeAgree : Prop :=
  ∀ (f : Format) (i : Instr), i.wellFormed = true → i.fits f = true → decode f (encode i) = .ok i

/-- Each legal word has one meaning: encoding what was decoded gives the word back (30_encoding.md, R104). -/
def Obligations.EncodeDecodeAgree : Prop :=
  ∀ (f : Format) (w : CmdWord) (i : Instr), decode f w = .ok i →
    encode i = w ∧ i.wellFormed = true ∧ i.fits f = true

/-- The match and mask table of 30_encoding.md section 5 (R105, which the spec derives from R91 to R93, R102). -/
def Obligations.CommandsAreTheirMasksAndMatches : Prop :=
  ∀ (f : Format) (w : CmdWord),
    ((∃ d, decode f w = .ok (.cfg d)) ↔ w &&& 0xF003000000000000 = 0x1000000000000000) ∧
    ((∃ p, decode f w = .ok (.scan p)) ↔ w &&& 0xFFFFFFFF00000000 = 0x2000000000000000) ∧
    ((∃ m, decode f w = .ok (.frm m)) ↔ w &&& 0xFFFFFFFFFFFFFFFE = 0x3000000000000000) ∧
    ((∃ p, decode f w = .ok (.pix p)) ↔ w &&& 0xFFFFFFFF00000000 = 0x4000000000000000) ∧
    ((∃ q, decode f w = .ok (encRow f q)) ↔ w &&& 0xFFFFFFFF00000000 = 0x5000000000000000) ∧
    (decode f w = .ok .eor ↔ w &&& 0xFFFFFFFFFFFFFFFF = 0x6000000000000000) ∧
    ((∃ c, decode f w = .ok (.abt c)) ↔ w &&& 0xFFFFFFFFFFFFFFFC = 0x7000000000000000 ∧ w &&& 3 ≠ 3) ∧
    (decode f w = .ok .rst ↔ w &&& 0xFFFFFFFFFFFFFFFF = 0xF000000000000000)

/-- R102, R103 (the spec's decision D14): reserved opcodes, nonzero reserved bits and ABT cause 3 raise ILLEGAL_CMD,
code 15, and so does no other word; CFG with `transp` 3 is legal and raises CFG_BAD_ENUM (R103, R122, R126). The model's
own choices: a step takes the word off the list `inputs` (log 1), and CFG_BAD_ENUM is recorded in FAILED too, over the
earlier code (log 18, marked unsafe). -/
def Obligations.IllegalWordsRaiseIllegalCommand : Prop :=
  ∀ (s : State) (w : CmdWord) (rest : List HostInput), s.inputs = .command w :: rest →
    (∀ f, IllegalByTheRules w ↔ ∃ e, decode f w = .error e) ∧
    (IllegalByTheRules w → s.phase ≠ .failed →
      step s = .next { s with inputs := rest, errCode := .illegalCmd, phase := .failed }) ∧
    ErrCode.illegalCmd.code = 15 ∧
    (w &&& 0xF303000000000000 = 0x1300000000000000 → s.phase ≠ .ready → s.phase ≠ .encoding →
      step s = .next { s with inputs := rest, warnOversize := false, warnAlphaOnly := false, warnFrames := false
                              errCode := .cfgBadEnum, phase := .failed })

/-- Words of 95_test_vectors.md 2.10 decode as that table says (a sanity statement). -/
def Obligations.WordsOfTheVectorTableDecode : Prop :=
  decode .binary 0x1A38000200010002 = .ok (.cfg
    { format := .rgb565, transp := 2, dither := .noDither, invertAlpha := false, boSet := true, bo := .littleEndian
      animated := true, unresized := false, srcFrames := 2, height := 1, width := 2 }) ∧
  decode .binary 0x20000000A86090FF = .ok (.scan { r := 0xA8, g := 0x60, b := 0x90, a := 0xFF }) ∧
  decode .rgb 0x3000000000000001 = .ok (.frm .canon) ∧
  decode .grayscale 0x50000000000050FF = .ok (.encG 0x50FF) ∧
  decode .rgb565 0x7000000000000001 = .ok (.abt 1) ∧
  decode .binary 0xF000000000000001 = .error .reservedBits ∧
  decode .binary 0x9000000000000000 = .error .reservedOpcode

/-- R96, R93: the code of every value of the enumerations; and where R92, R98 and R93 put the fields of PIX, the ENC
rows and RST (CFG's word stands in `AcceptedCfgConfiguresEveryRegister`; SCAN's, FRM's, EOR's and ABT's in the
statements about them). -/
def Obligations.CodesAndPayloadWordsAreTheTables : Prop :=
  (Format.binary.code = 0 ∧ Format.grayscale.code = 1 ∧ Format.rgb565.code = 2 ∧ Format.rgb.code = 3) ∧
  (Transparency.solid.code = 0 ∧ Transparency.chromaKey.code = 1 ∧ Transparency.alphaChannel.code = 2) ∧
  (Dither.noDither.code = false ∧ Dither.floydSteinberg.code = true) ∧
  (ByteOrder.bigEndian.code = false ∧ ByteOrder.littleEndian.code = true) ∧
  (SrcMode.raw.code = false ∧ SrcMode.canon.code = true) ∧
  (∀ p : Pixel, encode (.pix p) = 4#4 ++ (0#28 ++ (p.r ++ p.g ++ p.b ++ p.a))) ∧
  (∀ (f : Format) (q : BitVec 32), encode (encRow f q) = 5#4 ++ (0#28 ++ q)) ∧
  encode .rst = 15#4 ++ 0#60

/-! ## The step, reset and the outputs -/

/-- A step takes the next input: a legal word runs its command on the state without that input, a hardware reset puts
the reset registers in, and with nothing sent nothing happens (00_scope.md R3, 10_state.md R41, 70_reset_and_hazards.md
R280). The model's own choices: the list `inputs` (log 1), the reset input as one of its entries (log 9), and that a
reset keeps the OPEN parameters and the inputs still waiting (log 16, marked unsafe; log 2). -/
def Obligations.StepRunsTheDecodedCommand : Prop :=
  ∀ s : State,
    (s.inputs = [] → step s = .next s) ∧
    (∀ rest, s.inputs = .hardwareReset :: rest →
      step s = .next { State.reset with params := s.params, inputs := rest }) ∧
    (∀ w rest i, s.inputs = .command w :: rest → decode s.job.format w = .ok i →
      step s = exec i { s with inputs := rest })

/-- R41 (the spec's decision D15): the registers after hardware reset and after RST, which every phase performs. That
the reset input comes as an entry of `inputs` is the model's own (log 1, log 9). -/
def Obligations.ResetPutsTheTableIn : Prop :=
  ∀ s : State, (∃ t, exec .rst s = .next t) ∧ ∀ t : State,
    (t = State.reset ∨ exec .rst s = .next t ∨ (s.inputs.head? = some .hardwareReset ∧ step s = .next t)) →
    t.job.width = 0 ∧ t.job.height = 0 ∧ t.job.srcFrames = 0 ∧ t.job.format.code = 0 ∧ t.job.transp.code = 0 ∧
    t.job.dither.code = false ∧ t.job.invertAlpha = false ∧ t.job.boSet = false ∧ t.job.bo.code = false ∧
    t.job.animated = false ∧ t.job.unresized = false ∧ t.enc.frameCount = 0 ∧ t.enc.storageWidth = 0 ∧
    t.enc.totalRows = 0 ∧ t.enc.bufLen = 0 ∧ t.enc.bigEndian = true ∧ t.enc.transp = .solid ∧
    (∀ a, t.byteAt a = 0) ∧ t.writeIndex = 0 ∧ t.bitCursor = 0 ∧ t.phase = .idle ∧ t.frame = 0 ∧ t.row = 0 ∧
    t.col = 0 ∧ t.scanColorMax = 0 ∧ t.scanAlphaMin = 0xFF ∧ t.scanCount = 0 ∧ t.alphaOnly = false ∧
    t.srcMode = .raw ∧ t.errCur = [] ∧ t.errNxt = [] ∧ t.errCode.code = 0 ∧ t.warnOversize = false ∧
    t.warnAlphaOnly = false ∧ t.warnFrames = false

/-- R35 (the spec's decision D1): the outputs as functions of the state, `out_errCode` with the numbers of R251's table
(decision D13); the metadata and the buffer have no value outside DONE. -/
def Obligations.OutputsHaveValuesOnlyInDone : Prop :=
  ∀ s : State,
    (s.outValid = true ↔ s.phase = .done) ∧ (s.outError = true ↔ s.phase = .failed) ∧
    s.outErrCode = s.errCode.code ∧
    (ErrCode.none.code = 0 ∧ ErrCode.cfgTransp.code = 1 ∧ ErrCode.cfgInvert.code = 2 ∧ ErrCode.cfgByteOrder.code = 3 ∧
      ErrCode.cfgBadEnum.code = 4 ∧ ErrCode.cfgBadDim.code = 5 ∧ ErrCode.cfgCapacity.code = 6 ∧
      ErrCode.srcNotFound.code = 8 ∧ ErrCode.srcUnreadable.code = 9 ∧ ErrCode.srcUnparsable.code = 10 ∧
      ErrCode.protoOrder.code = 12 ∧ ErrCode.protoRow.code = 13 ∧ ErrCode.protoScan.code = 14 ∧
      ErrCode.illegalCmd.code = 15) ∧
    s.outWarn = (s.warnOversize, s.warnAlphaOnly, s.warnFrames) ∧
    (∀ v, s.metaWidth = some v ↔ s.phase = .done ∧ v = s.job.width) ∧
    (∀ v, s.metaHeight = some v ↔ s.phase = .done ∧ v = s.job.height) ∧
    (∀ v, s.metaFormat = some v ↔ s.phase = .done ∧ v = s.job.format.code) ∧
    (∀ v, s.metaTransparency = some v ↔ s.phase = .done ∧ v = s.enc.transp.code) ∧
    (∀ v, s.metaFrameCount = some v ↔ s.phase = .done ∧ v = s.enc.frameCount) ∧
    (∀ i v, s.outByte i = some v ↔ s.phase = .done ∧ i < s.enc.bufLen ∧ v = s.byteAt i)

/-! ## CFG, ABT -/

/-- R231, R232: an accepted CFG computes the frame count and the two warnings as those rules say; and, from R26, R62
and R121, every other register it writes. The host's inputs and the OPEN parameters stay. CFG's word too, field by
field (R91). -/
def Obligations.AcceptedCfgConfiguresEveryRegister : Prop :=
  (∀ d : CfgFields, encode (.cfg d) = 1#4 ++ (d.format.code ++ d.transp ++ BitVec.ofBool d.dither.code ++
    BitVec.ofBool d.invertAlpha ++ BitVec.ofBool d.boSet ++ BitVec.ofBool d.bo.code ++ BitVec.ofBool d.animated ++
    BitVec.ofBool d.unresized ++ 0#2 ++ d.srcFrames ++ d.height ++ d.width)) ∧
  ∀ (d : CfgFields) (s : State) (t : Transparency), s.phase ≠ .ready → s.phase ≠ .encoding →
    d.transp = t.code → (∀ c ∈ checkOrder, ¬FailsCheck s.params.bufMax d c) →
    exec (.cfg d) s = .next
      { job := { width := d.width, height := d.height, srcFrames := d.srcFrames, format := d.format, transp := t
                 dither := d.dither, invertAlpha := d.invertAlpha, boSet := d.boSet, bo := d.bo
                 animated := d.animated, unresized := d.unresized }
        enc := { frameCount := framesEmitted d
                 storageWidth := rowWidth d.format t d.width.toNat
                 totalRows := d.height.toNat * (framesEmitted d).toNat
                 bufLen := rowWidth d.format t d.width.toNat * (d.height.toNat * (framesEmitted d).toNat)
                 bigEndian := decide (d.boSet = false ∨ d.bo = .bigEndian)
                 transp := t }
        buffer := [], writeIndex := 0, bitCursor := 0, phase := .ready, frame := 0, row := 0, col := 0
        scanColorMax := 0, scanAlphaMin := 0xFF, scanCount := 0, alphaOnly := false, srcMode := .raw
        errCur := List.replicate d.width.toNat 0, errNxt := List.replicate d.width.toNat 0, errCode := .none
        warnOversize := decide (d.unresized = true ∧ (500 < d.width.toNat ∨ 500 < d.height.toNat))
        warnAlphaOnly := false
        warnFrames := decide (d.animated = true ∧ d.srcFrames.toNat ≤ 1)
        params := s.params, inputs := s.inputs }

/-- R122, R126 (the order of the checks is the spec's decision D19): a rejected CFG clears the warnings, records the
first check that fails and leaves every other register; one refused while a job is in progress clears nothing. That it
does so in FAILED too, over the earlier code, follows R126 and R260 against the wording of R34 and R259: the model's
choice (log 18). -/
def Obligations.RejectedCfgRecordsTheFirstFailingCheck : Prop :=
  ∀ (d : CfgFields) (s : State),
    (s.phase = .ready ∨ s.phase = .encoding →
      exec (.cfg d) s = .next { s with errCode := .protoOrder, phase := .failed }) ∧
    ∀ c, s.phase ≠ .ready → s.phase ≠ .encoding → FirstFailure s.params.bufMax d c →
      exec (.cfg d) s = .next { s with warnOversize := false, warnAlphaOnly := false, warnFrames := false
                                       errCode := c, phase := .failed }

/-- 47_frame_orchestrator.md section on jobs in sequence (R243), 20_memory.md (R73): an accepted CFG leaves nothing of
the earlier job, so two blocks with the same parameters and the same pending inputs are equal after it. -/
def Obligations.AcceptedCfgForgetsTheEarlierJob : Prop :=
  ∀ (d : CfgFields) (s s' t : State), s.params = s'.params → s.inputs = s'.inputs →
    s'.phase ≠ .ready → s'.phase ≠ .encoding → exec (.cfg d) s = .next t → t.phase = .ready →
    exec (.cfg d) s' = .next t

/-- R131 (the spec's decision D13): ABT records source error 8 + cause in IDLE, READY and ENCODING, PROTO_ORDER in DONE,
and is ignored in FAILED; nothing else changes. Its word too. -/
def Obligations.AbtRecordsTheSourceFailure : Prop :=
  ∀ (cause : BitVec 2) (s : State), cause ≠ 3 → encode (.abt cause) = 7#4 ++ (0#58 ++ cause) ∧
    (s.phase ≠ .done → s.phase ≠ .failed → ∃ c : ErrCode, c.code.toNat = 8 + cause.toNat ∧
      exec (.abt cause) s = .next { s with errCode := c, phase := .failed }) ∧
    (s.phase = .done → exec (.abt cause) s = .next { s with errCode := .protoOrder, phase := .failed }) ∧
    (s.phase = .failed → exec (.abt cause) s = .next s)

/-! ## SCAN and FRM -/

/-- R141 (the spec's decision D21): SCAN accumulates the largest colour, the smallest alpha and the count, which
saturates; outside READY it raises PROTO_ORDER. Its word too. -/
def Obligations.ScanAccumulates : Prop :=
  ∀ (p : Pixel) (s : State), encode (.scan p) = 2#4 ++ (0#28 ++ (p.r ++ p.g ++ p.b ++ p.a)) ∧
    (s.phase = .ready → ∃ t, exec (.scan p) s = .next t ∧
      t = { s with scanColorMax := t.scanColorMax, scanAlphaMin := t.scanAlphaMin, scanCount := t.scanCount } ∧
      t.scanColorMax.toNat = max s.scanColorMax.toNat (max p.r.toNat (max p.g.toNat p.b.toNat)) ∧
      t.scanAlphaMin.toNat = min s.scanAlphaMin.toNat p.a.toNat ∧
      t.scanCount = min (s.scanCount + 1) (2 ^ 33 - 1)) ∧
    (s.phase ≠ .ready → s.phase ≠ .failed →
      exec (.scan p) s = .next { s with errCode := .protoOrder, phase := .failed })

/-- R142, R143 (the spec's decisions D6, D21): FRM in READY. A raw Binary or Grayscale frame must have been scanned
with exactly its pixels; it is alpha-only when no pixel has colour and one is not fully opaque; a Grayscale job is then
resolved to AlphaChannel, with the warning. Every other frame is not alpha-only and needs no scan. Its word too. -/
def Obligations.FrmOpensTheFrame : Prop :=
  ∀ (src : SrcMode) (s : State), encode (.frm src) = 3#4 ++ (0#59 ++ BitVec.ofBool src.code) ∧
    (s.phase ≠ .ready → s.phase ≠ .failed →
      exec (.frm src) s = .next { s with errCode := .protoOrder, phase := .failed }) ∧
    (s.phase = .ready →
      (src = .raw ∧ (s.job.format = .binary ∨ s.job.format = .grayscale) →
        (s.scanCount ≠ s.job.width.toNat * s.job.height.toNat →
          exec (.frm src) s = .next { s with errCode := .protoScan, phase := .failed }) ∧
        (s.scanCount = s.job.width.toNat * s.job.height.toNat → ∀ alphaOnly forced : Bool,
          (alphaOnly = true ↔ s.scanColorMax = 0 ∧ s.scanAlphaMin ≠ 0xFF) →
          (forced = true ↔ s.job.format = .grayscale ∧ alphaOnly = true ∧ s.enc.transp ≠ .alphaChannel) →
          exec (.frm src) s = .next
            { s with
              enc := { s.enc with transp := if forced = true then .alphaChannel else s.enc.transp }
              warnAlphaOnly := if forced = true then true else s.warnAlphaOnly
              alphaOnly := alphaOnly, srcMode := src
              errCur := List.replicate s.errCur.length 0, errNxt := List.replicate s.errNxt.length 0
              scanColorMax := 0, scanAlphaMin := 0xFF, scanCount := 0, row := 0, col := 0, phase := .encoding })) ∧
      (¬(src = .raw ∧ (s.job.format = .binary ∨ s.job.format = .grayscale)) →
        exec (.frm src) s = .next
          { s with
            alphaOnly := false, srcMode := src
            errCur := List.replicate s.errCur.length 0, errNxt := List.replicate s.errNxt.length 0
            scanColorMax := 0, scanAlphaMin := 0xFF, scanCount := 0, row := 0, col := 0, phase := .encoding }))

/-! ## Pixels -/

/-- R172: ENC.B packs its bit. -/
def Obligations.EncBinaryPacksItsBit : Prop :=
  ∀ (q : BitVec 32) (s : State), Inv s → PixelDue .canon s → s.job.format = .binary → q.extractLsb' 1 31 = 0 →
    ∃ t, exec (.encB q) s = .next t ∧ PacksBit s t (q.getLsbD 0)

/-- R147, R150 (decisions D7, D9): PIX of an undithered Binary job compares the alpha of an alpha-only frame, or the
block's luma, with the block's threshold. -/
def Obligations.PixBinaryThresholds : Prop :=
  ∀ (p : Pixel) (s : State), Inv s → PixelDue .raw s → s.job.format = .binary → s.job.dither = .noDither →
    ∃ t, exec (.pix p) s = .next t ∧
      PacksBit s t (decide (s.params.tMono.toNat ≤ (if s.alphaOnly then p.a else s.params.luma.apply p).toNat))

/-- R146: the default LUMA in exact integers; every grey has itself as luma; a block with the default LUMA weighs a
pixel's own r, g and b by it, and a block with another takes that function of r, g and b (U1). -/
def Obligations.StandardLumaOfGreysAndWeights : Prop :=
  (∀ r g b : Byte, (lumaStandard r g b).toNat =
    (19595 * r.toNat + 38470 * g.toNat + 7471 * b.toNat + 32768) / 65536) ∧
  (∀ v : Byte, lumaStandard v v v = v) ∧
  (∀ p : Pixel, (LumaParam.standard.apply p).toNat =
    (19595 * p.r.toNat + 38470 * p.g.toNat + 7471 * p.b.toNat + 32768) / 65536) ∧
  ∀ (n : Nat) (p : Pixel), (LumaParam.other n).apply p = Config.openLuma n p.r p.g p.b

/-- R151, R152 (the default FS, decision D10): PIX of a dithered Binary job adds the carried error in sixteenths,
rounded down, clamps, takes the bit, and spreads the error 7, 3, 5, 1 to the right, below left, below and below right;
a share outside the row is dropped. -/
def Obligations.PixBinarySpreadsTheError : Prop :=
  ∀ (p : Pixel) (s : State) (v e : Int) (bit : Bool), Inv s → PixelDue .raw s → s.job.format = .binary →
    s.job.dither = .floydSteinberg → s.params.fs = .standard →
    v = max 0 (min 255 (((if s.alphaOnly then p.a else s.params.luma.apply p).toNat : Int) +
      Int.floor ((s.errCur.getD s.col 0 : ℚ) / 16))) →
    (bit = true ↔ (s.params.tMono.toNat : Int) ≤ v) → e = v - (if bit = true then 255 else 0) →
    ∃ t, exec (.pix p) s = .next t ∧ PacksBit { s with errCur := t.errCur, errNxt := t.errNxt } t bit ∧
      t.errCur.length = s.job.width.toNat ∧ t.errNxt.length = s.job.width.toNat ∧
      ∀ j, j < s.job.width.toNat →
        t.errCur.getD j 0 = s.errCur.getD j 0 + (if j = s.col + 1 then 7 * e else 0) ∧
        t.errNxt.getD j 0 = s.errNxt.getD j 0 + (if j + 1 = s.col then 3 * e else 0) +
          (if j = s.col then 5 * e else 0) + (if j = s.col + 1 then e else 0)

/-- 93_implementation_defined.md U3: whichever Floyd-Steinberg step the block has, a dithered PIX completes, packs the
bit that step answers and keeps the cells it answers, `J.width` of them (for a step other than the default, fitted to
that length: the model's choice, log 2). -/
def Obligations.PixBinaryUsesTheBlocksDitherStep : Prop :=
  ∀ (p : Pixel) (s : State), Inv s → PixelDue .raw s → s.job.format = .binary →
    s.job.dither = .floydSteinberg →
    ∃ t bit, exec (.pix p) s = .next t ∧
      (bit, t.errCur, t.errNxt) = s.params.fs.apply s.params.tMono s.job.width.toNat
        (if s.alphaOnly then p.a else s.params.luma.apply p) s.col s.errCur s.errNxt ∧
      t.errCur.length = s.job.width.toNat ∧ t.errNxt.length = s.job.width.toNat ∧
      PacksBit { s with errCur := t.errCur, errNxt := t.errNxt } t bit

/-- R184: ENC.G stores the one byte of its luma and alpha under the resolved transparency. -/
def Obligations.EncGrayStoresItsByte : Prop :=
  ∀ (q : BitVec 32) (s : State), Inv s → PixelDue .canon s → s.job.format = .grayscale → q.extractLsb' 16 16 = 0 →
    ∃ t v, exec (.encG q) s = .next t ∧ StoresBytes s t [v] ∧
      GrayByteIs s.enc.transp s.job.invertAlpha (q.extractLsb' 8 8) (q.extractLsb' 0 8) v

/-- R148 (decision D7): PIX of a Grayscale job stores the byte of (luma, alpha), or of (alpha, 0xFF) in an alpha-only
frame. -/
def Obligations.PixGrayStoresItsByte : Prop :=
  ∀ (p : Pixel) (s : State), Inv s → PixelDue .raw s → s.job.format = .grayscale →
    ∃ t v, exec (.pix p) s = .next t ∧ StoresBytes s t [v] ∧
      (s.alphaOnly = true → GrayByteIs s.enc.transp s.job.invertAlpha p.a 0xFF v) ∧
      (s.alphaOnly = false → GrayByteIs s.enc.transp s.job.invertAlpha (s.params.luma.apply p) p.a v)

/-- R190: PIX and ENC.565 of an RGB565 job store the colour word's two bytes, and under AlphaChannel the alpha byte. -/
def Obligations.Rgb565PixelsStoreTheirBytes : Prop :=
  ∀ (i : Instr) (p : Pixel) (s : State), Inv s → PixelDue s.srcMode s → s.job.format = .rgb565 →
    GivesPixel .enc565 s i p → ∃ t v w, exec i s = .next t ∧
      ColourBytes565 s.enc.bigEndian s.enc.transp p v w ∧
      (s.enc.transp ≠ .alphaChannel → StoresBytes s t [v, w]) ∧
      (s.enc.transp = .alphaChannel → ∃ x, AlphaByteIs s.job.invertAlpha p.a x ∧ StoresBytes s t [v, w, x])

/-- R200: PIX and ENC.RGB of an RGB job store r, g, b, and under AlphaChannel the alpha byte. -/
def Obligations.RgbPixelsStoreTheirBytes : Prop :=
  ∀ (i : Instr) (p : Pixel) (s : State), Inv s → PixelDue s.srcMode s → s.job.format = .rgb →
    GivesPixel .encRGB s i p → ∃ t, exec i s = .next t ∧
      (s.enc.transp ≠ .alphaChannel → StoresBytes s t (colourBytesRGB s.enc.transp p)) ∧
      (s.enc.transp = .alphaChannel → ∃ x, AlphaByteIs s.job.invertAlpha p.a x ∧
        StoresBytes s t (colourBytesRGB s.enc.transp p ++ [x]))

/-- 60_exceptions.md section 2 and 42_binary_encoder.md section 1 (R254, R171): a pixel command out of phase or in a
frame fed the other way raises PROTO_ORDER, then one into a full row PROTO_ROW, then an ENC payload with bits outside
the format ILLEGAL_CMD; nothing else changes. -/
def Obligations.PixelCommandsRaiseInOrder : Prop :=
  ∀ (i : Instr) (src : SrcMode) (s : State), s.phase ≠ .failed →
    ((∃ p, i = .pix p) ∧ src = .raw ∨ (∃ q, i = .encB q ∨ i = .encG q ∨ i = .enc565 q ∨ i = .encRGB q) ∧ src = .canon) →
    (s.phase ≠ .encoding ∨ s.srcMode ≠ src →
      exec i s = .next { s with errCode := .protoOrder, phase := .failed }) ∧
    (s.phase = .encoding → s.srcMode = src → s.col = s.job.width.toNat →
      exec i s = .next { s with errCode := .protoRow, phase := .failed }) ∧
    (PixelDue src s →
      (∃ q : BitVec 32, i = .encB q ∧ q.extractLsb' 1 31 ≠ 0 ∨ i = .encG q ∧ q.extractLsb' 16 16 ≠ 0) →
      exec i s = .next { s with errCode := .illegalCmd, phase := .failed })

/-- 46_transparency_policy_mux.md (R215): in a chroma-key job without inversion the reserved value is stored exactly for
the pixels that rule names. -/
def Obligations.KeyIsStoredOnlyForTransparentPixels : Prop :=
  ∀ (q : BitVec 32) (s : State), Inv s → PixelDue .canon s → s.enc.transp = .chromaKey → s.job.invertAlpha = false →
    (s.job.format = .grayscale → q.extractLsb' 16 16 = 0 → ∃ t, exec (.encG q) s = .next t ∧
      (t.byteAt s.writeIndex = 1 ↔ q.extractLsb' 0 8 ≠ 0xFF)) ∧
    (s.job.format = .rgb565 → ∃ t, exec (.enc565 q) s = .next t ∧
      ((if s.enc.bigEndian = true then t.byteAt s.writeIndex = 0 ∧ t.byteAt (s.writeIndex + 1) = 0x20
        else t.byteAt s.writeIndex = 0x20 ∧ t.byteAt (s.writeIndex + 1) = 0) ↔
        (q.extractLsb' 0 8).toNat < 128 ∧
        ¬(q.extractLsb' 27 5 = 0 ∧ q.extractLsb' 18 6 = 1 ∧ q.extractLsb' 11 5 = 0))) ∧
    (s.job.format = .rgb → ∃ t, exec (.encRGB q) s = .next t ∧
      ((t.byteAt s.writeIndex = 0 ∧ t.byteAt (s.writeIndex + 1) = 1 ∧ t.byteAt (s.writeIndex + 2) = 0) ↔
        (q.extractLsb' 0 8).toNat < 128 ∧ q.extractLsb' 8 24 ≠ 0x000100))

/-! ## EOR -/

/-- R174 (the refusals are the spec's decision D14): EOR pads a Binary row, moves the dither error of a dithered Binary
job, and advances the position and the phase; no byte is written. Its word too. -/
def Obligations.EorEndsTheRow : Prop :=
  ∀ s : State, encode .eor = 6#4 ++ 0#60 ∧
    (s.phase ≠ .encoding → s.phase ≠ .failed →
      exec .eor s = .next { s with errCode := .protoOrder, phase := .failed }) ∧
    (s.phase = .encoding → s.col ≠ s.job.width.toNat →
      exec .eor s = .next { s with errCode := .protoRow, phase := .failed }) ∧
    (s.phase = .encoding → s.col = s.job.width.toNat → ∀ padded dithered lastRow lastFrame : Bool,
      (padded = true ↔ s.job.format = .binary ∧ s.bitCursor ≠ 0) →
      (dithered = true ↔ s.job.format = .binary ∧ s.job.dither = .floydSteinberg) →
      (lastRow = true ↔ s.row + 1 = s.job.height.toNat) →
      (lastFrame = true ↔ s.frame + 1 = s.enc.frameCount.toNat) →
      exec .eor s = .next
        { s with
          bitCursor := if padded = true then 0 else s.bitCursor
          writeIndex := if padded = true then s.writeIndex + 1 else s.writeIndex
          errCur := if dithered = true then s.errNxt else s.errCur
          errNxt := if dithered = true then List.replicate s.errNxt.length 0 else s.errNxt
          col := 0
          row := if lastRow = true then 0 else s.row + 1
          frame := if lastRow = true then s.frame + 1 else s.frame
          phase := if lastRow = true then (if lastFrame = true then .done else .ready) else .encoding })

/-! ## Errors and phases -/

/-- R259 (decision D14): in FAILED every command but CFG and RST, and every illegal word, changes no register; CFG and
RST are performed. That a rejected CFG records its own code there, as R260 says, and not R259's first code, is the
model's choice (log 18), and so is that a step takes the illegal word off the list `inputs` (log 1). -/
def Obligations.FailedPerformsOnlyCfgAndRst : Prop :=
  ∀ s : State, s.phase = .failed →
    (∀ i, (∀ d, i ≠ .cfg d) → i ≠ .rst → exec i s = .next s) ∧
    (∀ w rest f e, s.inputs = .command w :: rest → decode f w = .error e →
      step s = .next { s with inputs := rest }) ∧
    (∀ d, ∃ t, exec (.cfg d) s = .next t ∧
      ((t.phase = .ready ∧ t.errCode = .none) ∨ ∃ c, FirstFailure s.params.bufMax d c ∧ Raised t c)) ∧
    ∃ t, exec .rst s = .next t ∧ t.phase = .idle ∧ t.errCode = .none

/-- R256 (decision D13): a command that enters FAILED (in FAILED itself only CFG is performed, R259) has recorded a
code. A CFG that came to its checks, no job being in progress, has also cleared the three warnings and changed nothing
else; every other command, and a CFG refused while a job is in progress, has changed nothing else at all. That a CFG rejected
in FAILED writes its code too is the model's choice (log 18). -/
def Obligations.RaisedErrorsWriteNothingElse : Prop :=
  ∀ (i : Instr) (s t : State), (s.phase = .failed → ∃ d, i = .cfg d) → exec i s = .next t → t.phase = .failed →
    t.errCode ≠ .none ∧
    (∀ d, i = .cfg d → s.phase ≠ .ready → s.phase ≠ .encoding →
      FirstFailure s.params.bufMax d t.errCode ∧
      t = { s with warnOversize := false, warnAlphaOnly := false, warnFrames := false
                   errCode := t.errCode, phase := .failed }) ∧
    ((∀ d, i = .cfg d → s.phase = .ready ∨ s.phase = .encoding) →
      t = { s with errCode := t.errCode, phase := .failed })

/-- R233 (decision D5): the phase table, every phase against every command and every illegal word. The code of a CFG
rejected in FAILED is the model's choice (log 18), and so is that a step takes the illegal word off `inputs` (log 1). -/
def Obligations.PhaseTransitionsFollowTheTable : Prop :=
  (∀ (i : Instr) (s t : State), i.wellFormed = true → exec i s = .next t → PhaseRow s i t) ∧
  ∀ (s t : State) (w : CmdWord) (rest : List HostInput) (e : DecodeError), s.inputs = .command w :: rest →
    decode s.job.format w = .error e → step s = .next t →
    (s.phase = .failed → t = { s with inputs := rest }) ∧ (s.phase ≠ .failed → Raised t .illegalCmd)

/-! ## The whole machine -/

/-- 10_state.md sections 2, 3 and 7 (R21, R26, R27, R34): no command but CFG and RST writes a job register, an encoder
constant, or clears a warning; FRM alone may resolve a Grayscale job to AlphaChannel, with the warning. That no command
at all, RST included, changes the OPEN parameters or the pending inputs is the model's own choice (log 16, marked
unsafe; log 2). -/
def Obligations.OnlyCfgAndRstWriteTheJob : Prop :=
  ∀ (i : Instr) (s t : State), exec i s = .next t →
    t.params = s.params ∧ t.inputs = s.inputs ∧
    ((∀ d, i ≠ .cfg d) → i ≠ .rst →
      t.job = s.job ∧ t.enc = { s.enc with transp := t.enc.transp } ∧
      t.warnOversize = s.warnOversize ∧ t.warnFrames = s.warnFrames ∧
      ((t.enc.transp = s.enc.transp ∧ t.warnAlphaOnly = s.warnAlphaOnly) ∨
        (i = .frm .raw ∧ s.job.format = .grayscale ∧ t.enc.transp = .alphaChannel ∧ t.warnAlphaOnly = true)))

/-- 20_memory.md section 5 (R68): no command but CFG and RST moves `writeIndex` back or changes a byte below it, or one
above where it then stands. -/
def Obligations.BytesBelowTheWriteIndexAreFinal : Prop :=
  ∀ (i : Instr) (s t : State), (∀ d, i ≠ .cfg d) → i ≠ .rst → exec i s = .next t →
    s.writeIndex ≤ t.writeIndex ∧ ∀ a, a < s.writeIndex ∨ t.writeIndex < a → t.byteAt a = s.byteAt a

/-- 20_memory.md section 2 (R63, R64): a pixel command stores only in the bytes of its pixel, at their place in the
frame and row; in a Binary job, only its bit. -/
def Obligations.PixelsLandAtTheirPlace : Prop :=
  ∀ (i : Instr) (s t : State), Inv s → s.phase = .encoding → i.fits s.job.format = true →
    ((∃ p, i = .pix p) ∨ ∃ q, i = .encB q ∨ i = .encG q ∨ i = .enc565 q ∨ i = .encRGB q) →
    exec i s = .next t → t.phase = .encoding → ∀ base : Nat,
    base = s.enc.storageWidth * (s.frame * s.job.height.toNat + s.row) →
    (s.job.format = .binary → ∀ a k, k < 8 → (t.byteAt a).getLsbD k ≠ (s.byteAt a).getLsbD k →
      a = base + s.col / 8 ∧ k = 7 - s.col % 8) ∧
    (s.job.format ≠ .binary → ∀ n, n = rowWidth s.job.format s.enc.transp 1 →
      t.writeIndex = base + n * s.col + n ∧
      ∀ a, t.byteAt a ≠ s.byteAt a → base + n * s.col ≤ a ∧ a < base + n * s.col + n)

/-- 42_binary_encoder.md section 2 (R175): the transparency of a Binary job changes nothing but itself: two blocks that
differ only in it differ only in it after any command but CFG and RST. -/
def Obligations.BinaryJobsIgnoreTransparency : Prop :=
  ∀ (i : Instr) (s t : State) (tj te : Transparency), s.job.format = .binary → i.fits .binary = true →
    (∀ d, i ≠ .cfg d) → i ≠ .rst → exec i s = .next t →
    exec i { s with job := { s.job with transp := tj }, enc := { s.enc with transp := te } } =
      .next { t with job := { t.job with transp := tj }, enc := { t.enc with transp := te } }

/-- The invariant holds after reset (whatever the OPEN parameters, provided the threshold is 1 to 255). -/
def Obligations.ResetMeetsTheInvariant : Prop :=
  Inv State.reset ∧ ∀ s : State, s.params.tMono ≠ 0 → Inv s.resetRegisters

/-- 10_state.md section 10 (R42 (a) to (f), which the spec derives) and what it rests on: every step keeps `Inv`. -/
def Obligations.StepKeepsInvariant : Prop :=
  ∀ s t : State, Inv s → step s = .next t → Inv t

/-- 00_scope.md section 5 and 47_frame_orchestrator.md (R14, R240): there is no stuck state; every step of a reachable
state answers a next state, so no write is ever out of range. -/
def Obligations.StepAlwaysAnswers : Prop :=
  ∀ s : State, Inv s → ∃ t, step s = .next t

/-- 10_state.md section 6 (R33): with the default step and threshold every dither cell stays between -2040 and 2040,
because every step keeps the finer bound by shares of the largest error 127, which reset meets. -/
def Obligations.DitherCellsStayInRange : Prop :=
  (∀ s : State, DitherBounded s.resetRegisters) ∧
  (∀ s t : State, Inv s → DitherBounded s → step s = .next t → DitherBounded t) ∧
  ∀ s : State, DitherBounded s → s.params.fs = .standard → s.params.tMono = 128 →
    (∀ c ∈ s.errCur, -2040 ≤ c ∧ c ≤ 2040) ∧ ∀ c ∈ s.errNxt, -2040 ≤ c ∧ c ≤ 2040

/-- 47_frame_orchestrator.md (R230, R241) and 10_state.md (R35, R42(e)): the words of a complete job, whatever scan pass
the grammar allows before each FRM, sent to a block with no job in progress, are performed one a step and end in DONE
with every byte of the buffer accounted for, whatever the pixels and the parameters (the threshold being one the spec
allows, 1 to 255). The resolved transparency of the metadata is the job's, or AlphaChannel when the job is Grayscale
and a frame's scan pass shows it alpha-only (R143, R144). -/
def Obligations.CompleteJobReachesDone : Prop :=
  ∀ (d : CfgFields) (frames : List JobFrame) (s : State) (tr : Transparency), s.phase ≠ .ready → s.phase ≠ .encoding →
    s.params.tMono ≠ 0 → d.transp = tr.code → (∀ c ∈ checkOrder, ¬FailsCheck s.params.bufMax d c) →
    frames.length = (framesEmitted d).toNat →
    (∀ fr ∈ frames, fr.fits d.format d.width.toNat d.height.toNat = true) →
    s.inputs = hostInputs (jobCommands d frames) →
    ∃ t, core.run (jobCommands d frames).length s = .next t ∧
      t.inputs = [] ∧ t.phase = .done ∧ t.errCode = .none ∧ t.frame = frames.length ∧ t.writeIndex = t.enc.bufLen ∧
      t.enc.bufLen = rowWidth d.format tr d.width.toNat * d.height.toNat * frames.length ∧
      t.metaWidth = some d.width ∧ t.metaHeight = some d.height ∧ t.metaFormat = some d.format.code ∧
      t.metaFrameCount = some (framesEmitted d) ∧
      (d.format = .grayscale ∧ (∃ fr ∈ frames, ShowsAlphaOnly fr) → t.metaTransparency = some 2) ∧
      (¬(d.format = .grayscale ∧ ∃ fr ∈ frames, ShowsAlphaOnly fr) → t.metaTransparency = some tr.code)

/-! ## The host's frame size -/

/-- 41_pixel_normalizer.md section 5 (R160): the frame size is the floor of the size times the smaller exact ratio;
without a bound it is the native size, marked `unresized`. -/
def Obligations.ResizeIsTheFloorOfTheExactRatio : Prop :=
  ∀ origW origH maxW maxH : Nat, 0 < origW → 0 < origH → 0 < maxW → 0 < maxH → ∀ ratio : ℚ,
    ratio = min ((maxW : ℚ) / origW) ((maxH : ℚ) / origH) →
    finalDims origW origH (some (maxW, maxH)) = ((⌊(origW : ℚ) * ratio⌋₊, ⌊(origH : ℚ) * ratio⌋₊), false) ∧
    finalDims origW origH none = ((origW, origH), true)
end

