-- ==== Sys2Proof/Laws/Memory.lean ====
section
/-! SUPPORT. The output buffer: read after write, and the canonical form is kept by every operation. -/

namespace Sys2Proof.Machine

@[simp] theorem Memory.get_nil (a : Nat) : Memory.get [] a = 0 := rfl

@[simp] theorem Memory.wf_nil : Memory.wf [] = true := rfl

@[simp] theorem Memory.below_nil (n : Nat) : Memory.below n [] = true := rfl

theorem Memory.get_cons (k : Nat) (v : Byte) (m : Memory) (a : Nat) :
    Memory.get ((k, v) :: m) a = if k = a then v else Memory.get m a := rfl

theorem Memory.wfFrom_cons (lo k : Nat) (v : Byte) (m : Memory) :
    Memory.wfFrom lo ((k, v) :: m) = true ↔ lo ≤ k ∧ v ≠ 0 ∧ Memory.wfFrom (k + 1) m = true := by
  simp [Memory.wfFrom, unlistedByte, and_assoc]

theorem Memory.below_cons (n k : Nat) (v : Byte) (m : Memory) :
    Memory.below n ((k, v) :: m) = true ↔ k < n ∧ Memory.below n m = true := by
  simp [Memory.below]

theorem Memory.wfFrom_mono {lo lo' : Nat} {m : Memory} (h : lo' ≤ lo) (hm : Memory.wfFrom lo m = true) :
    Memory.wfFrom lo' m = true := by
  cases m with
  | nil => rfl
  | cons c m =>
    rw [Memory.wfFrom_cons] at hm ⊢
    exact ⟨h.trans hm.1, hm.2⟩

/-- A list that starts at `lo` reads as unlisted below it. -/
theorem Memory.get_lt_of_wfFrom {lo a : Nat} {m : Memory} (hm : Memory.wfFrom lo m = true) (h : a < lo) :
    Memory.get m a = 0 := by
  induction m generalizing lo with
  | nil => rfl
  | cons c m ih =>
    obtain ⟨h1, -, h3⟩ := (Memory.wfFrom_cons ..).1 hm
    rw [Memory.get_cons, if_neg (by omega)]
    exact ih h3 (by omega)

theorem Memory.get_cell (a : Nat) (v : Byte) (m : Memory) (b : Nat) (h : Memory.get m a = 0) :
    Memory.get (Memory.cell a v m) b = if a = b then v else Memory.get m b := by
  unfold Memory.cell unlistedByte
  split
  · subst v
    split
    · subst b; exact h
    · rfl
  · rfl

/-- A write leaves every other offset alone. -/
theorem Memory.get_set_ne {m : Memory} {a b : Nat} (v : Byte) (h : b ≠ a) :
    Memory.get (Memory.set m a v) b = Memory.get m b := by
  have cell_ne (v : Byte) (m : Memory) : Memory.get (Memory.cell a v m) b = Memory.get m b := by
    unfold Memory.cell
    split
    · rfl
    · rw [Memory.get_cons, if_neg (Ne.symm h)]
  induction m with
  | nil => exact cell_ne v []
  | cons c m ih =>
    unfold Memory.set
    split
    · exact cell_ne v _
    · split
      · rw [cell_ne, Memory.get_cons, if_neg (by omega)]
      · rw [Memory.get_cons, Memory.get_cons, ih]

/-- A read after a write to the same offset gives the byte written. -/
theorem Memory.get_set_self {lo : Nat} {m : Memory} {a : Nat} (v : Byte) (hm : Memory.wfFrom lo m = true) :
    Memory.get (Memory.set m a v) a = v := by
  induction m generalizing lo with
  | nil => exact (Memory.get_cell a v [] a rfl).trans (if_pos rfl)
  | cons c m ih =>
    obtain ⟨k, w⟩ := c
    obtain ⟨-, -, h3⟩ := (Memory.wfFrom_cons ..).1 hm
    unfold Memory.set
    split
    next hlt =>
      rw [Memory.get_cell, if_pos rfl]
      rw [Memory.get_cons, if_neg (by omega)]
      exact Memory.get_lt_of_wfFrom h3 (by omega)
    next =>
      split
      next heq =>
        rw [Memory.get_cell, if_pos rfl]
        exact Memory.get_lt_of_wfFrom h3 (by omega)
      next hne =>
        rw [Memory.get_cons, if_neg (Ne.symm hne)]
        exact ih h3

theorem Memory.wfFrom_cell {lo a : Nat} {m : Memory} (v : Byte) (h : lo ≤ a) (hm : Memory.wfFrom (a + 1) m = true) :
    Memory.wfFrom lo (Memory.cell a v m) = true := by
  unfold Memory.cell unlistedByte
  split
  · exact Memory.wfFrom_mono (by omega) hm
  next hv => exact (Memory.wfFrom_cons ..).2 ⟨h, hv, hm⟩

/-- A write keeps the canonical form. -/
theorem Memory.wfFrom_set {lo : Nat} {m : Memory} {a : Nat} (v : Byte) (h : lo ≤ a) (hm : Memory.wfFrom lo m = true) :
    Memory.wfFrom lo (Memory.set m a v) = true := by
  induction m generalizing lo with
  | nil => exact Memory.wfFrom_cell v h rfl
  | cons c m ih =>
    obtain ⟨k, w⟩ := c
    obtain ⟨h1, h2, h3⟩ := (Memory.wfFrom_cons ..).1 hm
    unfold Memory.set
    split
    next hlt => exact Memory.wfFrom_cell v h ((Memory.wfFrom_cons ..).2 ⟨hlt, h2, h3⟩)
    next =>
      split
      next heq => subst heq; exact Memory.wfFrom_cell v h h3
      next => exact (Memory.wfFrom_cons ..).2 ⟨h1, h2, ih (by omega) h3⟩

theorem Memory.wf_set {m : Memory} (a : Nat) (v : Byte) (hm : Memory.wf m = true) :
    Memory.wf (Memory.set m a v) = true :=
  Memory.wfFrom_set v (Nat.zero_le a) hm

theorem Memory.get_set_eq {m : Memory} (a : Nat) (v : Byte) (hm : Memory.wf m = true) :
    Memory.get (Memory.set m a v) a = v :=
  Memory.get_set_self v hm

theorem Memory.below_cell {n a : Nat} {m : Memory} (v : Byte) (h : a < n) (hm : Memory.below n m = true) :
    Memory.below n (Memory.cell a v m) = true := by
  unfold Memory.cell
  split
  · exact hm
  · exact (Memory.below_cons ..).2 ⟨h, hm⟩

/-- A write below `n` lists nothing at or above `n`. -/
theorem Memory.below_set {n : Nat} {m : Memory} {a : Nat} (v : Byte) (h : a < n) (hm : Memory.below n m = true) :
    Memory.below n (Memory.set m a v) = true := by
  induction m with
  | nil => exact Memory.below_cell v h rfl
  | cons c m ih =>
    obtain ⟨h1, h2⟩ := (Memory.below_cons n c.1 c.2 m).1 hm
    unfold Memory.set
    split
    · exact Memory.below_cell v h hm
    · split
      · exact Memory.below_cell v h h2
      · exact (Memory.below_cons ..).2 ⟨h1, ih h2⟩

/-- An offset at or above the bound reads as unlisted. -/
theorem Memory.get_of_below {n a : Nat} {m : Memory} (hm : Memory.below n m = true) (h : n ≤ a) :
    Memory.get m a = 0 := by
  induction m with
  | nil => rfl
  | cons c m ih =>
    obtain ⟨h1, h2⟩ := (Memory.below_cons n c.1 c.2 m).1 hm
    rw [show c :: m = (c.1, c.2) :: m from rfl, Memory.get_cons, if_neg (by omega)]
    exact ih h2

/-- Two canonical lists that read the same are equal: equal memories are equal data. -/
theorem Memory.ext_of_wfFrom {lo : Nat} {m m' : Memory} (hm : Memory.wfFrom lo m = true)
    (hm' : Memory.wfFrom lo m' = true) (h : ∀ a, Memory.get m a = Memory.get m' a) : m = m' := by
  induction m generalizing lo m' with
  | nil =>
    cases m' with
    | nil => rfl
    | cons c m' =>
      have := h c.1
      obtain ⟨-, h2, -⟩ := (Memory.wfFrom_cons lo c.1 c.2 m').1 hm'
      rw [show c :: m' = (c.1, c.2) :: m' from rfl, Memory.get_cons, if_pos rfl] at this
      exact absurd this.symm h2
  | cons c m ih =>
    obtain ⟨k, v⟩ := c
    obtain ⟨h1, h2, h3⟩ := (Memory.wfFrom_cons ..).1 hm
    cases m' with
    | nil =>
      have := h k
      rw [Memory.get_cons, if_pos rfl] at this
      exact absurd this h2
    | cons c' m' =>
      obtain ⟨k', v'⟩ := c'
      obtain ⟨h1', h2', h3'⟩ := (Memory.wfFrom_cons ..).1 hm'
      have hk : k = k' := by
        rcases Nat.lt_trichotomy k k' with hlt | heq | hgt
        · have := h k
          rw [Memory.get_cons, if_pos rfl, Memory.get_cons, if_neg (by omega),
            Memory.get_lt_of_wfFrom h3' (by omega)] at this
          exact absurd this h2
        · exact heq
        · have := h k'
          rw [Memory.get_cons, if_neg (by omega), Memory.get_lt_of_wfFrom h3 (by omega),
            Memory.get_cons, if_pos rfl] at this
          exact absurd this.symm h2'
      subst hk
      have hv : v = v' := by
        have := h k
        rwa [Memory.get_cons, if_pos rfl, Memory.get_cons, if_pos rfl] at this
      subst hv
      refine congrArg _ (ih h3 h3' fun a => ?_)
      rcases Nat.lt_or_ge a (k + 1) with hlt | hge
      · rw [Memory.get_lt_of_wfFrom h3 hlt, Memory.get_lt_of_wfFrom h3' hlt]
      · have := h a
        rwa [Memory.get_cons, if_neg (by omega), Memory.get_cons, if_neg (by omega)] at this

end Sys2Proof.Machine
end

