-- ==== Sys2Proof/Laws/State.lean ====
section
/-! SUPPORT. One lemma per field of State per named update of Machine/Ops.lean, so that no later proof unfolds a
record update. -/

namespace Sys2Proof.Machine

variable (s : State)

/-! ## `State.raise` -/

@[simp] theorem State.raise_job (c : ErrCode) : (s.raise c).job = s.job := rfl
@[simp] theorem State.raise_enc (c : ErrCode) : (s.raise c).enc = s.enc := rfl
@[simp] theorem State.raise_buffer (c : ErrCode) : (s.raise c).buffer = s.buffer := rfl
@[simp] theorem State.raise_writeIndex (c : ErrCode) : (s.raise c).writeIndex = s.writeIndex := rfl
@[simp] theorem State.raise_bitCursor (c : ErrCode) : (s.raise c).bitCursor = s.bitCursor := rfl
@[simp] theorem State.raise_phase (c : ErrCode) : (s.raise c).phase = .failed := rfl
@[simp] theorem State.raise_frame (c : ErrCode) : (s.raise c).frame = s.frame := rfl
@[simp] theorem State.raise_row (c : ErrCode) : (s.raise c).row = s.row := rfl
@[simp] theorem State.raise_col (c : ErrCode) : (s.raise c).col = s.col := rfl
@[simp] theorem State.raise_scanColorMax (c : ErrCode) : (s.raise c).scanColorMax = s.scanColorMax := rfl
@[simp] theorem State.raise_scanAlphaMin (c : ErrCode) : (s.raise c).scanAlphaMin = s.scanAlphaMin := rfl
@[simp] theorem State.raise_scanCount (c : ErrCode) : (s.raise c).scanCount = s.scanCount := rfl
@[simp] theorem State.raise_alphaOnly (c : ErrCode) : (s.raise c).alphaOnly = s.alphaOnly := rfl
@[simp] theorem State.raise_srcMode (c : ErrCode) : (s.raise c).srcMode = s.srcMode := rfl
@[simp] theorem State.raise_errCur (c : ErrCode) : (s.raise c).errCur = s.errCur := rfl
@[simp] theorem State.raise_errNxt (c : ErrCode) : (s.raise c).errNxt = s.errNxt := rfl
@[simp] theorem State.raise_errCode (c : ErrCode) : (s.raise c).errCode = c := rfl
@[simp] theorem State.raise_warnOversize (c : ErrCode) : (s.raise c).warnOversize = s.warnOversize := rfl
@[simp] theorem State.raise_warnAlphaOnly (c : ErrCode) : (s.raise c).warnAlphaOnly = s.warnAlphaOnly := rfl
@[simp] theorem State.raise_warnFrames (c : ErrCode) : (s.raise c).warnFrames = s.warnFrames := rfl
@[simp] theorem State.raise_params (c : ErrCode) : (s.raise c).params = s.params := rfl
@[simp] theorem State.raise_inputs (c : ErrCode) : (s.raise c).inputs = s.inputs := rfl

/-! ## `State.putByte` -/

@[simp] theorem State.putByte_job (a : Nat) (v : Byte) : (s.putByte a v).job = s.job := rfl
@[simp] theorem State.putByte_enc (a : Nat) (v : Byte) : (s.putByte a v).enc = s.enc := rfl
@[simp] theorem State.putByte_buffer (a : Nat) (v : Byte) : (s.putByte a v).buffer = Memory.set s.buffer a v := rfl
@[simp] theorem State.putByte_writeIndex (a : Nat) (v : Byte) : (s.putByte a v).writeIndex = s.writeIndex := rfl
@[simp] theorem State.putByte_bitCursor (a : Nat) (v : Byte) : (s.putByte a v).bitCursor = s.bitCursor := rfl
@[simp] theorem State.putByte_phase (a : Nat) (v : Byte) : (s.putByte a v).phase = s.phase := rfl
@[simp] theorem State.putByte_frame (a : Nat) (v : Byte) : (s.putByte a v).frame = s.frame := rfl
@[simp] theorem State.putByte_row (a : Nat) (v : Byte) : (s.putByte a v).row = s.row := rfl
@[simp] theorem State.putByte_col (a : Nat) (v : Byte) : (s.putByte a v).col = s.col := rfl
@[simp] theorem State.putByte_scanColorMax (a : Nat) (v : Byte) : (s.putByte a v).scanColorMax = s.scanColorMax := rfl
@[simp] theorem State.putByte_scanAlphaMin (a : Nat) (v : Byte) : (s.putByte a v).scanAlphaMin = s.scanAlphaMin := rfl
@[simp] theorem State.putByte_scanCount (a : Nat) (v : Byte) : (s.putByte a v).scanCount = s.scanCount := rfl
@[simp] theorem State.putByte_alphaOnly (a : Nat) (v : Byte) : (s.putByte a v).alphaOnly = s.alphaOnly := rfl
@[simp] theorem State.putByte_srcMode (a : Nat) (v : Byte) : (s.putByte a v).srcMode = s.srcMode := rfl
@[simp] theorem State.putByte_errCur (a : Nat) (v : Byte) : (s.putByte a v).errCur = s.errCur := rfl
@[simp] theorem State.putByte_errNxt (a : Nat) (v : Byte) : (s.putByte a v).errNxt = s.errNxt := rfl
@[simp] theorem State.putByte_errCode (a : Nat) (v : Byte) : (s.putByte a v).errCode = s.errCode := rfl
@[simp] theorem State.putByte_warnOversize (a : Nat) (v : Byte) : (s.putByte a v).warnOversize = s.warnOversize := rfl
@[simp] theorem State.putByte_warnAlphaOnly (a : Nat) (v : Byte) : (s.putByte a v).warnAlphaOnly = s.warnAlphaOnly := rfl
@[simp] theorem State.putByte_warnFrames (a : Nat) (v : Byte) : (s.putByte a v).warnFrames = s.warnFrames := rfl
@[simp] theorem State.putByte_params (a : Nat) (v : Byte) : (s.putByte a v).params = s.params := rfl
@[simp] theorem State.putByte_inputs (a : Nat) (v : Byte) : (s.putByte a v).inputs = s.inputs := rfl

/-! ## `State.withInputs` -/

@[simp] theorem State.withInputs_job (is : List HostInput) : (s.withInputs is).job = s.job := rfl
@[simp] theorem State.withInputs_enc (is : List HostInput) : (s.withInputs is).enc = s.enc := rfl
@[simp] theorem State.withInputs_buffer (is : List HostInput) : (s.withInputs is).buffer = s.buffer := rfl
@[simp] theorem State.withInputs_writeIndex (is : List HostInput) : (s.withInputs is).writeIndex = s.writeIndex := rfl
@[simp] theorem State.withInputs_bitCursor (is : List HostInput) : (s.withInputs is).bitCursor = s.bitCursor := rfl
@[simp] theorem State.withInputs_phase (is : List HostInput) : (s.withInputs is).phase = s.phase := rfl
@[simp] theorem State.withInputs_frame (is : List HostInput) : (s.withInputs is).frame = s.frame := rfl
@[simp] theorem State.withInputs_row (is : List HostInput) : (s.withInputs is).row = s.row := rfl
@[simp] theorem State.withInputs_col (is : List HostInput) : (s.withInputs is).col = s.col := rfl
@[simp] theorem State.withInputs_scanColorMax (is : List HostInput) : (s.withInputs is).scanColorMax = s.scanColorMax := rfl
@[simp] theorem State.withInputs_scanAlphaMin (is : List HostInput) : (s.withInputs is).scanAlphaMin = s.scanAlphaMin := rfl
@[simp] theorem State.withInputs_scanCount (is : List HostInput) : (s.withInputs is).scanCount = s.scanCount := rfl
@[simp] theorem State.withInputs_alphaOnly (is : List HostInput) : (s.withInputs is).alphaOnly = s.alphaOnly := rfl
@[simp] theorem State.withInputs_srcMode (is : List HostInput) : (s.withInputs is).srcMode = s.srcMode := rfl
@[simp] theorem State.withInputs_errCur (is : List HostInput) : (s.withInputs is).errCur = s.errCur := rfl
@[simp] theorem State.withInputs_errNxt (is : List HostInput) : (s.withInputs is).errNxt = s.errNxt := rfl
@[simp] theorem State.withInputs_errCode (is : List HostInput) : (s.withInputs is).errCode = s.errCode := rfl
@[simp] theorem State.withInputs_warnOversize (is : List HostInput) : (s.withInputs is).warnOversize = s.warnOversize := rfl
@[simp] theorem State.withInputs_warnAlphaOnly (is : List HostInput) : (s.withInputs is).warnAlphaOnly = s.warnAlphaOnly := rfl
@[simp] theorem State.withInputs_warnFrames (is : List HostInput) : (s.withInputs is).warnFrames = s.warnFrames := rfl
@[simp] theorem State.withInputs_params (is : List HostInput) : (s.withInputs is).params = s.params := rfl
@[simp] theorem State.withInputs_inputs (is : List HostInput) : (s.withInputs is).inputs = is := rfl

/-! ## `State.queueWord` -/

@[simp] theorem State.queueWord_job (w : CmdWord) : (s.queueWord w).job = s.job := rfl
@[simp] theorem State.queueWord_enc (w : CmdWord) : (s.queueWord w).enc = s.enc := rfl
@[simp] theorem State.queueWord_buffer (w : CmdWord) : (s.queueWord w).buffer = s.buffer := rfl
@[simp] theorem State.queueWord_writeIndex (w : CmdWord) : (s.queueWord w).writeIndex = s.writeIndex := rfl
@[simp] theorem State.queueWord_bitCursor (w : CmdWord) : (s.queueWord w).bitCursor = s.bitCursor := rfl
@[simp] theorem State.queueWord_phase (w : CmdWord) : (s.queueWord w).phase = s.phase := rfl
@[simp] theorem State.queueWord_frame (w : CmdWord) : (s.queueWord w).frame = s.frame := rfl
@[simp] theorem State.queueWord_row (w : CmdWord) : (s.queueWord w).row = s.row := rfl
@[simp] theorem State.queueWord_col (w : CmdWord) : (s.queueWord w).col = s.col := rfl
@[simp] theorem State.queueWord_scanColorMax (w : CmdWord) : (s.queueWord w).scanColorMax = s.scanColorMax := rfl
@[simp] theorem State.queueWord_scanAlphaMin (w : CmdWord) : (s.queueWord w).scanAlphaMin = s.scanAlphaMin := rfl
@[simp] theorem State.queueWord_scanCount (w : CmdWord) : (s.queueWord w).scanCount = s.scanCount := rfl
@[simp] theorem State.queueWord_alphaOnly (w : CmdWord) : (s.queueWord w).alphaOnly = s.alphaOnly := rfl
@[simp] theorem State.queueWord_srcMode (w : CmdWord) : (s.queueWord w).srcMode = s.srcMode := rfl
@[simp] theorem State.queueWord_errCur (w : CmdWord) : (s.queueWord w).errCur = s.errCur := rfl
@[simp] theorem State.queueWord_errNxt (w : CmdWord) : (s.queueWord w).errNxt = s.errNxt := rfl
@[simp] theorem State.queueWord_errCode (w : CmdWord) : (s.queueWord w).errCode = s.errCode := rfl
@[simp] theorem State.queueWord_warnOversize (w : CmdWord) : (s.queueWord w).warnOversize = s.warnOversize := rfl
@[simp] theorem State.queueWord_warnAlphaOnly (w : CmdWord) : (s.queueWord w).warnAlphaOnly = s.warnAlphaOnly := rfl
@[simp] theorem State.queueWord_warnFrames (w : CmdWord) : (s.queueWord w).warnFrames = s.warnFrames := rfl
@[simp] theorem State.queueWord_params (w : CmdWord) : (s.queueWord w).params = s.params := rfl
@[simp] theorem State.queueWord_inputs (w : CmdWord) : (s.queueWord w).inputs = .command w :: s.inputs := rfl

/-! ## `State.clearWarnings` -/

@[simp] theorem State.clearWarnings_job : s.clearWarnings.job = s.job := rfl
@[simp] theorem State.clearWarnings_enc : s.clearWarnings.enc = s.enc := rfl
@[simp] theorem State.clearWarnings_buffer : s.clearWarnings.buffer = s.buffer := rfl
@[simp] theorem State.clearWarnings_writeIndex : s.clearWarnings.writeIndex = s.writeIndex := rfl
@[simp] theorem State.clearWarnings_bitCursor : s.clearWarnings.bitCursor = s.bitCursor := rfl
@[simp] theorem State.clearWarnings_phase : s.clearWarnings.phase = s.phase := rfl
@[simp] theorem State.clearWarnings_frame : s.clearWarnings.frame = s.frame := rfl
@[simp] theorem State.clearWarnings_row : s.clearWarnings.row = s.row := rfl
@[simp] theorem State.clearWarnings_col : s.clearWarnings.col = s.col := rfl
@[simp] theorem State.clearWarnings_scanColorMax : s.clearWarnings.scanColorMax = s.scanColorMax := rfl
@[simp] theorem State.clearWarnings_scanAlphaMin : s.clearWarnings.scanAlphaMin = s.scanAlphaMin := rfl
@[simp] theorem State.clearWarnings_scanCount : s.clearWarnings.scanCount = s.scanCount := rfl
@[simp] theorem State.clearWarnings_alphaOnly : s.clearWarnings.alphaOnly = s.alphaOnly := rfl
@[simp] theorem State.clearWarnings_srcMode : s.clearWarnings.srcMode = s.srcMode := rfl
@[simp] theorem State.clearWarnings_errCur : s.clearWarnings.errCur = s.errCur := rfl
@[simp] theorem State.clearWarnings_errNxt : s.clearWarnings.errNxt = s.errNxt := rfl
@[simp] theorem State.clearWarnings_errCode : s.clearWarnings.errCode = s.errCode := rfl
@[simp] theorem State.clearWarnings_warnOversize : s.clearWarnings.warnOversize = false := rfl
@[simp] theorem State.clearWarnings_warnAlphaOnly : s.clearWarnings.warnAlphaOnly = false := rfl
@[simp] theorem State.clearWarnings_warnFrames : s.clearWarnings.warnFrames = false := rfl
@[simp] theorem State.clearWarnings_params : s.clearWarnings.params = s.params := rfl
@[simp] theorem State.clearWarnings_inputs : s.clearWarnings.inputs = s.inputs := rfl

/-! ## `State.accumulate` -/

@[simp] theorem State.accumulate_job (p : Pixel) : (s.accumulate p).job = s.job := rfl
@[simp] theorem State.accumulate_enc (p : Pixel) : (s.accumulate p).enc = s.enc := rfl
@[simp] theorem State.accumulate_buffer (p : Pixel) : (s.accumulate p).buffer = s.buffer := rfl
@[simp] theorem State.accumulate_writeIndex (p : Pixel) : (s.accumulate p).writeIndex = s.writeIndex := rfl
@[simp] theorem State.accumulate_bitCursor (p : Pixel) : (s.accumulate p).bitCursor = s.bitCursor := rfl
@[simp] theorem State.accumulate_phase (p : Pixel) : (s.accumulate p).phase = s.phase := rfl
@[simp] theorem State.accumulate_frame (p : Pixel) : (s.accumulate p).frame = s.frame := rfl
@[simp] theorem State.accumulate_row (p : Pixel) : (s.accumulate p).row = s.row := rfl
@[simp] theorem State.accumulate_col (p : Pixel) : (s.accumulate p).col = s.col := rfl
@[simp] theorem State.accumulate_scanColorMax (p : Pixel) : (s.accumulate p).scanColorMax = maxByte (maxByte (maxByte s.scanColorMax p.r) p.g) p.b := rfl
@[simp] theorem State.accumulate_scanAlphaMin (p : Pixel) : (s.accumulate p).scanAlphaMin = minByte s.scanAlphaMin p.a := rfl
@[simp] theorem State.accumulate_scanCount (p : Pixel) : (s.accumulate p).scanCount = min (s.scanCount + 1) (2 ^ 33 - 1) := rfl
@[simp] theorem State.accumulate_alphaOnly (p : Pixel) : (s.accumulate p).alphaOnly = s.alphaOnly := rfl
@[simp] theorem State.accumulate_srcMode (p : Pixel) : (s.accumulate p).srcMode = s.srcMode := rfl
@[simp] theorem State.accumulate_errCur (p : Pixel) : (s.accumulate p).errCur = s.errCur := rfl
@[simp] theorem State.accumulate_errNxt (p : Pixel) : (s.accumulate p).errNxt = s.errNxt := rfl
@[simp] theorem State.accumulate_errCode (p : Pixel) : (s.accumulate p).errCode = s.errCode := rfl
@[simp] theorem State.accumulate_warnOversize (p : Pixel) : (s.accumulate p).warnOversize = s.warnOversize := rfl
@[simp] theorem State.accumulate_warnAlphaOnly (p : Pixel) : (s.accumulate p).warnAlphaOnly = s.warnAlphaOnly := rfl
@[simp] theorem State.accumulate_warnFrames (p : Pixel) : (s.accumulate p).warnFrames = s.warnFrames := rfl
@[simp] theorem State.accumulate_params (p : Pixel) : (s.accumulate p).params = s.params := rfl
@[simp] theorem State.accumulate_inputs (p : Pixel) : (s.accumulate p).inputs = s.inputs := rfl

/-! ## `State.withCells` -/

@[simp] theorem State.withCells_job (cur nxt : List Int) : (s.withCells cur nxt).job = s.job := rfl
@[simp] theorem State.withCells_enc (cur nxt : List Int) : (s.withCells cur nxt).enc = s.enc := rfl
@[simp] theorem State.withCells_buffer (cur nxt : List Int) : (s.withCells cur nxt).buffer = s.buffer := rfl
@[simp] theorem State.withCells_writeIndex (cur nxt : List Int) : (s.withCells cur nxt).writeIndex = s.writeIndex := rfl
@[simp] theorem State.withCells_bitCursor (cur nxt : List Int) : (s.withCells cur nxt).bitCursor = s.bitCursor := rfl
@[simp] theorem State.withCells_phase (cur nxt : List Int) : (s.withCells cur nxt).phase = s.phase := rfl
@[simp] theorem State.withCells_frame (cur nxt : List Int) : (s.withCells cur nxt).frame = s.frame := rfl
@[simp] theorem State.withCells_row (cur nxt : List Int) : (s.withCells cur nxt).row = s.row := rfl
@[simp] theorem State.withCells_col (cur nxt : List Int) : (s.withCells cur nxt).col = s.col := rfl
@[simp] theorem State.withCells_scanColorMax (cur nxt : List Int) : (s.withCells cur nxt).scanColorMax = s.scanColorMax := rfl
@[simp] theorem State.withCells_scanAlphaMin (cur nxt : List Int) : (s.withCells cur nxt).scanAlphaMin = s.scanAlphaMin := rfl
@[simp] theorem State.withCells_scanCount (cur nxt : List Int) : (s.withCells cur nxt).scanCount = s.scanCount := rfl
@[simp] theorem State.withCells_alphaOnly (cur nxt : List Int) : (s.withCells cur nxt).alphaOnly = s.alphaOnly := rfl
@[simp] theorem State.withCells_srcMode (cur nxt : List Int) : (s.withCells cur nxt).srcMode = s.srcMode := rfl
@[simp] theorem State.withCells_errCur (cur nxt : List Int) : (s.withCells cur nxt).errCur = cur := rfl
@[simp] theorem State.withCells_errNxt (cur nxt : List Int) : (s.withCells cur nxt).errNxt = nxt := rfl
@[simp] theorem State.withCells_errCode (cur nxt : List Int) : (s.withCells cur nxt).errCode = s.errCode := rfl
@[simp] theorem State.withCells_warnOversize (cur nxt : List Int) : (s.withCells cur nxt).warnOversize = s.warnOversize := rfl
@[simp] theorem State.withCells_warnAlphaOnly (cur nxt : List Int) : (s.withCells cur nxt).warnAlphaOnly = s.warnAlphaOnly := rfl
@[simp] theorem State.withCells_warnFrames (cur nxt : List Int) : (s.withCells cur nxt).warnFrames = s.warnFrames := rfl
@[simp] theorem State.withCells_params (cur nxt : List Int) : (s.withCells cur nxt).params = s.params := rfl
@[simp] theorem State.withCells_inputs (cur nxt : List Int) : (s.withCells cur nxt).inputs = s.inputs := rfl

/-! ## `State.openFrame` -/

@[simp] theorem State.openFrame_job (src : SrcMode) (ao : Bool) : (s.openFrame src ao).job = s.job := rfl
@[simp] theorem State.openFrame_enc (src : SrcMode) (ao : Bool) : (s.openFrame src ao).enc = s.enc := rfl
@[simp] theorem State.openFrame_buffer (src : SrcMode) (ao : Bool) : (s.openFrame src ao).buffer = s.buffer := rfl
@[simp] theorem State.openFrame_writeIndex (src : SrcMode) (ao : Bool) : (s.openFrame src ao).writeIndex = s.writeIndex := rfl
@[simp] theorem State.openFrame_bitCursor (src : SrcMode) (ao : Bool) : (s.openFrame src ao).bitCursor = s.bitCursor := rfl
@[simp] theorem State.openFrame_phase (src : SrcMode) (ao : Bool) : (s.openFrame src ao).phase = .encoding := rfl
@[simp] theorem State.openFrame_frame (src : SrcMode) (ao : Bool) : (s.openFrame src ao).frame = s.frame := rfl
@[simp] theorem State.openFrame_row (src : SrcMode) (ao : Bool) : (s.openFrame src ao).row = 0 := rfl
@[simp] theorem State.openFrame_col (src : SrcMode) (ao : Bool) : (s.openFrame src ao).col = 0 := rfl
@[simp] theorem State.openFrame_scanColorMax (src : SrcMode) (ao : Bool) : (s.openFrame src ao).scanColorMax = 0 := rfl
@[simp] theorem State.openFrame_scanAlphaMin (src : SrcMode) (ao : Bool) : (s.openFrame src ao).scanAlphaMin = 0xFF := rfl
@[simp] theorem State.openFrame_scanCount (src : SrcMode) (ao : Bool) : (s.openFrame src ao).scanCount = 0 := rfl
@[simp] theorem State.openFrame_alphaOnly (src : SrcMode) (ao : Bool) : (s.openFrame src ao).alphaOnly = ao := rfl
@[simp] theorem State.openFrame_srcMode (src : SrcMode) (ao : Bool) : (s.openFrame src ao).srcMode = src := rfl
@[simp] theorem State.openFrame_errCur (src : SrcMode) (ao : Bool) : (s.openFrame src ao).errCur = zeroCells s.errCur := rfl
@[simp] theorem State.openFrame_errNxt (src : SrcMode) (ao : Bool) : (s.openFrame src ao).errNxt = zeroCells s.errNxt := rfl
@[simp] theorem State.openFrame_errCode (src : SrcMode) (ao : Bool) : (s.openFrame src ao).errCode = s.errCode := rfl
@[simp] theorem State.openFrame_warnOversize (src : SrcMode) (ao : Bool) : (s.openFrame src ao).warnOversize = s.warnOversize := rfl
@[simp] theorem State.openFrame_warnAlphaOnly (src : SrcMode) (ao : Bool) : (s.openFrame src ao).warnAlphaOnly = s.warnAlphaOnly := rfl
@[simp] theorem State.openFrame_warnFrames (src : SrcMode) (ao : Bool) : (s.openFrame src ao).warnFrames = s.warnFrames := rfl
@[simp] theorem State.openFrame_params (src : SrcMode) (ao : Bool) : (s.openFrame src ao).params = s.params := rfl
@[simp] theorem State.openFrame_inputs (src : SrcMode) (ao : Bool) : (s.openFrame src ao).inputs = s.inputs := rfl

/-! ## `State.configure` -/

@[simp] theorem State.configure_job (d : CfgFields) (t : Transparency) : (s.configure d t).job = jobOf d t := rfl
@[simp] theorem State.configure_enc (d : CfgFields) (t : Transparency) : (s.configure d t).enc = encOf d t := rfl
@[simp] theorem State.configure_buffer (d : CfgFields) (t : Transparency) : (s.configure d t).buffer = [] := rfl
@[simp] theorem State.configure_writeIndex (d : CfgFields) (t : Transparency) : (s.configure d t).writeIndex = 0 := rfl
@[simp] theorem State.configure_bitCursor (d : CfgFields) (t : Transparency) : (s.configure d t).bitCursor = 0 := rfl
@[simp] theorem State.configure_phase (d : CfgFields) (t : Transparency) : (s.configure d t).phase = .ready := rfl
@[simp] theorem State.configure_frame (d : CfgFields) (t : Transparency) : (s.configure d t).frame = 0 := rfl
@[simp] theorem State.configure_row (d : CfgFields) (t : Transparency) : (s.configure d t).row = 0 := rfl
@[simp] theorem State.configure_col (d : CfgFields) (t : Transparency) : (s.configure d t).col = 0 := rfl
@[simp] theorem State.configure_scanColorMax (d : CfgFields) (t : Transparency) : (s.configure d t).scanColorMax = 0 := rfl
@[simp] theorem State.configure_scanAlphaMin (d : CfgFields) (t : Transparency) : (s.configure d t).scanAlphaMin = 0xFF := rfl
@[simp] theorem State.configure_scanCount (d : CfgFields) (t : Transparency) : (s.configure d t).scanCount = 0 := rfl
@[simp] theorem State.configure_alphaOnly (d : CfgFields) (t : Transparency) : (s.configure d t).alphaOnly = false := rfl
@[simp] theorem State.configure_srcMode (d : CfgFields) (t : Transparency) : (s.configure d t).srcMode = .raw := rfl
@[simp] theorem State.configure_errCur (d : CfgFields) (t : Transparency) : (s.configure d t).errCur = List.replicate d.width.toNat 0 := rfl
@[simp] theorem State.configure_errNxt (d : CfgFields) (t : Transparency) : (s.configure d t).errNxt = List.replicate d.width.toNat 0 := rfl
@[simp] theorem State.configure_errCode (d : CfgFields) (t : Transparency) : (s.configure d t).errCode = .none := rfl
@[simp] theorem State.configure_warnOversize (d : CfgFields) (t : Transparency) : (s.configure d t).warnOversize = warnsOversize d.unresized d.width d.height := rfl
@[simp] theorem State.configure_warnAlphaOnly (d : CfgFields) (t : Transparency) : (s.configure d t).warnAlphaOnly = false := rfl
@[simp] theorem State.configure_warnFrames (d : CfgFields) (t : Transparency) : (s.configure d t).warnFrames = warnsFrames d.animated d.srcFrames := rfl
@[simp] theorem State.configure_params (d : CfgFields) (t : Transparency) : (s.configure d t).params = s.params := rfl
@[simp] theorem State.configure_inputs (d : CfgFields) (t : Transparency) : (s.configure d t).inputs = s.inputs := rfl

/-! ## `State.resetRegisters` -/

@[simp] theorem State.resetRegisters_job : s.resetRegisters.job = State.reset.job := rfl
@[simp] theorem State.resetRegisters_enc : s.resetRegisters.enc = State.reset.enc := rfl
@[simp] theorem State.resetRegisters_buffer : s.resetRegisters.buffer = State.reset.buffer := rfl
@[simp] theorem State.resetRegisters_writeIndex : s.resetRegisters.writeIndex = State.reset.writeIndex := rfl
@[simp] theorem State.resetRegisters_bitCursor : s.resetRegisters.bitCursor = State.reset.bitCursor := rfl
@[simp] theorem State.resetRegisters_phase : s.resetRegisters.phase = State.reset.phase := rfl
@[simp] theorem State.resetRegisters_frame : s.resetRegisters.frame = State.reset.frame := rfl
@[simp] theorem State.resetRegisters_row : s.resetRegisters.row = State.reset.row := rfl
@[simp] theorem State.resetRegisters_col : s.resetRegisters.col = State.reset.col := rfl
@[simp] theorem State.resetRegisters_scanColorMax : s.resetRegisters.scanColorMax = State.reset.scanColorMax := rfl
@[simp] theorem State.resetRegisters_scanAlphaMin : s.resetRegisters.scanAlphaMin = State.reset.scanAlphaMin := rfl
@[simp] theorem State.resetRegisters_scanCount : s.resetRegisters.scanCount = State.reset.scanCount := rfl
@[simp] theorem State.resetRegisters_alphaOnly : s.resetRegisters.alphaOnly = State.reset.alphaOnly := rfl
@[simp] theorem State.resetRegisters_srcMode : s.resetRegisters.srcMode = State.reset.srcMode := rfl
@[simp] theorem State.resetRegisters_errCur : s.resetRegisters.errCur = State.reset.errCur := rfl
@[simp] theorem State.resetRegisters_errNxt : s.resetRegisters.errNxt = State.reset.errNxt := rfl
@[simp] theorem State.resetRegisters_errCode : s.resetRegisters.errCode = State.reset.errCode := rfl
@[simp] theorem State.resetRegisters_warnOversize : s.resetRegisters.warnOversize = State.reset.warnOversize := rfl
@[simp] theorem State.resetRegisters_warnAlphaOnly : s.resetRegisters.warnAlphaOnly = State.reset.warnAlphaOnly := rfl
@[simp] theorem State.resetRegisters_warnFrames : s.resetRegisters.warnFrames = State.reset.warnFrames := rfl
@[simp] theorem State.resetRegisters_params : s.resetRegisters.params = s.params := rfl
@[simp] theorem State.resetRegisters_inputs : s.resetRegisters.inputs = s.inputs := rfl

/-! ## `State.override` -/

@[simp] theorem State.override_job (on : Bool) : (s.override on).job = s.job := by unfold State.override; split <;> rfl
@[simp] theorem State.override_enc (on : Bool) : (s.override on).enc = if on then { s.enc with transp := .alphaChannel } else s.enc := by unfold State.override; split <;> simp [*]
@[simp] theorem State.override_buffer (on : Bool) : (s.override on).buffer = s.buffer := by unfold State.override; split <;> rfl
@[simp] theorem State.override_writeIndex (on : Bool) : (s.override on).writeIndex = s.writeIndex := by unfold State.override; split <;> rfl
@[simp] theorem State.override_bitCursor (on : Bool) : (s.override on).bitCursor = s.bitCursor := by unfold State.override; split <;> rfl
@[simp] theorem State.override_phase (on : Bool) : (s.override on).phase = s.phase := by unfold State.override; split <;> rfl
@[simp] theorem State.override_frame (on : Bool) : (s.override on).frame = s.frame := by unfold State.override; split <;> rfl
@[simp] theorem State.override_row (on : Bool) : (s.override on).row = s.row := by unfold State.override; split <;> rfl
@[simp] theorem State.override_col (on : Bool) : (s.override on).col = s.col := by unfold State.override; split <;> rfl
@[simp] theorem State.override_scanColorMax (on : Bool) : (s.override on).scanColorMax = s.scanColorMax := by unfold State.override; split <;> rfl
@[simp] theorem State.override_scanAlphaMin (on : Bool) : (s.override on).scanAlphaMin = s.scanAlphaMin := by unfold State.override; split <;> rfl
@[simp] theorem State.override_scanCount (on : Bool) : (s.override on).scanCount = s.scanCount := by unfold State.override; split <;> rfl
@[simp] theorem State.override_alphaOnly (on : Bool) : (s.override on).alphaOnly = s.alphaOnly := by unfold State.override; split <;> rfl
@[simp] theorem State.override_srcMode (on : Bool) : (s.override on).srcMode = s.srcMode := by unfold State.override; split <;> rfl
@[simp] theorem State.override_errCur (on : Bool) : (s.override on).errCur = s.errCur := by unfold State.override; split <;> rfl
@[simp] theorem State.override_errNxt (on : Bool) : (s.override on).errNxt = s.errNxt := by unfold State.override; split <;> rfl
@[simp] theorem State.override_errCode (on : Bool) : (s.override on).errCode = s.errCode := by unfold State.override; split <;> rfl
@[simp] theorem State.override_warnOversize (on : Bool) : (s.override on).warnOversize = s.warnOversize := by unfold State.override; split <;> rfl
@[simp] theorem State.override_warnAlphaOnly (on : Bool) : (s.override on).warnAlphaOnly = (on || s.warnAlphaOnly) := by cases on <;> rfl
@[simp] theorem State.override_warnFrames (on : Bool) : (s.override on).warnFrames = s.warnFrames := by unfold State.override; split <;> rfl
@[simp] theorem State.override_params (on : Bool) : (s.override on).params = s.params := by unfold State.override; split <;> rfl
@[simp] theorem State.override_inputs (on : Bool) : (s.override on).inputs = s.inputs := by unfold State.override; split <;> rfl

/-! ## `State.advanceBit` -/

@[simp] theorem State.advanceBit_job : s.advanceBit.job = s.job := by unfold State.advanceBit; split <;> rfl
@[simp] theorem State.advanceBit_enc : s.advanceBit.enc = s.enc := by unfold State.advanceBit; split <;> rfl
@[simp] theorem State.advanceBit_buffer : s.advanceBit.buffer = s.buffer := by unfold State.advanceBit; split <;> rfl
@[simp] theorem State.advanceBit_writeIndex : s.advanceBit.writeIndex = if s.bitCursor = 7 then s.writeIndex + 1 else s.writeIndex := by unfold State.advanceBit; split <;> simp [*]
@[simp] theorem State.advanceBit_bitCursor : s.advanceBit.bitCursor = if s.bitCursor = 7 then 0 else s.bitCursor + 1 := by unfold State.advanceBit; split <;> simp [*]
@[simp] theorem State.advanceBit_phase : s.advanceBit.phase = s.phase := by unfold State.advanceBit; split <;> rfl
@[simp] theorem State.advanceBit_frame : s.advanceBit.frame = s.frame := by unfold State.advanceBit; split <;> rfl
@[simp] theorem State.advanceBit_row : s.advanceBit.row = s.row := by unfold State.advanceBit; split <;> rfl
@[simp] theorem State.advanceBit_col : s.advanceBit.col = s.col := by unfold State.advanceBit; split <;> rfl
@[simp] theorem State.advanceBit_scanColorMax : s.advanceBit.scanColorMax = s.scanColorMax := by unfold State.advanceBit; split <;> rfl
@[simp] theorem State.advanceBit_scanAlphaMin : s.advanceBit.scanAlphaMin = s.scanAlphaMin := by unfold State.advanceBit; split <;> rfl
@[simp] theorem State.advanceBit_scanCount : s.advanceBit.scanCount = s.scanCount := by unfold State.advanceBit; split <;> rfl
@[simp] theorem State.advanceBit_alphaOnly : s.advanceBit.alphaOnly = s.alphaOnly := by unfold State.advanceBit; split <;> rfl
@[simp] theorem State.advanceBit_srcMode : s.advanceBit.srcMode = s.srcMode := by unfold State.advanceBit; split <;> rfl
@[simp] theorem State.advanceBit_errCur : s.advanceBit.errCur = s.errCur := by unfold State.advanceBit; split <;> rfl
@[simp] theorem State.advanceBit_errNxt : s.advanceBit.errNxt = s.errNxt := by unfold State.advanceBit; split <;> rfl
@[simp] theorem State.advanceBit_errCode : s.advanceBit.errCode = s.errCode := by unfold State.advanceBit; split <;> rfl
@[simp] theorem State.advanceBit_warnOversize : s.advanceBit.warnOversize = s.warnOversize := by unfold State.advanceBit; split <;> rfl
@[simp] theorem State.advanceBit_warnAlphaOnly : s.advanceBit.warnAlphaOnly = s.warnAlphaOnly := by unfold State.advanceBit; split <;> rfl
@[simp] theorem State.advanceBit_warnFrames : s.advanceBit.warnFrames = s.warnFrames := by unfold State.advanceBit; split <;> rfl
@[simp] theorem State.advanceBit_params : s.advanceBit.params = s.params := by unfold State.advanceBit; split <;> rfl
@[simp] theorem State.advanceBit_inputs : s.advanceBit.inputs = s.inputs := by unfold State.advanceBit; split <;> rfl

/-! ## `State.padRow` -/

@[simp] theorem State.padRow_job : s.padRow.job = s.job := by unfold State.padRow; split <;> rfl
@[simp] theorem State.padRow_enc : s.padRow.enc = s.enc := by unfold State.padRow; split <;> rfl
@[simp] theorem State.padRow_buffer : s.padRow.buffer = s.buffer := by unfold State.padRow; split <;> rfl
@[simp] theorem State.padRow_writeIndex : s.padRow.writeIndex = if s.job.format = .binary ∧ s.bitCursor ≠ 0 then s.writeIndex + 1 else s.writeIndex := by unfold State.padRow; split <;> simp [*]
@[simp] theorem State.padRow_bitCursor : s.padRow.bitCursor = if s.job.format = .binary ∧ s.bitCursor ≠ 0 then 0 else s.bitCursor := by unfold State.padRow; split <;> simp [*]
@[simp] theorem State.padRow_phase : s.padRow.phase = s.phase := by unfold State.padRow; split <;> rfl
@[simp] theorem State.padRow_frame : s.padRow.frame = s.frame := by unfold State.padRow; split <;> rfl
@[simp] theorem State.padRow_row : s.padRow.row = s.row := by unfold State.padRow; split <;> rfl
@[simp] theorem State.padRow_col : s.padRow.col = s.col := by unfold State.padRow; split <;> rfl
@[simp] theorem State.padRow_scanColorMax : s.padRow.scanColorMax = s.scanColorMax := by unfold State.padRow; split <;> rfl
@[simp] theorem State.padRow_scanAlphaMin : s.padRow.scanAlphaMin = s.scanAlphaMin := by unfold State.padRow; split <;> rfl
@[simp] theorem State.padRow_scanCount : s.padRow.scanCount = s.scanCount := by unfold State.padRow; split <;> rfl
@[simp] theorem State.padRow_alphaOnly : s.padRow.alphaOnly = s.alphaOnly := by unfold State.padRow; split <;> rfl
@[simp] theorem State.padRow_srcMode : s.padRow.srcMode = s.srcMode := by unfold State.padRow; split <;> rfl
@[simp] theorem State.padRow_errCur : s.padRow.errCur = s.errCur := by unfold State.padRow; split <;> rfl
@[simp] theorem State.padRow_errNxt : s.padRow.errNxt = s.errNxt := by unfold State.padRow; split <;> rfl
@[simp] theorem State.padRow_errCode : s.padRow.errCode = s.errCode := by unfold State.padRow; split <;> rfl
@[simp] theorem State.padRow_warnOversize : s.padRow.warnOversize = s.warnOversize := by unfold State.padRow; split <;> rfl
@[simp] theorem State.padRow_warnAlphaOnly : s.padRow.warnAlphaOnly = s.warnAlphaOnly := by unfold State.padRow; split <;> rfl
@[simp] theorem State.padRow_warnFrames : s.padRow.warnFrames = s.warnFrames := by unfold State.padRow; split <;> rfl
@[simp] theorem State.padRow_params : s.padRow.params = s.params := by unfold State.padRow; split <;> rfl
@[simp] theorem State.padRow_inputs : s.padRow.inputs = s.inputs := by unfold State.padRow; split <;> rfl

/-! ## `State.shiftErrors` -/

@[simp] theorem State.shiftErrors_job : s.shiftErrors.job = s.job := by unfold State.shiftErrors; split <;> rfl
@[simp] theorem State.shiftErrors_enc : s.shiftErrors.enc = s.enc := by unfold State.shiftErrors; split <;> rfl
@[simp] theorem State.shiftErrors_buffer : s.shiftErrors.buffer = s.buffer := by unfold State.shiftErrors; split <;> rfl
@[simp] theorem State.shiftErrors_writeIndex : s.shiftErrors.writeIndex = s.writeIndex := by unfold State.shiftErrors; split <;> rfl
@[simp] theorem State.shiftErrors_bitCursor : s.shiftErrors.bitCursor = s.bitCursor := by unfold State.shiftErrors; split <;> rfl
@[simp] theorem State.shiftErrors_phase : s.shiftErrors.phase = s.phase := by unfold State.shiftErrors; split <;> rfl
@[simp] theorem State.shiftErrors_frame : s.shiftErrors.frame = s.frame := by unfold State.shiftErrors; split <;> rfl
@[simp] theorem State.shiftErrors_row : s.shiftErrors.row = s.row := by unfold State.shiftErrors; split <;> rfl
@[simp] theorem State.shiftErrors_col : s.shiftErrors.col = s.col := by unfold State.shiftErrors; split <;> rfl
@[simp] theorem State.shiftErrors_scanColorMax : s.shiftErrors.scanColorMax = s.scanColorMax := by unfold State.shiftErrors; split <;> rfl
@[simp] theorem State.shiftErrors_scanAlphaMin : s.shiftErrors.scanAlphaMin = s.scanAlphaMin := by unfold State.shiftErrors; split <;> rfl
@[simp] theorem State.shiftErrors_scanCount : s.shiftErrors.scanCount = s.scanCount := by unfold State.shiftErrors; split <;> rfl
@[simp] theorem State.shiftErrors_alphaOnly : s.shiftErrors.alphaOnly = s.alphaOnly := by unfold State.shiftErrors; split <;> rfl
@[simp] theorem State.shiftErrors_srcMode : s.shiftErrors.srcMode = s.srcMode := by unfold State.shiftErrors; split <;> rfl
@[simp] theorem State.shiftErrors_errCur : s.shiftErrors.errCur = if s.job.format = .binary ∧ s.job.dither = .floydSteinberg then s.errNxt else s.errCur := by unfold State.shiftErrors; split <;> simp [*]
@[simp] theorem State.shiftErrors_errNxt : s.shiftErrors.errNxt = if s.job.format = .binary ∧ s.job.dither = .floydSteinberg then zeroCells s.errNxt else s.errNxt := by unfold State.shiftErrors; split <;> simp [*]
@[simp] theorem State.shiftErrors_errCode : s.shiftErrors.errCode = s.errCode := by unfold State.shiftErrors; split <;> rfl
@[simp] theorem State.shiftErrors_warnOversize : s.shiftErrors.warnOversize = s.warnOversize := by unfold State.shiftErrors; split <;> rfl
@[simp] theorem State.shiftErrors_warnAlphaOnly : s.shiftErrors.warnAlphaOnly = s.warnAlphaOnly := by unfold State.shiftErrors; split <;> rfl
@[simp] theorem State.shiftErrors_warnFrames : s.shiftErrors.warnFrames = s.warnFrames := by unfold State.shiftErrors; split <;> rfl
@[simp] theorem State.shiftErrors_params : s.shiftErrors.params = s.params := by unfold State.shiftErrors; split <;> rfl
@[simp] theorem State.shiftErrors_inputs : s.shiftErrors.inputs = s.inputs := by unfold State.shiftErrors; split <;> rfl

/-! ## `State.nextRow` -/

@[simp] theorem State.nextRow_job : s.nextRow.job = s.job := by unfold State.nextRow; split <;> rfl
@[simp] theorem State.nextRow_enc : s.nextRow.enc = s.enc := by unfold State.nextRow; split <;> rfl
@[simp] theorem State.nextRow_buffer : s.nextRow.buffer = s.buffer := by unfold State.nextRow; split <;> rfl
@[simp] theorem State.nextRow_writeIndex : s.nextRow.writeIndex = s.writeIndex := by unfold State.nextRow; split <;> rfl
@[simp] theorem State.nextRow_bitCursor : s.nextRow.bitCursor = s.bitCursor := by unfold State.nextRow; split <;> rfl
@[simp] theorem State.nextRow_phase : s.nextRow.phase = if s.row + 1 = s.job.height.toNat then (if s.frame + 1 = s.enc.frameCount.toNat then .done else .ready) else s.phase := by unfold State.nextRow; split <;> simp [*]
@[simp] theorem State.nextRow_frame : s.nextRow.frame = if s.row + 1 = s.job.height.toNat then s.frame + 1 else s.frame := by unfold State.nextRow; split <;> simp [*]
@[simp] theorem State.nextRow_row : s.nextRow.row = if s.row + 1 = s.job.height.toNat then 0 else s.row + 1 := by unfold State.nextRow; split <;> simp [*]
@[simp] theorem State.nextRow_col : s.nextRow.col = 0 := by unfold State.nextRow; split <;> simp [*]
@[simp] theorem State.nextRow_scanColorMax : s.nextRow.scanColorMax = s.scanColorMax := by unfold State.nextRow; split <;> rfl
@[simp] theorem State.nextRow_scanAlphaMin : s.nextRow.scanAlphaMin = s.scanAlphaMin := by unfold State.nextRow; split <;> rfl
@[simp] theorem State.nextRow_scanCount : s.nextRow.scanCount = s.scanCount := by unfold State.nextRow; split <;> rfl
@[simp] theorem State.nextRow_alphaOnly : s.nextRow.alphaOnly = s.alphaOnly := by unfold State.nextRow; split <;> rfl
@[simp] theorem State.nextRow_srcMode : s.nextRow.srcMode = s.srcMode := by unfold State.nextRow; split <;> rfl
@[simp] theorem State.nextRow_errCur : s.nextRow.errCur = s.errCur := by unfold State.nextRow; split <;> rfl
@[simp] theorem State.nextRow_errNxt : s.nextRow.errNxt = s.errNxt := by unfold State.nextRow; split <;> rfl
@[simp] theorem State.nextRow_errCode : s.nextRow.errCode = s.errCode := by unfold State.nextRow; split <;> rfl
@[simp] theorem State.nextRow_warnOversize : s.nextRow.warnOversize = s.warnOversize := by unfold State.nextRow; split <;> rfl
@[simp] theorem State.nextRow_warnAlphaOnly : s.nextRow.warnAlphaOnly = s.warnAlphaOnly := by unfold State.nextRow; split <;> rfl
@[simp] theorem State.nextRow_warnFrames : s.nextRow.warnFrames = s.warnFrames := by unfold State.nextRow; split <;> rfl
@[simp] theorem State.nextRow_params : s.nextRow.params = s.params := by unfold State.nextRow; split <;> rfl
@[simp] theorem State.nextRow_inputs : s.nextRow.inputs = s.inputs := by unfold State.nextRow; split <;> rfl

end Sys2Proof.Machine
end

