-- ==== Sys2Proof/Laws/Ops.lean ====
section
/-! SUPPORT. One lemma per shared operation of Machine/Ops.lean that says everything it can do. -/

namespace Sys2Proof.Machine

/-! ## Memory access -/

theorem memRead_of_lt {a : Nat} {s : State} (h : a < s.enc.bufLen) : memRead a s = .ok (s.byteAt a) := if_pos h

theorem memWrite_of_lt {a : Nat} {s : State} (v : Byte) (h : a < s.enc.bufLen) : memWrite a v s = .ok (s.putByte a v) :=
  if_pos h

theorem memWrite_ok {a : Nat} {v : Byte} {s t : State} (h : memWrite a v s = .ok t) :
    a < s.enc.bufLen ∧ t = s.putByte a v := by
  unfold memWrite at h
  split at h
  · exact ⟨‹_›, (Except.ok.inj h).symm⟩
  · cases h

theorem State.byteAt_putByte {s : State} {a : Nat} (v : Byte) (hm : Memory.wf s.buffer = true) (b : Nat) :
    (s.putByte a v).byteAt b = if b = a then v else s.byteAt b := by
  split
  next h => subst h; exact Memory.get_set_eq b v hm
  next h => exact Memory.get_set_ne v h

/-! ## Appending bytes -/

theorem appendByte_of_lt {v : Byte} {s : State} (h : s.writeIndex < s.enc.bufLen) :
    appendByte v s = .ok { s with buffer := Memory.set s.buffer s.writeIndex v, writeIndex := s.writeIndex + 1 } := by
  rw [appendByte, memWrite_of_lt v h]; rfl

theorem appendByte_ok {v : Byte} {s t : State} (h : appendByte v s = .ok t) :
    s.writeIndex < s.enc.bufLen ∧ t = { s with buffer := Memory.set s.buffer s.writeIndex v, writeIndex := s.writeIndex + 1 } := by
  unfold appendByte at h
  split at h
  next u hu =>
    obtain ⟨h1, rfl⟩ := memWrite_ok hu
    exact ⟨h1, (Except.ok.inj h).symm⟩
  · cases h

/-- What appending does when it answers: the bytes go in, nothing else changes. -/
theorem appendBytes_ok {vs : List Byte} {s t : State} (h : appendBytes vs s = .ok t) :
    t = { s with buffer := t.buffer, writeIndex := s.writeIndex + vs.length } ∧
    (vs ≠ [] → s.writeIndex + vs.length ≤ s.enc.bufLen) ∧
    ∀ a, a < s.writeIndex ∨ s.writeIndex + vs.length ≤ a → t.byteAt a = s.byteAt a := by
  induction vs generalizing s with
  | nil =>
    cases h
    exact ⟨rfl, fun h => absurd rfl h, fun a _ => rfl⟩
  | cons v vs ih =>
    unfold appendBytes at h
    split at h
    next u hu =>
      obtain ⟨hlt, rfl⟩ := appendByte_ok hu
      obtain ⟨h1, h2, h3⟩ := ih h
      refine ⟨?_, fun _ => ?_, fun a ha => ?_⟩
      · rw [List.length_cons, show s.writeIndex + (vs.length + 1) = s.writeIndex + 1 + vs.length by omega]
        exact h1
      · cases vs with
        | nil => simpa using hlt
        | cons w ws => have := h2 (by simp); simp at this ⊢; omega
      · rw [h3 a (by simp at ha ⊢; omega)]
        exact Memory.get_set_ne v (by simp at ha; omega)
    · cases h

/-- Appending answers when the bytes fit, and they read back in order. -/
theorem appendBytes_of_le {vs : List Byte} {s : State} (hm : Memory.wf s.buffer = true)
    (h : s.writeIndex + vs.length ≤ s.enc.bufLen) :
    ∃ m, appendBytes vs s = .ok { s with buffer := m, writeIndex := s.writeIndex + vs.length } ∧
      Memory.wf m = true ∧ (Memory.below s.enc.bufLen s.buffer = true → Memory.below s.enc.bufLen m = true) ∧
      (∀ k v, vs[k]? = some v → Memory.get m (s.writeIndex + k) = v) ∧
      ∀ a, a < s.writeIndex ∨ s.writeIndex + vs.length ≤ a → Memory.get m a = s.byteAt a := by
  induction vs generalizing s with
  | nil => exact ⟨s.buffer, rfl, hm, id, fun k v hv => by simp at hv, fun a _ => rfl⟩
  | cons v vs ih =>
    simp only [List.length_cons] at h
    have hlt : s.writeIndex < s.enc.bufLen := by omega
    obtain ⟨m, h1, h2, h3, h4, h5⟩ := ih (s := { s with buffer := Memory.set s.buffer s.writeIndex v, writeIndex := s.writeIndex + 1 })
      (Memory.wf_set _ v hm) (by simp; omega)
    refine ⟨m, ?_, h2, fun hb => h3 (Memory.below_set v hlt hb), ?_, ?_⟩
    · rw [appendBytes, appendByte_of_lt hlt, List.length_cons,
        show s.writeIndex + (vs.length + 1) = s.writeIndex + 1 + vs.length by omega]
      exact h1
    · intro k w hw
      cases k with
      | zero =>
        simp at hw
        subst hw
        have := h5 s.writeIndex (.inl (by simp))
        rw [Nat.add_zero, this]
        exact Memory.get_set_eq _ v hm
      | succ k =>
        have := h4 k w (by simpa using hw)
        rwa [show s.writeIndex + (k + 1) = s.writeIndex + 1 + k by omega]
    · intro a ha
      simp only [List.length_cons] at ha
      rw [h5 a (by simp; omega)]
      exact Memory.get_set_ne v (by omega)

/-! ## The Binary packer -/

theorem setCursorBit_of_lt {s : State} (h : s.writeIndex < s.enc.bufLen) :
    setCursorBit s = .ok (s.putByte s.writeIndex (s.byteAt s.writeIndex ||| bitMask s.bitCursor)) := by
  rw [setCursorBit, memRead_of_lt h]; exact memWrite_of_lt _ h

theorem setCursorBit_ok {s t : State} (h : setCursorBit s = .ok t) :
    s.writeIndex < s.enc.bufLen ∧
      t = s.putByte s.writeIndex (s.byteAt s.writeIndex ||| bitMask s.bitCursor) := by
  by_cases hlt : s.writeIndex < s.enc.bufLen
  · rw [setCursorBit_of_lt hlt] at h
    exact ⟨hlt, (Except.ok.inj h).symm⟩
  · simp [setCursorBit, memRead, hlt] at h

/-- What the Binary packer does when it answers: the bit after inversion is ORed in, or nothing is stored; then the
cursor advances. -/
theorem packBinary_ok {bit : Bool} {s t : State} (h : packBinary bit s = .ok t) :
    ((bit ^^ s.job.invertAlpha) = false ∧ t = s.advanceBit) ∨
    ((bit ^^ s.job.invertAlpha) = true ∧ s.writeIndex < s.enc.bufLen ∧
      t = (s.putByte s.writeIndex (s.byteAt s.writeIndex ||| bitMask s.bitCursor)).advanceBit) := by
  unfold packBinary at h
  split at h
  next hb =>
    split at h
    next u hu =>
      obtain ⟨hlt, rfl⟩ := setCursorBit_ok hu
      exact .inr ⟨hb, hlt, (Except.ok.inj h).symm⟩
    · cases h
  next hb => exact .inl ⟨by simpa using hb, (Except.ok.inj h).symm⟩

/-- It answers wherever the current byte exists. -/
theorem packBinary_of_lt {s : State} (bit : Bool) (h : s.writeIndex < s.enc.bufLen) :
    packBinary bit s = .ok
      (if (bit ^^ s.job.invertAlpha) then
        s.putByte s.writeIndex (s.byteAt s.writeIndex ||| bitMask s.bitCursor) else s).advanceBit := by
  unfold packBinary
  rw [setCursorBit_of_lt h]
  split <;> rfl

/-! ## The normaliser -/

theorem fsStep_ok {m : Byte} {s t : State} {bit : Bool} (h : fsStep m s = .ok (bit, t)) :
    (bit, t.errCur, t.errNxt) =
      s.params.fs.apply s.params.tMono s.job.width.toNat m s.col s.errCur s.errNxt ∧
    t = s.withCells t.errCur t.errNxt := by
  unfold fsStep at h
  split at h
  · simp only [Except.ok.injEq, Prod.mk.injEq] at h
    obtain ⟨rfl, rfl⟩ := h
    exact ⟨rfl, rfl⟩
  · cases h

theorem fsStep_of_lt {m : Byte} {s : State} (h : s.col < s.errCur.length ∧ s.col < s.errNxt.length) :
    ∃ bit cur nxt, fsStep m s = .ok (bit, s.withCells cur nxt) ∧
      (bit, cur, nxt) = s.params.fs.apply s.params.tMono s.job.width.toNat m s.col s.errCur s.errNxt :=
  ⟨_, _, _, if_pos h, rfl⟩

/-- Normalising a Binary pixel changes at most the dither cells, and those only in a Floyd-Steinberg job. -/
theorem normBinary_ok {p : Pixel} {s t : State} {bit : Bool} (h : normBinary p s = .ok (bit, t)) :
    t = s.withCells t.errCur t.errNxt ∧
    (s.job.dither = .noDither → t = s ∧ bit = mono1 s.params.tMono (monoSource s.params.luma s.alphaOnly p)) ∧
    (s.job.dither = .floydSteinberg → (bit, t.errCur, t.errNxt) = s.params.fs.apply s.params.tMono s.job.width.toNat
      (monoSource s.params.luma s.alphaOnly p) s.col s.errCur s.errNxt) := by
  unfold normBinary at h
  split at h
  next hd =>
    simp only [Except.ok.injEq, Prod.mk.injEq] at h
    obtain ⟨rfl, rfl⟩ := h
    exact ⟨rfl, fun _ => ⟨rfl, rfl⟩, fun h => (by rw [hd] at h; cases h)⟩
  next hd =>
    obtain ⟨h1, h2⟩ := fsStep_ok h
    exact ⟨h2, fun h => (by rw [hd] at h; cases h), fun _ => h1⟩

@[simp] theorem length_addAt (cs : List Int) (i : Nat) (d : Int) : (addAt cs i d).length = cs.length := by
  induction cs generalizing i with
  | nil => rfl
  | cons c cs ih => cases i <;> simp [addAt, ih]

theorem getD_addAt (cs : List Int) (i j : Nat) (d : Int) :
    (addAt cs i d).getD j 0 = cs.getD j 0 + if i = j ∧ j < cs.length then d else 0 := by
  induction cs generalizing i j with
  | nil => simp [addAt]
  | cons c cs ih =>
    cases i with
    | zero => cases j <;> simp [addAt]
    | succ i =>
      cases j with
      | zero => simp [addAt]
      | succ j =>
        have := ih i j
        simp only [List.getD_cons_succ, addAt, this, List.length_cons, Nat.add_lt_add_iff_right, Nat.add_right_cancel_iff]

@[simp] theorem length_fitCells (n : Nat) (cells : List Int) : (fitCells n cells).length = n := by
  simp [fitCells]

@[simp] theorem length_zeroCells (cells : List Int) : (zeroCells cells).length = cells.length := by simp [zeroCells]

theorem mem_zeroCells {cells : List Int} {c : Int} (h : c ∈ zeroCells cells) : c = 0 := (List.mem_replicate.1 h).2

/-- The dither step keeps the number of cells, whichever step the block has. -/
theorem length_apply (fs : FsParam) (tMono : Byte) (width : Nat) (m : Byte) (x : Nat) (cur nxt : List Int) :
    (fs.apply tMono width m x cur nxt).2.1.length = cur.length ∧
    (fs.apply tMono width m x cur nxt).2.2.length = nxt.length := by
  cases fs with
  | standard =>
    simp only [FsParam.apply, distributeCur, distributeNxt]
    refine ⟨?_, ?_⟩ <;> repeat' split
    all_goals simp
  | other n => simp [FsParam.apply]

/-! ## Errors, shells and outcomes -/

theorem unlessFailed_of_ne {s : State} (r : Result) (h : s.phase ≠ .failed) : unlessFailed s r = r := if_neg h

theorem unlessFailed_failed {s : State} (r : Result) (h : s.phase = .failed) : unlessFailed s r = .next s := if_pos h

/-- What a pixel command's checks let through (R254). -/
theorem pixelShell_of_open {src : SrcMode} {s : State} (r : Result) (h1 : s.phase = .encoding) (h2 : s.srcMode = src)
    (h3 : s.col ≠ s.job.width.toNat) : pixelShell src s r = r := by
  simp [pixelShell, unlessFailed, h1, h2, h3]

/-- Everything a pixel command's checks can do. -/
theorem pixelShell_next {src : SrcMode} {s t : State} {r : Result} (h : pixelShell src s r = .next t) :
    (s.phase = .failed ∧ t = s) ∨
    (s.phase ≠ .failed ∧ (s.phase ≠ .encoding ∨ s.srcMode ≠ src) ∧ t = s.raise .protoOrder) ∨
    (s.phase = .encoding ∧ s.srcMode = src ∧ s.col = s.job.width.toNat ∧ t = s.raise .protoRow) ∨
    (s.phase = .encoding ∧ s.srcMode = src ∧ s.col ≠ s.job.width.toNat ∧ r = .next t) := by
  unfold pixelShell unlessFailed at h
  split at h
  next hf => cases h; exact .inl ⟨hf, rfl⟩
  next hf =>
    split at h
    next ho => cases h; exact .inr (.inl ⟨hf, ho, rfl⟩)
    next ho =>
      push Not at ho
      split at h
      next hr => cases h; exact .inr (.inr (.inl ⟨ho.1, ho.2, hr, rfl⟩))
      next hr => exact .inr (.inr (.inr ⟨ho.1, ho.2, hr, h⟩))

theorem finishPixel_next {r : Except Fault State} {t : State} (h : finishPixel r = .next t) :
    ∃ u, r = .ok u ∧ t = { u with col := u.col + 1 } := by
  cases r with
  | ok u => cases h; exact ⟨u, rfl, rfl⟩
  | error f => cases h

/-- Checks 2 to 6 all pass exactly when the job is legal and fits (R122). -/
theorem cfgCheckJob_none {bufMax : Option Nat} {d : CfgFields} {t : Transparency} :
    cfgCheckJob bufMax d t = none ↔
      d.width ≠ 0 ∧ d.height ≠ 0 ∧ transpAllowed d.format t = true ∧
      (d.invertAlpha = true → invertLegal d.format t = true) ∧
      (d.boSet = true → supportsByteOrder d.format = true) ∧ fitsBuffer bufMax (bufLenOf d t) = true := by
  unfold cfgCheckJob
  split_ifs with h1 h2 h3 h4 h5
  · exact ⟨fun h => (nomatch h), fun h => absurd h1 (not_or.2 ⟨h.1, h.2.1⟩)⟩
  all_goals simp_all

/-- The configuration check answers a mode exactly when every check of R122 passes. -/
theorem cfgCheck_ok {bufMax : Option Nat} {d : CfgFields} {t : Transparency} :
    cfgCheck bufMax d = .ok t ↔ Transparency.ofCode d.transp = some t ∧ cfgCheckJob bufMax d t = none := by
  unfold cfgCheck
  split
  next h => simp [h]
  next u h =>
    split
    next c hc =>
      refine ⟨fun h => (nomatch h), fun ⟨h1, h2⟩ => ?_⟩
      rw [h] at h1; cases h1; rw [hc] at h2; cases h2
    next hc =>
      refine ⟨fun h1 => ?_, fun ⟨h1, _⟩ => ?_⟩
      · cases h1; exact ⟨h, hc⟩
      · rw [h] at h1; cases h1; rfl

theorem sourceError_ne_none (cause : BitVec 2) : sourceError cause ≠ .none := by
  unfold sourceError
  repeat' split
  all_goals exact fun h => nomatch h

theorem cfgCheckJob_ne_none {bufMax : Option Nat} {d : CfgFields} {t : Transparency} {c : ErrCode}
    (h : cfgCheckJob bufMax d t = some c) : c ≠ .none := by
  unfold cfgCheckJob at h
  split_ifs at h
  all_goals cases h; exact fun h => nomatch h

theorem cfgCheck_error_ne_none {bufMax : Option Nat} {d : CfgFields} {c : ErrCode} (h : cfgCheck bufMax d = .error c) :
    c ≠ .none := by
  unfold cfgCheck at h
  split at h
  · cases h; exact fun h => nomatch h
  · split at h
    next hc => cases h; exact cfgCheckJob_ne_none hc
    · cases h

end Sys2Proof.Machine
end

