-- ==== Sys2Proof/Laws/Commands.lean ====
section
/-! SUPPORT. What each command other than the pixel commands can do, said once: if it answers `next t`, then one of the
listed cases holds, with its guards. -/

namespace Sys2Proof.Machine

theorem execCfg_next {d : CfgFields} {s t : State} (h : execCfg d s = .next t) :
    ((s.phase = .ready ∨ s.phase = .encoding) ∧ t = s.raise .protoOrder) ∨
    (s.phase ≠ .ready ∧ s.phase ≠ .encoding ∧
      ((∃ c, cfgCheck s.params.bufMax d = .error c ∧ t = s.clearWarnings.raise c) ∨
       (∃ tr, cfgCheck s.params.bufMax d = .ok tr ∧ t = s.clearWarnings.configure d tr))) := by
  unfold execCfg at h
  split_ifs at h with hp
  · cases h; exact .inl ⟨hp, rfl⟩
  · push Not at hp
    split at h <;> cases h
    · exact .inr ⟨hp.1, hp.2, .inl ⟨_, ‹_›, rfl⟩⟩
    · exact .inr ⟨hp.1, hp.2, .inr ⟨_, ‹_›, rfl⟩⟩

theorem execScan_next {p : Pixel} {s t : State} (h : execScan p s = .next t) :
    (s.phase = .failed ∧ t = s) ∨ (s.phase ≠ .failed ∧ s.phase ≠ .ready ∧ t = s.raise .protoOrder) ∨
    (s.phase = .ready ∧ t = s.accumulate p) := by
  unfold execScan unlessFailed at h
  split_ifs at h <;> cases h <;> simp_all

theorem execFrm_next {src : SrcMode} {s t : State} (h : execFrm src s = .next t) :
    (s.phase = .failed ∧ t = s) ∨ (s.phase ≠ .failed ∧ s.phase ≠ .ready ∧ t = s.raise .protoOrder) ∨
    (s.phase = .ready ∧ s.needsScan src = true ∧ s.scanCount ≠ s.job.width.toNat * s.job.height.toNat ∧
      t = s.raise .protoScan) ∨
    (s.phase = .ready ∧ (s.needsScan src = true → s.scanCount = s.job.width.toNat * s.job.height.toNat) ∧
      t = s.startFrame src) := by
  unfold execFrm unlessFailed at h
  split_ifs at h <;> cases h <;> simp_all

theorem execEor_next {s t : State} (h : execEor s = .next t) :
    (s.phase = .failed ∧ t = s) ∨ (s.phase ≠ .failed ∧ s.phase ≠ .encoding ∧ t = s.raise .protoOrder) ∨
    (s.phase = .encoding ∧ s.col ≠ s.job.width.toNat ∧ t = s.raise .protoRow) ∨
    (s.phase = .encoding ∧ s.col = s.job.width.toNat ∧ t = s.padRow.shiftErrors.nextRow) := by
  unfold execEor unlessFailed at h
  split_ifs at h <;> cases h <;> simp_all

theorem execAbt_next {cause : BitVec 2} {s t : State} (h : execAbt cause s = .next t) :
    (s.phase = .failed ∧ t = s) ∨
    (s.phase ≠ .failed ∧ cause = 3 ∧ t = s.raise .illegalCmd) ∨
    (s.phase = .done ∧ cause ≠ 3 ∧ t = s.raise .protoOrder) ∨
    (s.phase ≠ .failed ∧ s.phase ≠ .done ∧ cause ≠ 3 ∧ t = s.raise (sourceError cause)) := by
  unfold execAbt illegalWord unlessFailed at h
  split_ifs at h <;> cases h <;> simp_all

end Sys2Proof.Machine
end

