-- ==== Sys2Proof/Laws/Decode.lean ====
section
/-! SUPPORT. Fields of concatenated words, and the codes of the enumerations read back. -/

namespace Sys2Proof

/-! ## Fields -/

/-- A field of a word is a field of the low part when it lies in it. -/
theorem field_append_low {m n : Nat} (hi : BitVec m) (lo : BitVec n) (h : m + n = 64) {start len : Nat}
    (hl : start + len ≤ n) : field ((hi ++ lo).cast h) start len = lo.extractLsb' start len := by
  apply BitVec.eq_of_getLsbD_eq
  intro i hi'
  simp only [field, BitVec.getLsbD_extractLsb', BitVec.getLsbD_cast, BitVec.getLsbD_append]
  rw [if_pos (by omega)]

/-- The opcode of an encoded instruction. -/
theorem field_op_encode (i : Instr) : field (encode i) 60 4 = i.opcode := by
  unfold encode field
  exact BitVec.extractLsb'_append_eq_left

/-- A field below the opcode is a field of the body. -/
theorem field_encode (i : Instr) {start len : Nat} (h : start + len ≤ 60) :
    field (encode i) start len = i.body.extractLsb' start len :=
  field_append_low i.opcode i.body rfl h

theorem flag_encode (i : Instr) {k : Nat} (h : k < 60) : flag (encode i) k = i.body.getLsbD k := by
  unfold encode flag
  rw [BitVec.getLsbD_append, if_pos h]

theorem extract_payloadBody (p : BitVec 32) : (payloadBody p).extractLsb' 0 32 = p := by
  unfold payloadBody
  exact BitVec.extractLsb'_append_eq_right

theorem reserved_payloadBody (p : BitVec 32) : (payloadBody p).extractLsb' 32 28 = 0 := by
  unfold payloadBody
  exact BitVec.extractLsb'_append_eq_left

theorem unlessReserved_ok {n : Nat} {v : BitVec n} {i j : Instr} :
    unlessReserved v i = .ok j ↔ v = 0 ∧ i = j := by
  unfold unlessReserved
  split
  next h => exact ⟨fun e => ⟨h, Except.ok.inj e⟩, fun e => e.2 ▸ rfl⟩
  next h => exact ⟨fun e => (nomatch e), fun e => absurd e.1 h⟩

/-! ## Codes -/

@[simp] theorem Format.ofCode_code (f : Format) : Format.ofCode f.code = f := by cases f <;> rfl

@[simp] theorem Format.code_ofCode (c : BitVec 2) : (Format.ofCode c).code = c := by revert c; decide

@[simp] theorem Transparency.ofCode_code (t : Transparency) : Transparency.ofCode t.code = some t := by cases t <;> rfl

theorem Transparency.ofCode_eq_none {c : BitVec 2} : Transparency.ofCode c = none ↔ c = 3 := by revert c; decide

@[simp] theorem Dither.ofCode_code (d : Dither) : Dither.ofCode d.code = d := by cases d <;> rfl

@[simp] theorem Dither.code_ofCode (c : Bool) : (Dither.ofCode c).code = c := by cases c <;> rfl

@[simp] theorem ByteOrder.ofCode_code (o : ByteOrder) : ByteOrder.ofCode o.code = o := by cases o <;> rfl

@[simp] theorem ByteOrder.code_ofCode (c : Bool) : (ByteOrder.ofCode c).code = c := by cases c <;> rfl

@[simp] theorem SrcMode.ofCode_code (m : SrcMode) : SrcMode.ofCode m.code = m := by cases m <;> rfl

@[simp] theorem SrcMode.code_ofCode (c : Bool) : (SrcMode.ofCode c).code = c := by cases c <;> rfl

/-- A source pixel's payload holds its four channels. -/
@[simp] theorem pixelOfPayload_payload (p : Pixel) : pixelOfPayload p.payload = p := by
  cases p with
  | mk r g b a =>
    have h : ∀ {k : Nat} (v : Byte), (∀ i, i < 8 → (Pixel.payload ⟨r, g, b, a⟩).getLsbD (k + i) = v.getLsbD i) →
        (Pixel.payload ⟨r, g, b, a⟩).extractLsb' k 8 = v := by
      intro k v hv
      apply BitVec.eq_of_getLsbD_eq
      intro i hi
      rw [BitVec.getLsbD_extractLsb', hv i hi]
      simp [hi]
    simp only [pixelOfPayload, Pixel.mk.injEq]
    refine ⟨h r ?_, h g ?_, h b ?_, h a ?_⟩ <;> intro i hi <;>
      simp only [Pixel.payload, BitVec.getLsbD_append]
    · rw [if_neg (by omega), if_neg (by omega), if_neg (by omega)]; congr 1; omega
    · rw [if_neg (by omega), if_neg (by omega), if_pos (by omega)]; congr 1; omega
    · rw [if_neg (by omega), if_pos (by omega)]; congr 1; omega
    · rw [if_pos (by omega)]; congr 1; omega

/-- Whether a word is legal does not depend on the format (R104: decoding reads no state). -/
theorem decode_error_any_format {f g : Format} {w : CmdWord} {e : DecodeError} (h : decode f w = .error e) :
    decode g w = .error e := by
  unfold decode at h ⊢
  simp only at h ⊢
  split_ifs at h ⊢ <;> first | exact h | (unfold unlessReserved at h ⊢; split_ifs at h ⊢; exact h)

end Sys2Proof
end

