-- ==== Sys2Proof/Laws/PerInstr.lean ====
section
/-! SUPPORT. The family `OpcodeField`: the opcode of every instruction's word is one of the eight of
spec/30_encoding.md R97, and the decoder reads it back from bits 63 to 60. -/

namespace Sys2Proof.Laws.OpcodeField

/-- Bits 63:60 of the encoded word are the instruction's opcode, and that opcode is not reserved (R97, R103). -/
def Statement (i : Instr) : Prop :=
  field (encode i) 60 4 = i.opcode ∧ i.opcode ∈ [1#4, 2#4, 3#4, 4#4, 5#4, 6#4, 7#4, 15#4]

theorem cfg (d : CfgFields) : Statement (.cfg d) := ⟨field_op_encode _, by simp [Instr.opcode]⟩
theorem scan (p : Pixel) : Statement (.scan p) := ⟨field_op_encode _, by simp [Instr.opcode]⟩
theorem frm (src : SrcMode) : Statement (.frm src) := ⟨field_op_encode _, by simp [Instr.opcode]⟩
theorem pix (p : Pixel) : Statement (.pix p) := ⟨field_op_encode _, by simp [Instr.opcode]⟩
theorem encB (payload : BitVec 32) : Statement (.encB payload) := ⟨field_op_encode _, by simp [Instr.opcode]⟩
theorem encG (payload : BitVec 32) : Statement (.encG payload) := ⟨field_op_encode _, by simp [Instr.opcode]⟩
theorem enc565 (payload : BitVec 32) : Statement (.enc565 payload) := ⟨field_op_encode _, by simp [Instr.opcode]⟩
theorem encRGB (payload : BitVec 32) : Statement (.encRGB payload) := ⟨field_op_encode _, by simp [Instr.opcode]⟩
theorem eor : Statement .eor := ⟨field_op_encode _, by simp [Instr.opcode]⟩
theorem abt (cause : BitVec 2) : Statement (.abt cause) := ⟨field_op_encode _, by simp [Instr.opcode]⟩
theorem rst : Statement .rst := ⟨field_op_encode _, by simp [Instr.opcode]⟩

end Sys2Proof.Laws.OpcodeField
end

