-- ==== Sys2Proof/Laws/Pixels.lean ====
section
/-! SUPPORT. What the pixel commands can do, said once (`PixelNext`): the packers and the normaliser change the output
registers and the dither cells only, and never a byte already passed (`Packed`). -/

namespace Sys2Proof.Machine

/-- `t` differs from `s` at most in the output registers and the dither cells, with no byte below the old write
position or above the new one changed. -/
def Packed (s t : State) : Prop :=
  t = { s with buffer := t.buffer, writeIndex := t.writeIndex, bitCursor := t.bitCursor, errCur := t.errCur,
               errNxt := t.errNxt } ∧
  s.writeIndex ≤ t.writeIndex ∧ ∀ a, a < s.writeIndex ∨ t.writeIndex < a → t.byteAt a = s.byteAt a

theorem packed_appendBytes {vs : List Byte} {s t : State} (h : appendBytes vs s = .ok t) : Packed s t := by
  obtain ⟨h1, -, h3⟩ := appendBytes_ok h
  have hw : t.writeIndex = s.writeIndex + vs.length := by rw [h1]
  refine ⟨?_, by omega, fun a ha => h3 a (by omega)⟩
  rw [hw]; exact h1.trans (by rw [h1])

theorem packGray_eq (luma alpha : Byte) (s : State) :
    packGray luma alpha s = appendBytes [grayByte s.enc.transp s.job.invertAlpha luma alpha] s := by
  unfold packGray appendBytes appendBytes
  split <;> simp_all

theorem packed_gray {luma alpha : Byte} {s t : State} (h : packGray luma alpha s = .ok t) : Packed s t :=
  packed_appendBytes (packGray_eq luma alpha s ▸ h)

theorem packed_advanceBit (s : State) : Packed s s.advanceBit := by
  refine ⟨?_, ?_, fun a _ => by simp [State.byteAt]⟩
  · unfold State.advanceBit; split <;> rfl
  · simp only [State.advanceBit_writeIndex]; split <;> omega

theorem packed_binary {bit : Bool} {s t : State} (h : packBinary bit s = .ok t) : Packed s t := by
  rcases packBinary_ok h with ⟨-, rfl⟩ | ⟨-, -, rfl⟩
  · exact packed_advanceBit s
  · refine ⟨?_, ?_, fun a ha => ?_⟩
    · unfold State.advanceBit; split <;> rfl
    · simp only [State.advanceBit_writeIndex, State.putByte_writeIndex]; split <;> omega
    · simp only [State.byteAt, State.advanceBit_buffer]
      exact Memory.get_set_ne _ (by simp only [State.advanceBit_writeIndex, State.putByte_writeIndex] at ha; split at ha <;> omega)

/-- PIX's packing changes what `Packed` says (R145). -/
theorem packed_encodeSource {p : Pixel} {s t : State} (h : encodeSource p s = .ok t) : Packed s t := by
  unfold encodeSource at h
  split at h
  · split at h
    next bit u hu =>
      obtain ⟨cur, nxt, rfl⟩ : ∃ cur nxt, u = s.withCells cur nxt := ⟨_, _, (normBinary_ok hu).1⟩
      have := packed_binary h
      exact ⟨this.1, this.2⟩
    · cases h
  · exact packed_gray h
  · exact packed_appendBytes h
  · exact packed_appendBytes h

/-- Everything a pixel command fed by `src` can do, when `r` is what its packer answers and `legal` says that its
payload's must-be-zero bits are 0 (R145, R171, R254). -/
inductive PixelNext (src : SrcMode) (legal : Prop) (r : Except Fault State) (s : State) : State → Prop
  | ignored (failed : s.phase = .failed) : PixelNext src legal r s s
  | order (h : s.phase ≠ .failed) (bad : s.phase ≠ .encoding ∨ s.srcMode ≠ src) :
      PixelNext src legal r s (s.raise .protoOrder)
  | row (h : s.phase = .encoding) (fed : s.srcMode = src) (full : s.col = s.job.width.toNat) :
      PixelNext src legal r s (s.raise .protoRow)
  | illegal (h : s.phase = .encoding) (fed : s.srcMode = src) (room : s.col ≠ s.job.width.toNat) (bad : ¬legal) :
      PixelNext src legal r s (s.raise .illegalCmd)
  | packed (h : s.phase = .encoding) (fed : s.srcMode = src) (room : s.col ≠ s.job.width.toNat) (ok : legal)
      (u : State) (hu : r = .ok u) (pack : Packed s u) : PixelNext src legal r s { u with col := u.col + 1 }

theorem pixelShell_packed {src : SrcMode} {s t : State} {r : Except Fault State} (hp : ∀ u, r = .ok u → Packed s u)
    (h : pixelShell src s (finishPixel r) = .next t) : PixelNext src True r s t := by
  rcases pixelShell_next h with ⟨h1, rfl⟩ | ⟨h1, h2, rfl⟩ | ⟨h1, h2, h3, rfl⟩ | ⟨h1, h2, h3, h4⟩
  · exact .ignored h1
  · exact .order h1 h2
  · exact .row h1 h2 h3
  · obtain ⟨u, hu, rfl⟩ := finishPixel_next h4
    exact .packed h1 h2 h3 trivial u hu (hp u hu)

theorem encShell_packed {restZero : Bool} {pack : State → Except Fault State} {s t : State}
    (hp : ∀ u, pack s = .ok u → Packed s u) (h : encShell restZero pack s = .next t) :
    PixelNext .canon (restZero = true) (pack s) s t := by
  rcases pixelShell_next h with ⟨h1, rfl⟩ | ⟨h1, h2, rfl⟩ | ⟨h1, h2, h3, rfl⟩ | ⟨h1, h2, h3, h4⟩
  · exact .ignored h1
  · exact .order h1 h2
  · exact .row h1 h2 h3
  · cases restZero with
    | true =>
      obtain ⟨u, hu, rfl⟩ := finishPixel_next h4
      exact .packed h1 h2 h3 rfl u hu (hp u hu)
    | false => cases h4; exact .illegal h1 h2 h3 Bool.false_ne_true

theorem execPix_next {p : Pixel} {s t : State} (h : execPix p s = .next t) :
    PixelNext .raw True (encodeSource p s) s t := pixelShell_packed (fun _ => packed_encodeSource) h

theorem execEncB_next {q : BitVec 32} {s t : State} (h : execEncB q s = .next t) :
    PixelNext .canon ((payloadRestB q == 0) = true) (packBinary (payloadBit q) s) s t :=
  encShell_packed (fun _ => packed_binary) h

theorem execEncG_next {q : BitVec 32} {s t : State} (h : execEncG q s = .next t) :
    PixelNext .canon ((payloadRestG q == 0) = true) (packGray (payloadLuma q) (payloadAlpha q) s) s t :=
  encShell_packed (fun _ => packed_gray) h

theorem execEnc565_next {q : BitVec 32} {s t : State} (h : execEnc565 q s = .next t) :
    PixelNext .canon (true = true) (pack565 (pixelOfPayload q) s) s t :=
  encShell_packed (fun _ => packed_appendBytes) h

theorem execEncRGB_next {q : BitVec 32} {s t : State} (h : execEncRGB q s = .next t) :
    PixelNext .canon (true = true) (packRGB (pixelOfPayload q) s) s t :=
  encShell_packed (fun _ => packed_appendBytes) h

end Sys2Proof.Machine
end

