-- ==== Sys2Proof/Laws/Room.lean ====
section
/-! SUPPORT. Why no pixel is ever out of room (spec/47_frame_orchestrator.md R240): in a state that meets `Inv`, the
bytes of the next pixel lie in the buffer and its dither cells exist. -/

namespace Sys2Proof.Machine

/-- Bytes the next pixel may touch from `writeIndex` on. -/
def pixelBytes (f : Format) (t : Transparency) : Nat :=
  match f with
  | .binary => 1
  | .grayscale => 1
  | .rgb565 => if t = .alphaChannel then 3 else 2
  | .rgb => if t = .alphaChannel then 4 else 3

/-- The storage width is that of the transparency CFG accepted, too (R62). -/
theorem Inv.storageWidth_job {s : State} (h : Inv s) :
    s.enc.storageWidth = storageWidth s.job.format s.job.transp s.widthNat := by
  rcases h.resolved with e | ⟨e, -⟩
  · rw [h.storage, e]
  · rw [h.storage, e]; rfl

/-- A row's bytes fit in it: those before column `col`, and the next pixel's. -/
theorem rowBytes_add_pixelBytes_le (f : Format) (t : Transparency) {col width : Nat} (h : col < width) :
    rowBytes f t col + pixelBytes f t ≤ storageWidth f t width := by
  cases f <;> simp only [rowBytes, pixelBytes, storageWidth] <;> (try split_ifs) <;> omega

/-- Rows before the last leave a whole row. -/
theorem rowBase_add_le {s : State} (h : Inv s) {frame row : Nat} (hf : frame < s.framesNat) (hr : row < s.heightNat) :
    s.rowBase frame row + s.enc.storageWidth ≤ s.enc.bufLen := by
  rw [h.length, h.totalRows, State.rowBase, ← Nat.mul_succ]
  refine Nat.mul_le_mul_left _ ?_
  calc frame * s.heightNat + row + 1 ≤ frame * s.heightNat + s.heightNat := by omega
    _ = s.heightNat * (frame + 1) := by rw [Nat.mul_add, Nat.mul_one, Nat.mul_comm]
    _ ≤ s.heightNat * s.framesNat := Nat.mul_le_mul_left _ hf

theorem Inv.col_lt {s : State} (h : Inv s) (hc : s.col ≠ s.job.width.toNat) : s.col < s.job.width.toNat :=
  lt_of_le_of_ne h.position.2.2 hc

/-- Room for the next pixel. -/
theorem Inv.room {s : State} (h : Inv s) (he : s.phase = .encoding) (hc : s.col ≠ s.job.width.toNat) :
    s.writeIndex + pixelBytes s.job.format s.job.transp ≤ s.enc.bufLen := by
  obtain ⟨h1, h2, h3, -⟩ := h.encoding he
  have h4 := rowBase_add_le h h1 h2
  have h5 := rowBytes_add_pixelBytes_le s.job.format s.job.transp (h.col_lt hc)
  have h6 := h.storageWidth_job
  unfold State.widthNat at h6
  omega

theorem Inv.pixelBytes_resolved {s : State} (h : Inv s) :
    pixelBytes s.job.format s.enc.transp = pixelBytes s.job.format s.job.transp := by
  rcases h.resolved with e | ⟨e, -⟩
  · rw [e]
  · rw [e]; rfl

/-- The dither cells of the next pixel exist (R33). -/
theorem Inv.cell {s : State} (h : Inv s) (hc : s.col ≠ s.job.width.toNat) :
    s.col < s.errCur.length ∧ s.col < s.errNxt.length := by
  rw [h.cells.1, h.cells.2]
  exact ⟨h.col_lt hc, h.col_lt hc⟩

/-- Every packer's bytes are as many as the pixel's. -/
theorem length_bytes565 (t : Transparency) (invert bigEndian : Bool) (p : Pixel) :
    (bytes565 t invert bigEndian p).length = pixelBytes .rgb565 t := by
  unfold bytes565 wordBytes alphaBytes pixelBytes
  split_ifs <;> rfl

theorem length_bytesRGB (t : Transparency) (invert : Bool) (p : Pixel) :
    (bytesRGB t invert p).length = pixelBytes .rgb t := by
  unfold bytesRGB alphaBytes pixelBytes
  split_ifs <;> rfl

end Sys2Proof.Machine
end

