-- ==== Sys2Proof/Laws/Step.lean ====
section
/-! SUPPORT. What a step can do, said once. -/

namespace Sys2Proof.Machine

/-- The row the decoder answers fits the format it was given (R97, R100). -/
theorem decode_fits {f : Format} {w : CmdWord} {i : Instr} (h : decode f w = .ok i) : i.fits f = true := by
  unfold decode at h
  simp only [unlessReserved, decodeAbt] at h
  split_ifs at h <;> cases h <;> first | rfl | (unfold encRow; cases f <;> rfl)

/-- A decoded instruction is well-formed (R102). -/
theorem decode_wellFormed {f : Format} {w : CmdWord} {i : Instr} (h : decode f w = .ok i) : i.wellFormed = true := by
  unfold decode at h
  simp only [unlessReserved, decodeAbt] at h
  split_ifs at h
  all_goals cases h
  all_goals first | rfl | (unfold encRow; cases f <;> rfl) | simpa [Instr.wellFormed]

/-- Everything a step can do: nothing was sent; a hardware reset; a legal word; an illegal word. -/
theorem step_next {s t : State} (h : step s = .next t) :
    (s.inputs = [] ∧ t = s) ∨
    (∃ rest, s.inputs = .hardwareReset :: rest ∧ t = (s.withInputs rest).resetRegisters) ∨
    (∃ w rest i, s.inputs = .command w :: rest ∧ decode s.job.format w = .ok i ∧
      exec i (s.withInputs rest) = .next t) ∨
    (∃ w rest e, s.inputs = .command w :: rest ∧ decode s.job.format w = .error e ∧
      ((s.phase = .failed ∧ t = s.withInputs rest) ∨
       (s.phase ≠ .failed ∧ t = (s.withInputs rest).raise .illegalCmd))) := by
  unfold step State.nextInput at h
  cases hin : s.inputs with
  | nil => rw [hin] at h; cases h; exact .inl ⟨rfl, rfl⟩
  | cons x rest =>
    rw [hin] at h
    cases x with
    | hardwareReset => cases h; exact .inr (.inl ⟨rest, rfl, rfl⟩)
    | command w =>
      dsimp only at h
      unfold stepWord at h
      simp only [State.withInputs_job] at h
      split at h
      · exact .inr (.inr (.inl ⟨w, rest, _, rfl, ‹_›, h⟩))
      next e he =>
        refine .inr (.inr (.inr ⟨w, rest, e, rfl, he, ?_⟩))
        unfold illegalWord at h
        by_cases hf : s.phase = .failed
        · rw [unlessFailed_failed _ (by simpa using hf)] at h; cases h; exact .inl ⟨hf, rfl⟩
        · rw [unlessFailed_of_ne _ (by simpa using hf)] at h; cases h; exact .inr ⟨hf, rfl⟩

end Sys2Proof.Machine
end

