-- ==== Sys2Proof/Tests/Slice0.lean ====
section
/-! SUPPORT. The model's own tests: ill-formed terms, words written out from spec/30_encoding.md, single steps whose
expected values come from spec/95_test_vectors.md, and for each obligation with hypotheses a state and operands that
meet them. -/

namespace Sys2Proof.Tests

open Sys2Proof.Machine

/-! ## Small states -/

/-- A CFG's fields: one frame, nothing optional. -/
def fields (f : Format) (t : Transparency) (width height : BitVec 16) : CfgFields :=
  { format := f, transp := t.code, dither := .noDither, invertAlpha := false, boSet := false, bo := .bigEndian
    animated := false, unresized := false, srcFrames := 1, height := height, width := width }

/-- READY after that CFG. -/
def ready (f : Format) (t : Transparency) (width height : BitVec 16) : State :=
  State.reset.configure (fields f t width height) t

/-- ENCODING, a frame fed by `src` open. -/
def encoding (src : SrcMode) (f : Format) (t : Transparency) (width height : BitVec 16) : State :=
  (ready f t width height).openFrame src false

/-- A dithered Binary job, a raw frame open. -/
def dithered (width height : BitVec 16) : State :=
  ((State.reset.configure { fields .binary .solid width height with dither := .floydSteinberg } .solid)).openFrame .raw
    false

/-- DONE: a 1 x 1 RGB job. -/
def finished : State :=
  { ready .rgb .solid 1 1 with phase := .done, frame := 1, writeIndex := 3, buffer := [(0, 7)] }

def failed : State := State.reset.raise .protoOrder

/-- The bytes of the buffer below `n`, after a command. -/
def bytesAfter (n : Nat) (i : Instr) (s : State) : Option (List Byte) :=
  match exec i s with
  | .next t => some ((List.range n).map t.byteAt)
  | _ => none

/-- (phase, errCode) as numbers, after a command. -/
def statusAfter (i : Instr) (s : State) : Option (BitVec 3 × BitVec 4) :=
  match exec i s with
  | .next t => some (t.phase.code, t.errCode.code)
  | _ => none

/-- A field of the state after a command. -/
def after {α : Type} (i : Instr) (s : State) (g : State → α) : Option α :=
  match exec i s with
  | .next t => some (g t)
  | _ => none

/-! ## WellFormed refuses -/

theorem test_abt_cause_3_is_ill_formed : (Instr.abt 3).wellFormed = false := by decide

theorem test_enc_row_of_another_format_does_not_fit : (Instr.encG 0).fits .binary = false := by decide

/-! ## Words written out from the field tables (R91 to R93, R98, R100; the words of 95_test_vectors.md 2.10) -/

theorem test_word_cfg : decode .binary 0x1A38000200010002 = .ok (.cfg
    { format := .rgb565, transp := 2, dither := .noDither, invertAlpha := false, boSet := true, bo := .littleEndian
      animated := true, unresized := false, srcFrames := 2, height := 1, width := 2 }) := by decide

/-- The flags that the word above leaves 0; bit 49 is reserved. -/
theorem test_word_cfg_flags : decode .rgb 0x14C6123480007FFF = .error .reservedBits ∧
    decode .rgb 0x14C4123480007FFF = .ok (.cfg
      { format := .grayscale, transp := 0, dither := .floydSteinberg, invertAlpha := true, boSet := false
        bo := .bigEndian, animated := false, unresized := true, srcFrames := 0x1234, height := 0x8000
        width := 0x7FFF }) := by decide

theorem test_word_scan : decode .binary 0x20000000A86090FF = .ok (.scan { r := 0xA8, g := 0x60, b := 0x90, a := 0xFF }) := by
  decide

theorem test_word_frm : decode .binary 0x3000000000000001 = .ok (.frm .canon) ∧
    decode .binary 0x3000000000000000 = .ok (.frm .raw) := by decide

theorem test_word_pix : decode .binary 0x4000000011223300 = .ok (.pix { r := 0x11, g := 0x22, b := 0x33, a := 0 }) := by
  decide

theorem test_word_enc_rows : decode .binary 0x5000000000000001 = .ok (.encB 1) ∧
    decode .grayscale 0x50000000000050FF = .ok (.encG 0x50FF) ∧
    decode .rgb565 0x50000000A86090FF = .ok (.enc565 0xA86090FF) ∧
    decode .rgb 0x50000000A86090FF = .ok (.encRGB 0xA86090FF) := by decide

theorem test_word_eor_abt_rst : decode .binary 0x6000000000000000 = .ok .eor ∧
    decode .binary 0x7000000000000001 = .ok (.abt 1) ∧ decode .binary 0xF000000000000000 = .ok .rst := by decide

theorem test_illegal_words :
    decode .binary 0 = .error .reservedOpcode ∧ decode .binary 0x8000000000000000 = .error .reservedOpcode ∧
    decode .binary 0xE000000000000000 = .error .reservedOpcode ∧ decode .binary 0x1C01000100010001 = .error .reservedBits ∧
    decode .binary 0x2000000100000000 = .error .reservedBits ∧ decode .binary 0x3000000000000002 = .error .reservedBits ∧
    decode .binary 0x4000000100000000 = .error .reservedBits ∧ decode .binary 0x6000000000000001 = .error .reservedBits ∧
    decode .binary 0x7000000000000003 = .error .reservedCause ∧ decode .binary 0xF000000000000001 = .error .reservedBits := by
  decide

/-! ## Single steps (expected values from 95_test_vectors.md) -/

/-- 2.1: `CFG RGB ALPHA w=5 h=2 anim frames=3` gives fc 3, sw 20, bl 120. -/
theorem test_cfg_layout :
    after (.cfg { fields .rgb .alphaChannel 5 2 with animated := true, srcFrames := 3 }) State.reset
      (fun t => (t.enc.frameCount, t.enc.storageWidth, t.enc.bufLen)) = some (3, 20, 120) := by decide

/-- 2.1: 0x1270000100040004 fails check 3 before checks 4 and 5. -/
theorem test_cfg_first_failure :
    statusAfter (.cfg { fields .binary .alphaChannel 4 4 with invertAlpha := true, boSet := true, bo := .littleEndian })
      State.reset = some (4, 1) := by decide

/-- 2.9: in FAILED with code 12, 0x1200000100010008 leaves FAILED with code 1 (log 18). -/
theorem test_cfg_rejected_in_failed :
    failed.errCode.code = 12 ∧ statusAfter (.cfg (fields .binary .alphaChannel 8 1)) failed = some (4, 1) := by decide

/-- P1: three greys scanned leave their maximum and the smallest alpha. -/
theorem test_scan_accumulates :
    after (.scan { r := 1, g := 2, b := 3, a := 0x40 })
      { ready .grayscale .solid 2 1 with scanColorMax := 0, scanAlphaMin := 0x80, scanCount := 1 }
      (fun t => (t.scanColorMax, t.scanAlphaMin, t.scanCount)) = some (3, 0x40, 2) := by decide

/-- P3 step 10: the override of an alpha-only Grayscale frame. -/
theorem test_frm_override :
    after (.frm .raw) { ready .grayscale .chromaKey 2 1 with scanAlphaMin := 0x40, scanCount := 2 }
      (fun t => (t.alphaOnly, t.enc.transp, t.warnAlphaOnly)) = some (true, .alphaChannel, true) := by decide

/-- 2.9: FRM raw of a Grayscale job with no SCAN raises 14. -/
theorem test_frm_unscanned : statusAfter (.frm .raw) (ready .grayscale .solid 1 1) = some (4, 14) := by decide

/-- FS-B row 0, x = 1: `asr4(-889)` = -56, so v = 72, bit 0, e = 72. -/
theorem test_pix_floyd_steinberg :
    after (.pix { r := 0x80, g := 0x80, b := 0x80, a := 0xFF })
      { dithered 4 2 with col := 1, bitCursor := 1, buffer := [(0, 0x80)], errCur := [0, -889, 0, 0]
                          errNxt := [-635, -127, 0, 0] }
      (fun t => (t.buffer, t.errCur, t.errNxt)) = some ([(0, 0x80)], [0, -889, 504, 0], [-419, 233, 72, 0]) := by decide

/-- S6: RGB, alpha inverted. -/
theorem test_pix_rgb_inverted_alpha :
    bytesAfter 4 (.pix { r := 0x11, g := 0x22, b := 0x33, a := 0 })
      ((State.reset.configure { fields .rgb .alphaChannel 1 1 with invertAlpha := true } .alphaChannel).openFrame .raw false)
      = some [0x11, 0x22, 0x33, 0xFF] := by decide

/-- 2.4: the ninth bit of a row goes to bit 7 of the second byte. -/
theorem test_enc_binary :
    bytesAfter 2 (.encB 1) { encoding .canon .binary .solid 9 2 with col := 8, writeIndex := 1, buffer := [(0, 0xB2)] }
      = some [0xB2, 0x80] := by decide

/-- 2.6: under ChromaKey (1, 0xFF) is written 0 and (0x50, 0x80) is written 1. -/
theorem test_enc_gray_key :
    bytesAfter 1 (.encG 0x01FF) (encoding .canon .grayscale .chromaKey 5 1) = some [0] ∧
    bytesAfter 1 (.encG 0x5080) (encoding .canon .grayscale .chromaKey 5 1) = some [1] := by decide

/-- 2.6: under AlphaChannel the alpha of a pixel that is not opaque is not inverted. -/
theorem test_enc_gray_alpha :
    bytesAfter 1 (.encG 0x00FE)
      ((State.reset.configure { fields .grayscale .alphaChannel 5 1 with invertAlpha := true } .alphaChannel).openFrame
        .canon false) = some [0xFE] := by decide

/-- S5: the colour word 0xAB12 in both orders. -/
theorem test_enc_565_orders :
    bytesAfter 2 (.enc565 0xA86090FF) (encoding .canon .rgb565 .solid 1 1) = some [0xAB, 0x12] ∧
    bytesAfter 2 (.enc565 0xA86090FF)
      ((State.reset.configure { fields .rgb565 .solid 1 1 with boSet := true, bo := .littleEndian } .solid).openFrame
        .canon false) = some [0x12, 0xAB] := by decide

/-- 2.7: the key colour is remapped to black, a transparent other colour to the key. -/
theorem test_enc_565_key :
    bytesAfter 2 (.enc565 0x00040000) (encoding .canon .rgb565 .chromaKey 1 1) = some [0, 0] ∧
    bytesAfter 2 (.enc565 0xFFFFFF7F) (encoding .canon .rgb565 .chromaKey 1 1) = some [0, 0x20] := by decide

/-- 2.8: pixels 3 and 5 of the ChromaKey row. -/
theorem test_enc_rgb_key :
    bytesAfter 3 (.encRGB 0x00020000) (encoding .canon .rgb .chromaKey 6 1) = some [0, 1, 0] ∧
    bytesAfter 3 (.encRGB 0xFFFFFF80) (encoding .canon .rgb .chromaKey 6 1) = some [0xFF, 0xFF, 0xFF] := by decide

/-- S3: EOR pads the row of three pixels. -/
theorem test_eor_pads :
    after .eor { encoding .raw .binary .solid 3 2 with col := 3, bitCursor := 3, buffer := [(0, 0xE0)] }
      (fun t => (t.writeIndex, t.bitCursor, t.row, t.col, t.phase)) = some (1, 0, 1, 0, .encoding) := by decide

/-- P2 step 5: the last row of a frame that is not the last. -/
theorem test_eor_ends_the_frame :
    after .eor
      (((State.reset.configure { fields .rgb565 .alphaChannel 2 1 with animated := true, srcFrames := 2 } .alphaChannel).openFrame
        .raw false) |> fun s => { s with col := 2, writeIndex := 6 })
      (fun t => (t.writeIndex, t.frame, t.row, t.phase)) = some (6, 1, 0, .ready) := by decide

/-- 2.9: ABT unparsable during a job gives 10; unreadable in DONE gives 12. -/
theorem test_abt :
    statusAfter (.abt 2) (encoding .raw .rgb .solid 2 1) = some (4, 10) ∧ statusAfter (.abt 1) finished = some (4, 12) := by
  decide

/-- 2.9: RST puts every register at its reset value. -/
theorem test_rst : after .rst (encoding .raw .rgb .solid 2 1) id = some State.reset := by decide

/-- 2.9: from reset the words 0 and ABT cause 3 give 15; FAILED ignores word 0. -/
theorem test_illegal_steps :
    (∃ t, step (State.reset.withFetchWord 64 0) = .next t ∧ t.errCode.code = 15) ∧
    (∃ t, step (State.reset.withFetchWord 64 0x7000000000000003) = .next t ∧ t.errCode.code = 15) ∧
    step (failed.withFetchWord 64 0) = .next failed := ⟨⟨_, rfl, rfl⟩, ⟨_, rfl, rfl⟩, rfl⟩

/-- 2.3: LUMA and the threshold. -/
theorem test_luma : lumaStandard 200 100 50 = 124 ∧ lumaStandard 255 0 0 = 76 ∧ lumaStandard 0 255 0 = 150 ∧
    lumaStandard 16 32 64 = 31 ∧ mono1 128 128 = true ∧ mono1 128 127 = false := by decide

/-- 2.2: frame sizes. -/
theorem test_resize : finalDims 300 200 (some (100, 100)) = ((100, 66), false) ∧
    finalDims 100 300 (some (50, 60)) = ((20, 60), false) ∧ finalDims 1000 1 (some (10, 10)) = ((10, 0), false) := by
  decide

/-- R107: a CROW line is its ENC commands and an EOR; a FRAME line scans first. -/
theorem test_trace_lines :
    TraceLine.commands .binary 9 2 (.crow [1, 0]) = [.encB 1, .encB 0, .eor] ∧
    TraceLine.commands .rgb 1 1 (.frame [⟨1, 2, 3, 4⟩]) = [.scan ⟨1, 2, 3, 4⟩, .frm .raw, .pix ⟨1, 2, 3, 4⟩, .eor] := by
  decide

/-- The job of P2. -/
def jobP2 : CfgFields :=
  { fields .rgb565 .alphaChannel 2 1 with boSet := true, bo := .littleEndian, animated := true, srcFrames := 2 }

/-- Its frames: raw, with no scan pass. -/
def framesP2 : List JobFrame :=
  [.raw [] [[⟨0xFF, 0, 0, 0xFF⟩, ⟨0, 0xFF, 0, 0x80⟩]], .raw [] [[⟨0, 0, 0xFF, 0⟩, ⟨0, 4, 0, 0xFF⟩]]]

/-- P2: its nine words are the stream of a complete job. -/
theorem test_job_stream : (jobCommands jobP2 framesP2).map encode =
    [0x1A38000200010002, 0x3000000000000000, 0x40000000FF0000FF, 0x4000000000FF0080, 0x6000000000000000,
     0x3000000000000000, 0x400000000000FF00, 0x40000000000400FF, 0x6000000000000000] := by decide

/-- R230, R155: a raw Grayscale frame is scanned with exactly its pixels, in any order. -/
theorem test_scan_pass :
    JobFrame.fits .grayscale 2 1 (.raw [⟨1, 1, 1, 1⟩] [[⟨1, 1, 1, 1⟩, ⟨2, 2, 2, 2⟩]]) = false ∧
    JobFrame.fits .rgb 2 1 (.raw [⟨1, 1, 1, 1⟩] [[⟨1, 1, 1, 1⟩, ⟨2, 2, 2, 2⟩]]) = true ∧
    JobFrame.scansItsPixels .grayscale (.raw [⟨2, 2, 2, 2⟩, ⟨1, 1, 1, 1⟩] [[⟨1, 1, 1, 1⟩, ⟨2, 2, 2, 2⟩]]) = true := by
  decide

/-! ## Witnesses: hypotheses that some state and operands meet -/

theorem inv_reset : Inv State.reset := by
  constructor <;> first | decide | exact fun _ _ => rfl

theorem inv_ready : Inv (ready .grayscale .chromaKey 2 1) := by
  constructor <;> first | decide | exact fun _ _ => rfl

theorem inv_binary : Inv (encoding .canon .binary .chromaKey 9 2) := by
  constructor <;> first | decide | exact fun _ _ => rfl

theorem inv_binary_raw : Inv (encoding .raw .binary .solid 9 2) := by
  constructor <;> first | decide | exact fun _ _ => rfl

theorem inv_dithered : Inv (dithered 2 2) := by
  constructor <;> first | decide | exact fun _ _ => rfl

theorem inv_gray : Inv (encoding .canon .grayscale .chromaKey 2 1) := by
  constructor <;> first | decide | exact fun _ _ => rfl

theorem inv_gray_raw : Inv (encoding .raw .grayscale .alphaChannel 2 1) := by
  constructor <;> first | decide | exact fun _ _ => rfl

theorem inv_565 : Inv (encoding .canon .rgb565 .chromaKey 2 1) := by
  constructor <;> first | decide | exact fun _ _ => rfl

theorem inv_565_raw : Inv (encoding .raw .rgb565 .alphaChannel 2 1) := by
  constructor <;> first | decide | exact fun _ _ => rfl

theorem inv_rgb : Inv (encoding .canon .rgb .chromaKey 2 1) := by
  constructor <;> first | decide | exact fun _ _ => rfl

theorem inv_rgb_raw : Inv (encoding .raw .rgb .alphaChannel 2 1) := by
  constructor <;> first | decide | exact fun _ _ => rfl

theorem witness_DecodeEncodeAgree :
    (∃ f i, Instr.wellFormed i = true ∧ Instr.fits f i = true ∧ i = .encG 0xFFFF) ∧
    (Instr.abt 2).wellFormed = true ∧ (Instr.abt 2).fits .rgb = true :=
  ⟨⟨.grayscale, .encG 0xFFFF, by decide⟩, by decide⟩

theorem witness_EncodeDecodeAgree : decode .rgb 0x1FFC000000000000 = .ok (.cfg
    { format := .rgb, transp := 3, dither := .floydSteinberg, invertAlpha := true, boSet := true, bo := .littleEndian
      animated := true, unresized := true, srcFrames := 0, height := 0, width := 0 }) := by decide

/-- Both kinds of word: illegal at the edges of the reserved opcodes, and CFG with `transp` 3. -/
theorem witness_IllegalWords :
    (State.reset.withFetchWord 64 0xE000000000000000).inputs = .command 0xE000000000000000 :: [] ∧
    IllegalByTheRules 0xE000000000000000 ∧ IllegalByTheRules 0x8000000000000000 ∧ IllegalByTheRules 0 ∧
    IllegalByTheRules 0x7000000000000003 ∧ State.reset.phase ≠ .failed ∧
    (0x1F00000100010001#64 &&& 0xF303000000000000 = 0x1300000000000000) ∧ State.reset.phase ≠ .ready ∧
    State.reset.phase ≠ .encoding := by
  refine ⟨rfl, ?_, ?_, ?_, ?_, by decide, by decide, by decide, by decide⟩ <;> unfold IllegalByTheRules <;> dsimp only
  · exact .inr (.inl (by decide))
  · exact .inr (.inl (by decide))
  · exact .inl (by decide)
  · exact .inr (.inr (.inr (.inr (.inr (.inl (by decide))))))

theorem witness_StepRuns :
    State.reset.inputs = [] ∧ (State.reset.withInputs [.hardwareReset]).inputs = .hardwareReset :: [] ∧
    (State.reset.withFetchWord 64 0xF000000000000000).inputs = .command 0xF000000000000000 :: [] ∧
    decode State.reset.job.format 0xF000000000000000 = .ok .rst := by decide

theorem witness_ResetPutsTheTableIn : ∃ s t : State, s.inputs.head? = some .hardwareReset ∧ step s = .next t :=
  ⟨(encoding .raw .rgb .solid 2 1).withInputs [.hardwareReset], _, rfl, rfl⟩

/-- A job that passes every check, its size exactly the bound. -/
theorem witness_AcceptedCfg : ∃ (d : CfgFields) (s : State) (t : Transparency), s.phase ≠ .ready ∧ s.phase ≠ .encoding ∧
    d.transp = t.code ∧ ∀ c ∈ checkOrder, ¬FailsCheck s.params.bufMax d c := by
  refine ⟨fields .rgb565 .alphaChannel 5 2, { State.reset with params := { State.reset.params with bufMax := some 30 } },
    .alphaChannel, by decide, by decide, rfl, ?_⟩
  intro c hc
  simp only [checkOrder, List.mem_cons, List.not_mem_nil, or_false] at hc
  rcases hc with rfl | rfl | rfl | rfl | rfl | rfl <;> simp only [FailsCheck]
  · decide
  · decide
  · decide
  · decide
  · decide
  · rintro ⟨m, t, h1, h2, h3⟩
    cases h1
    cases h2
    exact absurd h3 (by decide)

/-- A job one byte too large for the buffer, and one with two failures. -/
theorem witness_RejectedCfg :
    FirstFailure (some 29) (fields .rgb565 .alphaChannel 5 2) .cfgCapacity ∧
    FirstFailure none { fields .binary .alphaChannel 4 4 with invertAlpha := true } .cfgTransp ∧
    (ready .rgb .solid 1 1).phase = .ready ∧ failed.phase ≠ .ready ∧ failed.phase ≠ .encoding := by
  refine ⟨⟨[.cfgBadEnum, .cfgBadDim, .cfgTransp, .cfgInvert, .cfgByteOrder], [], rfl, ?_, ?_⟩,
    ⟨[.cfgBadEnum, .cfgBadDim], [.cfgInvert, .cfgByteOrder, .cfgCapacity], rfl, ?_, ?_⟩, by decide, by decide, by decide⟩
  · exact ⟨29, .alphaChannel, rfl, rfl, by decide⟩
  · intro b hb
    simp only [List.mem_cons, List.not_mem_nil, or_false] at hb
    rcases hb with rfl | rfl | rfl | rfl | rfl <;> simp only [FailsCheck] <;> decide
  · simp only [FailsCheck]; decide
  · intro b hb
    simp only [List.mem_cons, List.not_mem_nil, or_false] at hb
    rcases hb with rfl | rfl <;> simp only [FailsCheck] <;> decide

theorem witness_AcceptedCfgForgets : ∃ (d : CfgFields) (s s' t : State), s.params = s'.params ∧ s.inputs = s'.inputs ∧
    s'.phase ≠ .ready ∧ s'.phase ≠ .encoding ∧ exec (.cfg d) s = .next t ∧ t.phase = .ready :=
  ⟨fields .rgb .solid 1 1, finished, failed, _, rfl, rfl, by decide, by decide, rfl, by decide⟩

theorem witness_Abt : (2 : BitVec 2) ≠ 3 ∧ State.reset.phase ≠ .done ∧ State.reset.phase ≠ .failed ∧
    finished.phase = .done ∧ failed.phase = .failed := by decide

theorem witness_Scan : (ready .grayscale .chromaKey 2 1).phase = .ready ∧ State.reset.phase ≠ .ready ∧
    State.reset.phase ≠ .failed := by decide

/-- FRM's clauses: out of order; not scanned; scanned and alpha-only, forced; no scan needed. -/
theorem witness_Frm : State.reset.phase ≠ .ready ∧ State.reset.phase ≠ .failed ∧
    (∃ s : State, s.phase = .ready ∧ s.job.format = .grayscale ∧ s.scanCount ≠ s.job.width.toNat * s.job.height.toNat) ∧
    (∃ s : State, s.phase = .ready ∧ s.job.format = .grayscale ∧
      s.scanCount = s.job.width.toNat * s.job.height.toNat ∧ (s.scanColorMax = 0 ∧ s.scanAlphaMin ≠ 0xFF) ∧
      s.enc.transp ≠ .alphaChannel) ∧
    ∃ s : State, s.phase = .ready ∧ ¬(s.job.format = .binary ∨ s.job.format = .grayscale) :=
  ⟨by decide, by decide, ⟨ready .grayscale .chromaKey 2 1, by decide⟩,
    ⟨{ ready .grayscale .chromaKey 2 1 with scanCount := 2, scanAlphaMin := 0 }, by decide⟩,
    ⟨ready .rgb .solid 1 1, by decide⟩⟩

theorem witness_EncBinary : ∃ (q : BitVec 32) (s : State), Inv s ∧ PixelDue .canon s ∧ s.job.format = .binary ∧
    q.extractLsb' 1 31 = 0 :=
  ⟨1, _, inv_binary, by unfold PixelDue; decide, by decide, by decide⟩

theorem witness_PixBinaryThresholds : ∃ s : State, Inv s ∧ PixelDue .raw s ∧ s.job.format = .binary ∧
    s.job.dither = .noDither :=
  ⟨_, inv_binary_raw, by unfold PixelDue; decide, by decide, by decide⟩

/-- Grey 128 on a fresh row: v = 128, bit 1, e = -127 (FS-B, first row of the table). -/
theorem witness_PixBinarySpreads : ∃ (p : Pixel) (s : State) (v e : Int) (bit : Bool), Inv s ∧ PixelDue .raw s ∧
    s.job.format = .binary ∧ s.job.dither = .floydSteinberg ∧ s.params.fs = .standard ∧
    v = max 0 (min 255 (((if s.alphaOnly then p.a else s.params.luma.apply p).toNat : Int) +
      Int.floor ((s.errCur.getD s.col 0 : ℚ) / 16))) ∧
    (bit = true ↔ (s.params.tMono.toNat : Int) ≤ v) ∧ e = v - (if bit = true then 255 else 0) := by
  refine ⟨⟨128, 128, 128, 255⟩, _, 128, -127, true, inv_dithered, by unfold PixelDue; decide, by decide, by decide,
    by decide, ?_, by decide, by decide⟩
  rw [show (dithered 2 2).errCur.getD (dithered 2 2).col 0 = 0 from rfl]
  simp
  decide

theorem witness_PixBinaryUses : ∃ s : State, Inv s ∧ PixelDue .raw s ∧ s.job.format = .binary ∧
    s.job.dither = .floydSteinberg :=
  ⟨_, inv_dithered, by unfold PixelDue; decide, by decide, by decide⟩

theorem witness_EncGray : ∃ (q : BitVec 32) (s : State), Inv s ∧ PixelDue .canon s ∧ s.job.format = .grayscale ∧
    q.extractLsb' 16 16 = 0 :=
  ⟨0xFFFF, _, inv_gray, by unfold PixelDue; decide, by decide, by decide⟩

theorem witness_PixGray : ∃ s : State, Inv s ∧ PixelDue .raw s ∧ s.job.format = .grayscale :=
  ⟨_, inv_gray_raw, by unfold PixelDue; decide, by decide⟩

/-- A canonical and a raw pixel; a job without alpha and one with. -/
theorem witness_Rgb565 :
    (∃ (i : Instr) (p : Pixel) (s : State), Inv s ∧ PixelDue s.srcMode s ∧ s.job.format = .rgb565 ∧
      GivesPixel .enc565 s i p ∧ s.enc.transp ≠ .alphaChannel) ∧
    ∃ (i : Instr) (p : Pixel) (s : State), Inv s ∧ PixelDue s.srcMode s ∧ s.job.format = .rgb565 ∧
      GivesPixel .enc565 s i p ∧ s.enc.transp = .alphaChannel :=
  ⟨⟨.enc565 0, ⟨0, 0, 0, 0⟩, _, inv_565, by unfold PixelDue; decide, by decide, .inr ⟨by decide, 0, rfl, by decide⟩,
      by decide⟩,
    ⟨.pix ⟨1, 2, 3, 4⟩, _, _, inv_565_raw, by unfold PixelDue; decide, by decide, .inl ⟨by decide, rfl⟩, by decide⟩⟩

theorem witness_Rgb :
    (∃ (i : Instr) (p : Pixel) (s : State), Inv s ∧ PixelDue s.srcMode s ∧ s.job.format = .rgb ∧
      GivesPixel .encRGB s i p ∧ s.enc.transp ≠ .alphaChannel) ∧
    ∃ (i : Instr) (p : Pixel) (s : State), Inv s ∧ PixelDue s.srcMode s ∧ s.job.format = .rgb ∧
      GivesPixel .encRGB s i p ∧ s.enc.transp = .alphaChannel :=
  ⟨⟨.encRGB 0, ⟨0, 0, 0, 0⟩, _, inv_rgb, by unfold PixelDue; decide, by decide, .inr ⟨by decide, 0, rfl, by decide⟩,
      by decide⟩,
    ⟨.pix ⟨1, 2, 3, 4⟩, _, _, inv_rgb_raw, by unfold PixelDue; decide, by decide, .inl ⟨by decide, rfl⟩, by decide⟩⟩

/-- The three refusals: in a raw frame, in a full row, and with payload bits outside the format. -/
theorem witness_PixelCommandsRaise :
    (∃ s : State, s.phase ≠ .failed ∧ s.srcMode ≠ .canon) ∧
    (∃ s : State, s.phase = .encoding ∧ s.srcMode = .canon ∧ s.col = s.job.width.toNat) ∧
    ∃ (s : State) (q : BitVec 32), PixelDue .canon s ∧ q.extractLsb' 1 31 ≠ 0 ∧ q.extractLsb' 16 16 ≠ 0 :=
  ⟨⟨encoding .raw .rgb .solid 2 1, by decide⟩, ⟨{ encoding .canon .rgb .solid 2 1 with col := 2 }, by decide⟩,
    ⟨encoding .canon .binary .solid 2 1, 0x10000, by unfold PixelDue; decide, by decide, by decide⟩⟩

theorem witness_Key : ∃ s1 s2 s3 : State,
    (Inv s1 ∧ PixelDue .canon s1 ∧ s1.enc.transp = .chromaKey ∧ s1.job.invertAlpha = false ∧ s1.job.format = .grayscale) ∧
    (Inv s2 ∧ PixelDue .canon s2 ∧ s2.enc.transp = .chromaKey ∧ s2.job.invertAlpha = false ∧ s2.job.format = .rgb565) ∧
    (Inv s3 ∧ PixelDue .canon s3 ∧ s3.enc.transp = .chromaKey ∧ s3.job.invertAlpha = false ∧ s3.job.format = .rgb) ∧
    (0xFFFF#32).extractLsb' 16 16 = 0 :=
  ⟨_, _, _, ⟨inv_gray, by unfold PixelDue; decide, by decide⟩, ⟨inv_565, by unfold PixelDue; decide, by decide⟩,
    ⟨inv_rgb, by unfold PixelDue; decide, by decide⟩, by decide⟩

/-- EOR's clauses: out of order, mid-row, and the end of a padded row of a dithered job, neither last. -/
theorem witness_Eor :
    (State.reset.phase ≠ .encoding ∧ State.reset.phase ≠ .failed) ∧
    ((dithered 2 2).phase = .encoding ∧ (dithered 2 2).col ≠ (dithered 2 2).job.width.toNat) ∧
    ∃ s : State, s.phase = .encoding ∧ s.col = s.job.width.toNat ∧ (s.job.format = .binary ∧ s.bitCursor ≠ 0) ∧
      s.job.dither = .floydSteinberg ∧ s.row + 1 ≠ s.job.height.toNat :=
  ⟨by decide, by decide, ⟨{ dithered 2 2 with col := 2, bitCursor := 2 }, by decide⟩⟩

theorem witness_Failed : failed.phase = .failed ∧ (∀ d, Instr.eor ≠ .cfg d) ∧ Instr.eor ≠ .rst ∧
    decode .binary 0 = .error .reservedOpcode ∧ (failed.withFetchWord 64 0).inputs = .command 0 :: [] :=
  ⟨by decide, fun _ => (fun h => nomatch h), by decide, by decide, by decide⟩

/-- A CFG whose check fails, in FAILED and with a warning set; and commands with no other effect: EOR in IDLE, and a CFG
refused in READY. -/
theorem witness_Raised :
    (∃ (d : CfgFields) (s t : State), s.phase = .failed ∧ s.warnFrames = true ∧ exec (.cfg d) s = .next t ∧
      t.phase = .failed) ∧
    (∃ s t : State, s.phase ≠ .failed ∧ exec .eor s = .next t ∧ t.phase = .failed) ∧
    ∃ (d : CfgFields) (s t : State), s.phase = .ready ∧ exec (.cfg d) s = .next t ∧ t.phase = .failed :=
  ⟨⟨fields .rgb .solid 0 1, { failed with warnFrames := true }, _, by decide, rfl, rfl, rfl⟩,
    ⟨State.reset, _, by decide, rfl, rfl⟩, ⟨fields .rgb .solid 1 1, ready .rgb .solid 1 1, _, by decide, rfl, rfl⟩⟩

theorem witness_PhaseTransitions :
    (∃ (i : Instr) (s t : State), i.wellFormed = true ∧ exec i s = .next t) ∧
    ∃ (s t : State) (w : CmdWord) (rest : List HostInput) (e : DecodeError), s.inputs = .command w :: rest ∧
      decode s.job.format w = .error e ∧ step s = .next t :=
  ⟨⟨.rst, State.reset, _, rfl, rfl⟩, ⟨State.reset.withFetchWord 64 0, _, 0, [], .reservedOpcode, by decide, by decide, rfl⟩⟩

theorem witness_OnlyCfgAndRst : ∃ (i : Instr) (s t : State), (∀ d, i ≠ .cfg d) ∧ i ≠ .rst ∧ exec i s = .next t :=
  ⟨.encG 0xFFFF, encoding .canon .grayscale .chromaKey 2 1, _, fun _ => (fun h => nomatch h), by decide, rfl⟩

theorem witness_BytesBelow : ∃ (i : Instr) (s t : State), (∀ d, i ≠ .cfg d) ∧ i ≠ .rst ∧ exec i s = .next t ∧
    s.writeIndex < t.writeIndex :=
  ⟨.encG 0xFFFF, encoding .canon .grayscale .chromaKey 2 1, _, fun _ => (fun h => nomatch h), by decide, rfl, by decide⟩

theorem witness_PixelsLand :
    (∃ (q : BitVec 32) (s t : State), Inv s ∧ s.phase = .encoding ∧ s.job.format = .binary ∧
      (Instr.encB q).fits s.job.format = true ∧ exec (.encB q) s = .next t ∧ t.phase = .encoding) ∧
    ∃ (p : Pixel) (s t : State), Inv s ∧ s.phase = .encoding ∧ s.job.format ≠ .binary ∧
      exec (.pix p) s = .next t ∧ t.phase = .encoding :=
  ⟨⟨1, _, _, inv_binary, by decide, by decide, by decide, rfl, by decide⟩,
    ⟨⟨1, 2, 3, 4⟩, _, _, inv_rgb_raw, by decide, by decide, rfl, by decide⟩⟩

theorem witness_BinaryIgnores : ∃ (i : Instr) (s t : State), s.job.format = .binary ∧ i.fits .binary = true ∧
    (∀ d, i ≠ .cfg d) ∧ i ≠ .rst ∧ exec i s = .next t ∧ t.errCode = .none :=
  ⟨.encB 1, encoding .canon .binary .chromaKey 9 2, _, by decide, by decide, fun _ => (fun h => nomatch h), by decide, rfl,
    by decide⟩

theorem witness_ResetMeets : State.reset.params.tMono ≠ 0 := by decide

theorem witness_StepKeepsInvariant : ∃ s t : State, Inv s ∧ step s = .next t ∧ s.phase = .encoding :=
  ⟨_, _, inv_binary, rfl, by decide⟩

/-- Reset is such a state. -/
theorem witness_StepAlwaysAnswers : Inv State.reset := inv_reset

theorem witness_DitherCells : ∃ s t : State, Inv s ∧ DitherBounded s ∧ step s = .next t ∧ s.params.fs = .standard ∧
    s.params.tMono = 128 := by
  refine ⟨State.reset, _, inv_reset, ?_, rfl, by decide, by decide⟩
  intro _ _ j
  refine ⟨by simp [State.reset], by simp [State.reset], fun h => absurd h (by decide)⟩

/-- A job that passes checks 1 to 5 passes all in an unbounded buffer. -/
theorem passes_unbounded {d : CfgFields}
    (h : d.transp ≠ 3 ∧ ¬(d.width = 0 ∨ d.height = 0) ∧ ¬(d.format = .binary ∧ d.transp = 2) ∧
      ¬(d.invertAlpha = true ∧ d.transp ≠ 2 ∧ d.format ≠ .binary ∧ d.format ≠ .grayscale) ∧
      ¬(d.boSet = true ∧ d.format ≠ .rgb565)) : ∀ c ∈ checkOrder, ¬FailsCheck none d c := by
  intro c hc
  simp only [checkOrder, List.mem_cons, List.not_mem_nil, or_false] at hc
  obtain ⟨h1, h2, h3, h4, h5⟩ := h
  rcases hc with rfl | rfl | rfl | rfl | rfl | rfl <;> try assumption
  rintro ⟨m, t, hm, -⟩
  cases hm

/-- The hypotheses of `CompleteJobReachesDone`. -/
def JobSent (d : CfgFields) (frames : List JobFrame) (s : State) (tr : Transparency) : Prop :=
  s.phase ≠ .ready ∧ s.phase ≠ .encoding ∧ s.params.tMono ≠ 0 ∧ d.transp = tr.code ∧
    (∀ c ∈ checkOrder, ¬FailsCheck s.params.bufMax d c) ∧ frames.length = (framesEmitted d).toNat ∧
    (∀ fr ∈ frames, fr.fits d.format d.width.toNat d.height.toNat = true) ∧
    s.inputs = hostInputs (jobCommands d frames)

/-- A 1 x 1 Opaque Grayscale job whose scan shows alpha only: its resolved transparency is AlphaChannel. -/
theorem witness_CompleteJob : ∃ (d : CfgFields) (frames : List JobFrame) (s : State) (tr : Transparency),
    JobSent d frames s tr ∧ d.format = .grayscale ∧ (∃ fr ∈ frames, ShowsAlphaOnly fr) ∧ tr = .solid :=
  ⟨fields .grayscale .solid 1 1, [.raw [⟨0, 0, 0, 0x40⟩] [[⟨0, 0, 0, 0x40⟩]]], State.reset.withInputs _, .solid,
    ⟨by decide, by decide, by decide, rfl, passes_unbounded (by decide), by decide, by decide, rfl⟩, rfl,
    ⟨_, List.mem_singleton.2 rfl, by simp [ShowsAlphaOnly]⟩, rfl⟩

/-- P2: two raw RGB565 frames that no SCAN precedes. A canonical frame may have a scan pass of any length. -/
theorem witness_CompleteJob_scans : (∃ s tr, JobSent jobP2 framesP2 s tr ∧ jobP2.format ≠ .grayscale) ∧
    JobFrame.fits .binary 1 1 (.canon [⟨1, 2, 3, 4⟩, ⟨5, 6, 7, 8⟩] [[1]]) = true :=
  ⟨⟨State.reset.withInputs _, .alphaChannel, ⟨by decide, by decide, by decide, rfl, passes_unbounded (by decide), by decide,
    by decide, rfl⟩, by decide⟩, by decide⟩

theorem witness_Resize : ∃ origW origH maxW maxH : Nat, 0 < origW ∧ 0 < origH ∧ 0 < maxW ∧ 0 < maxH ∧
    ∃ ratio : ℚ, ratio = min ((maxW : ℚ) / origW) ((maxH : ℚ) / origH) :=
  ⟨1000, 1, 10, 10, by decide, by decide, by decide, by decide, _, rfl⟩

end Sys2Proof.Tests
end

section
/-! PROOFS. The registers after a reset and the outputs (spec/10_state.md R35, R41). -/

namespace Sys2Proof.Machine

/-! ## Reset -/

theorem exec_rst (s : State) : exec .rst s = .next s.resetRegisters := rfl

theorem step_hardwareReset {s t : State} (hin : s.inputs.head? = some .hardwareReset) (h : step s = .next t) :
    ∃ rest, t = (s.withInputs rest).resetRegisters := by
  rcases step_next h with ⟨hs, -⟩ | ⟨rest, -, ht⟩ | ⟨w, rest, i, hs, -⟩ | ⟨w, rest, e, hs, -⟩
  · simp [hs] at hin
  · exact ⟨rest, ht⟩
  · simp [hs] at hin
  · simp [hs] at hin

@[simp] theorem State.byteAt_resetRegisters (s : State) (a : Nat) : s.resetRegisters.byteAt a = 0 := rfl

/-- Settles O7: `State.reset`, RST and the reset input all end in `resetRegisters` of some state. -/
theorem resetPutsTheTableIn : Obligations.ResetPutsTheTableIn := by
  intro s
  refine ⟨⟨_, exec_rst s⟩, fun t ht => ?_⟩
  obtain ⟨u, rfl⟩ : ∃ u : State, t = u.resetRegisters := by
    rcases ht with rfl | h | ⟨hin, h⟩
    · exact ⟨State.reset, rfl⟩
    · rw [exec_rst] at h
      cases h
      exact ⟨s, rfl⟩
    · obtain ⟨rest, ht⟩ := step_hardwareReset hin h
      exact ⟨s.withInputs rest, ht⟩
  simp [State.reset, Format.code, Transparency.code, Dither.code, ByteOrder.code, ErrCode.code]

/-! ## The outputs -/

@[simp] theorem State.outValid_iff (s : State) : s.outValid = true ↔ s.phase = .done := by
  simp [State.outValid]

@[simp] theorem State.outError_iff (s : State) : s.outError = true ↔ s.phase = .failed := by
  simp [State.outError]

/-- An output guarded by `out_valid` has a value exactly in DONE. -/
theorem State.whenDone_eq_some_iff {α : Type} (s : State) (v w : α) :
    s.whenDone v = some w ↔ s.phase = .done ∧ w = v := by
  rw [State.whenDone, Option.ite_none_right_eq_some, s.outValid_iff, Option.some_inj, eq_comm (a := v)]

theorem State.outByte_eq_some_iff (s : State) (i : Nat) (v : Byte) :
    s.outByte i = some v ↔ s.phase = .done ∧ i < s.enc.bufLen ∧ v = s.byteAt i := by
  rw [State.outByte, Option.ite_none_right_eq_some, s.whenDone_eq_some_iff, and_left_comm]

/-- Settles O8: each metadata output is one value guarded by `whenDone`. -/
theorem outputsHaveValuesOnlyInDone : Obligations.OutputsHaveValuesOnlyInDone := by
  intro s
  refine ⟨s.outValid_iff, s.outError_iff, rfl, ?codes, rfl, s.whenDone_eq_some_iff _, s.whenDone_eq_some_iff _,
    s.whenDone_eq_some_iff _, s.whenDone_eq_some_iff _, s.whenDone_eq_some_iff _, s.outByte_eq_some_iff⟩
  case codes => decide

end Sys2Proof.Machine
end

section
/-! PROOFS. The validator (spec/40_job_validator.md): the checks of CFG in the order of R122, and ABT (R131). -/

namespace Sys2Proof.Machine

/-! ## The size of a job's output -/

theorem storageWidth_eq_rowWidth (f : Format) (t : Transparency) (w : Nat) : storageWidth f t w = rowWidth f t w := by
  cases f <;> cases t <;> simp [storageWidth, rowWidth, Nat.mul_comm]

theorem frameCount_eq_framesEmitted (d : CfgFields) : frameCount d.animated d.srcFrames = framesEmitted d := rfl

theorem bufLenOf_eq (d : CfgFields) (t : Transparency) :
    bufLenOf d t = rowWidth d.format t d.width.toNat * (d.height.toNat * (framesEmitted d).toNat) := by
  rw [bufLenOf, storageWidth_eq_rowWidth, frameCount_eq_framesEmitted]

theorem fitsBuffer_eq_false {bufMax : Option Nat} {n : Nat} :
    fitsBuffer bufMax n = false ↔ ∃ m, bufMax = some m ∧ m < n := by
  cases bufMax <;> simp [fitsBuffer]

/-! ## The checks of CFG one by one (R122 to R124) -/

section
variable {bufMax : Option Nat} {d : CfgFields} {t : Transparency}

theorem failsCheck_cfgBadEnum : FailsCheck bufMax d .cfgBadEnum ↔ Transparency.ofCode d.transp = none :=
  Transparency.ofCode_eq_none.symm

theorem failsCheck_cfgBadDim : FailsCheck bufMax d .cfgBadDim ↔ d.width = 0 ∨ d.height = 0 := Iff.rfl

/-- Code 2 of the transparency field is AlphaChannel (R96). -/
theorem code_two_iff_alphaChannel {c : BitVec 2} (h : Transparency.ofCode c = some t) :
    c = 2#2 ↔ t = .alphaChannel := by
  revert h; cases t <;> revert c <;> decide

theorem failsCheck_cfgTransp (h : Transparency.ofCode d.transp = some t) :
    FailsCheck bufMax d .cfgTransp ↔ (!transpAllowed d.format t) = true := by
  simp [FailsCheck, transpAllowed, code_two_iff_alphaChannel h]

theorem failsCheck_cfgInvert (h : Transparency.ofCode d.transp = some t) :
    FailsCheck bufMax d .cfgInvert ↔ (d.invertAlpha && !invertLegal d.format t) = true := by
  cases hf : d.format <;>
    simp [FailsCheck, invertLegal, standaloneInvert, code_two_iff_alphaChannel h, hf]

theorem failsCheck_cfgByteOrder :
    FailsCheck bufMax d .cfgByteOrder ↔ (d.boSet && !supportsByteOrder d.format) = true := by
  cases hf : d.format <;> simp [FailsCheck, supportsByteOrder, hf]

theorem failsCheck_cfgCapacity (h : Transparency.ofCode d.transp = some t) :
    FailsCheck bufMax d .cfgCapacity ↔ (!fitsBuffer bufMax (bufLenOf d t)) = true := by
  simp [FailsCheck, h, fitsBuffer_eq_false, bufLenOf_eq, Nat.mul_assoc]

/-! ## The first check that fails -/

variable [DecidablePred (FailsCheck bufMax d)]

/-- Checks 2 to 6 of the model find the first of R122's that fails. -/
theorem cfgCheckJob_eq_find? (h : Transparency.ofCode d.transp = some t) :
    cfgCheckJob bufMax d t = checkOrder.find? fun c => FailsCheck bufMax d c := by
  have hEnum : ¬FailsCheck bufMax d .cfgBadEnum := by simp [failsCheck_cfgBadEnum, h]
  unfold cfgCheckJob
  simp only [← failsCheck_cfgBadDim (bufMax := bufMax), ← failsCheck_cfgTransp (bufMax := bufMax) h,
    ← failsCheck_cfgInvert (bufMax := bufMax) h, ← failsCheck_cfgByteOrder (bufMax := bufMax),
    ← failsCheck_cfgCapacity h]
  split_ifs <;> simp [checkOrder, *]

theorem firstFailure_iff_find? {c : ErrCode} :
    FirstFailure bufMax d c ↔ (checkOrder.find? fun c => FailsCheck bufMax d c) = some c := by
  simp [FirstFailure, List.find?_eq_some_iff_append, and_left_comm]

end

/-- CFG's checks answer the error whose check is the first that fails (R122). -/
theorem cfgCheck_error_iff {bufMax : Option Nat} {d : CfgFields} {c : ErrCode} :
    cfgCheck bufMax d = .error c ↔ FirstFailure bufMax d c := by
  classical
  rw [firstFailure_iff_find?]
  cases h : Transparency.ofCode d.transp with
  | none =>
    have hEnum : FailsCheck bufMax d .cfgBadEnum := failsCheck_cfgBadEnum.2 h
    simp [cfgCheck, h, checkOrder, hEnum]
  | some t =>
    rw [← cfgCheckJob_eq_find? h]
    cases hj : cfgCheckJob bufMax d t <;> simp [cfgCheck, h, hj]

/-! ## CFG -/

theorem execCfg_inProgress {s : State} (d : CfgFields) (h : s.phase = .ready ∨ s.phase = .encoding) :
    execCfg d s = .next (s.raise .protoOrder) := if_pos h

theorem execCfg_rejected {d : CfgFields} {s : State} {c : ErrCode} (hr : s.phase ≠ .ready) (he : s.phase ≠ .encoding)
    (h : cfgCheck s.params.bufMax d = .error c) : execCfg d s = .next (s.clearWarnings.raise c) := by
  simp [execCfg, hr, he, h]

/-- Settles O10: outside a job in progress the model's checks answer the first failure, and `raise` after
`clearWarnings` writes the registers named. -/
theorem rejectedCfgRecordsTheFirstFailingCheck : Obligations.RejectedCfgRecordsTheFirstFailingCheck := by
  intro d s
  exact ⟨execCfg_inProgress d, fun c hr he hc => execCfg_rejected hr he (cfgCheck_error_iff.2 hc)⟩

/-! ## ABT -/

/-- The source errors are numbered 8 + cause (R131, R251). -/
theorem sourceError_code {cause : BitVec 2} (h : cause ≠ 3) : (sourceError cause).code.toNat = 8 + cause.toNat := by
  revert cause; decide

theorem execAbt_failed {cause : BitVec 2} {s : State} (h : cause ≠ 3) (hf : s.phase = .failed) :
    execAbt cause s = .next s := by
  rw [execAbt, if_neg h, unlessFailed_failed _ hf]

theorem execAbt_done {cause : BitVec 2} {s : State} (h : cause ≠ 3) (hd : s.phase = .done) :
    execAbt cause s = .next (s.raise .protoOrder) := by
  rw [execAbt, if_neg h, unlessFailed_of_ne _ (by simp [hd]), if_pos hd]

theorem execAbt_open {cause : BitVec 2} {s : State} (h : cause ≠ 3) (hd : s.phase ≠ .done) (hf : s.phase ≠ .failed) :
    execAbt cause s = .next (s.raise (sourceError cause)) := by
  rw [execAbt, if_neg h, unlessFailed_of_ne _ hf, if_neg hd]

/-- Settles O12: one clause for each kind of phase. -/
theorem abtRecordsTheSourceFailure : Obligations.AbtRecordsTheSourceFailure := by
  intro cause s h
  exact ⟨rfl, fun hd hf => ⟨sourceError cause, sourceError_code h, execAbt_open h hd hf⟩, execAbt_done h,
    execAbt_failed h⟩

end Sys2Proof.Machine
end

section
/-! PROOFS. The alpha-only detector and the start of a frame (spec/41_pixel_normalizer.md R141 to R144): SCAN and
FRM. -/

namespace Sys2Proof.Machine

/-! ## SCAN -/

theorem toNat_maxByte (x y : Byte) : (maxByte x y).toNat = max x.toNat y.toNat := by
  unfold maxByte; split <;> omega

theorem toNat_minByte (x y : Byte) : (minByte x y).toNat = min x.toNat y.toNat := by
  unfold minByte; split <;> omega

theorem execScan_ready {s : State} (p : Pixel) (h : s.phase = .ready) : execScan p s = .next (s.accumulate p) := by
  rw [execScan, unlessFailed_of_ne _ (by simp [h]), if_neg (not_not_intro h)]

theorem execScan_outside {s : State} (p : Pixel) (hr : s.phase ≠ .ready) (hf : s.phase ≠ .failed) :
    execScan p s = .next (s.raise .protoOrder) := by
  rw [execScan, unlessFailed_of_ne _ hf, if_pos hr]

/-- Settles O13: in READY the next state is `accumulate`'s, whose nested maxima are the one of R141. -/
theorem scanAccumulates : Obligations.ScanAccumulates := by
  intro p s
  refine ⟨rfl, fun h => ⟨s.accumulate p, execScan_ready p h, rfl, ?_, toNat_minByte .., rfl⟩, execScan_outside p⟩
  simp only [State.accumulate_scanColorMax, toNat_maxByte, max_assoc]

/-! ## The decisions of FRM -/

theorem State.needsScan_iff (src : SrcMode) (s : State) :
    s.needsScan src = true ↔ src = .raw ∧ (s.job.format = .binary ∨ s.job.format = .grayscale) := by
  simp [State.needsScan]

theorem isAlphaOnly_iff (colorMax alphaMin : Byte) :
    isAlphaOnly colorMax alphaMin = true ↔ colorMax = 0 ∧ alphaMin ≠ 0xFF := by
  simp [isAlphaOnly]

theorem overrides_iff (f : Format) (alphaOnly : Bool) (t : Transparency) :
    overrides f alphaOnly t = true ↔ f = .grayscale ∧ alphaOnly = true ∧ t ≠ .alphaChannel := by
  simp [overrides, and_assoc]

/-- The override as one update, whether it happens or not (R144). -/
theorem State.override_eq (on : Bool) (s : State) :
    s.override on = { s with
      enc := { s.enc with transp := if on = true then .alphaChannel else s.enc.transp }
      warnAlphaOnly := if on = true then true else s.warnAlphaOnly } := by
  cases on <;> rfl

/-- A frame that reads the accumulators opens with the decision of R143 and the override of R144. -/
theorem State.startFrame_of_needsScan {src : SrcMode} {s : State} {alphaOnly forced : Bool}
    (hn : s.needsScan src = true) (ha : alphaOnly = isAlphaOnly s.scanColorMax s.scanAlphaMin)
    (hf : forced = overrides s.job.format alphaOnly s.enc.transp) :
    s.startFrame src = (s.override forced).openFrame src alphaOnly := by
  have hd : s.frameAlphaOnly src = alphaOnly := by rw [State.frameAlphaOnly, hn, Bool.true_and, ha]
  rw [State.startFrame, hd, hf]

/-- Any other frame opens not alpha-only and overrides nothing (R142). -/
theorem State.startFrame_of_not_needsScan {src : SrcMode} {s : State} (hn : s.needsScan src = false) :
    s.startFrame src = s.openFrame src false := by
  have hd : s.frameAlphaOnly src = false := by rw [State.frameAlphaOnly, hn, Bool.false_and]
  have ho : overrides s.job.format false s.enc.transp = false := by simp [overrides]
  rw [State.startFrame, hd, ho]
  rfl

/-! ## FRM -/

theorem execFrm_outside {s : State} (src : SrcMode) (hr : s.phase ≠ .ready) (hf : s.phase ≠ .failed) :
    execFrm src s = .next (s.raise .protoOrder) := by
  rw [execFrm, unlessFailed_of_ne _ hf, if_pos hr]

theorem execFrm_unscanned {src : SrcMode} {s : State} (hr : s.phase = .ready) (hn : s.needsScan src = true)
    (hc : s.scanCount ≠ s.job.width.toNat * s.job.height.toNat) : execFrm src s = .next (s.raise .protoScan) := by
  rw [execFrm, unlessFailed_of_ne _ (by simp [hr]), if_neg (not_not_intro hr), if_pos ⟨hn, hc⟩]

theorem execFrm_opens {src : SrcMode} {s : State} (hr : s.phase = .ready)
    (hc : s.needsScan src = true → s.scanCount = s.job.width.toNat * s.job.height.toNat) :
    execFrm src s = .next (s.startFrame src) := by
  rw [execFrm, unlessFailed_of_ne _ (by simp [hr]), if_neg (not_not_intro hr), if_neg fun h => h.2 (hc h.1)]

/-- Settles O14: FRM's guard is `needsScan`, and each way through it has its equation. -/
theorem frmOpensTheFrame : Obligations.FrmOpensTheFrame := by
  intro src s
  refine ⟨rfl, execFrm_outside src, fun hr => ⟨fun hraw => ?scan, fun hother => ?noScan⟩⟩
  case scan =>
    have hn : s.needsScan src = true := (s.needsScan_iff src).2 hraw
    refine ⟨execFrm_unscanned hr hn, fun hc alphaOnly forced ha hf => ?_⟩
    have ha' : alphaOnly = isAlphaOnly s.scanColorMax s.scanAlphaMin :=
      Bool.eq_iff_iff.2 (ha.trans (isAlphaOnly_iff ..).symm)
    have hf' : forced = overrides s.job.format alphaOnly s.enc.transp :=
      Bool.eq_iff_iff.2 (hf.trans (overrides_iff ..).symm)
    calc execFrm src s = .next (s.startFrame src) := execFrm_opens hr fun _ => hc
      _ = .next ((s.override forced).openFrame src alphaOnly) := by rw [State.startFrame_of_needsScan hn ha' hf']
      _ = _ := by rw [State.override_eq]; rfl
  case noScan =>
    have hn : ¬s.needsScan src = true := mt (s.needsScan_iff src).1 hother
    calc execFrm src s = .next (s.startFrame src) := execFrm_opens hr fun h => absurd h hn
      _ = .next (s.openFrame src false) := by rw [State.startFrame_of_not_needsScan (eq_false_of_ne_true hn)]

end Sys2Proof.Machine
end

section
/-! PROOFS. Pixels stored as bytes (spec/41_pixel_normalizer.md R148, spec/43_grayscale_alpha_encoder.md R184): the
packers that append, the byte of a Grayscale pixel, and PIX of a Grayscale job. -/

namespace Sys2Proof.Machine

/-! ## The packers that append -/

/-- Appending the bytes of a pixel that is due completes and stores them (R145, R171, R240). -/
theorem finishPixel_appendBytes {src : SrcMode} {s : State} {vs : List Byte} (hi : Inv s) (hd : PixelDue src s)
    (hl : vs.length = pixelBytes s.job.format s.enc.transp) :
    ∃ t, finishPixel (appendBytes vs s) = .next t ∧ StoresBytes s t vs := by
  obtain ⟨hp, -, hc⟩ := hd
  have hroom : s.writeIndex + vs.length ≤ s.enc.bufLen := by
    rw [hl, hi.pixelBytes_resolved]; exact hi.room hp hc
  obtain ⟨m, hm, -, -, hread, hframe⟩ := appendBytes_of_le hi.memory hroom
  exact ⟨{ s with buffer := m, writeIndex := s.writeIndex + vs.length, col := s.col + 1 }, by rw [hm]; rfl, rfl,
    hread, hframe⟩

/-! ## The byte of a Grayscale pixel -/

theorem toNat_invertByte (invert : Bool) (v : Byte) :
    (invertByte invert v).toNat = if invert = true then 255 - v.toNat else v.toNat := by
  cases invert with
  | false => rfl
  | true => exact (congrArg BitVec.toNat (BitVec.xor_allOnes (x := v))).trans BitVec.toNat_not

theorem grayByte_solid (invert : Bool) (luma alpha : Byte) :
    grayByte .solid invert luma alpha = invertByte invert luma := rfl

theorem grayByte_chromaKey (invert : Bool) (luma alpha : Byte) :
    grayByte .chromaKey invert luma alpha =
      invertByte invert (if alpha ≠ 0xFF then 1 else if luma = 1 then 0 else luma) := rfl

theorem grayByte_alphaChannel (invert : Bool) (luma alpha : Byte) :
    grayByte .alphaChannel invert luma alpha = if alpha ≠ 0xFF then alpha else invertByte invert luma := by
  simp [grayByte, grayKeyed, graySubstituted]

/-- The model's order of key, inversion and substitution gives the table of R186. -/
theorem grayByteIs_grayByte (t : Transparency) (invert : Bool) (luma alpha : Byte) :
    GrayByteIs t invert luma alpha (grayByte t invert luma alpha) := by
  refine ⟨?solid, ?transparent, ?remapped, ?keyedOpaque, ?alphaOpaque, ?alphaReplaced⟩
  case solid =>
    rintro rfl
    rw [grayByte_solid, toNat_invertByte]
  case transparent =>
    rintro rfl ha
    rw [grayByte_chromaKey, if_pos ha]
    cases invert <;> rfl
  case remapped =>
    rintro rfl rfl rfl
    cases invert <;> rfl
  case keyedOpaque =>
    rintro rfl rfl hl
    rw [grayByte_chromaKey, if_neg (not_not_intro rfl), if_neg hl, toNat_invertByte]
  case alphaOpaque =>
    rintro rfl rfl
    rw [grayByte_alphaChannel, if_neg (not_not_intro rfl), toNat_invertByte]
  case alphaReplaced =>
    rintro rfl ha
    rw [grayByte_alphaChannel, if_pos ha]

/-! ## PIX of a Grayscale job -/

theorem grayPair_not_alphaOnly (l : LumaParam) (p : Pixel) : grayPair l false p = (l.apply p, p.a) := rfl

theorem grayPair_alphaOnly (l : LumaParam) (p : Pixel) : grayPair l true p = (p.a, 0xFF) := rfl

/-- A Grayscale pixel is packed as the one byte of its pair (R148). -/
theorem encodeSource_grayscale {s : State} {p : Pixel} {luma alpha : Byte} (hg : s.job.format = .grayscale)
    (hpair : grayPair s.params.luma s.alphaOnly p = (luma, alpha)) :
    encodeSource p s = appendBytes [grayByte s.enc.transp s.job.invertAlpha luma alpha] s := by
  simp only [encodeSource, hg, hpair, packGray_eq]

theorem exec_pix_grayscale {s : State} {p : Pixel} {luma alpha : Byte} (hi : Inv s) (hd : PixelDue .raw s)
    (hg : s.job.format = .grayscale) (hpair : grayPair s.params.luma s.alphaOnly p = (luma, alpha)) :
    ∃ t v, exec (.pix p) s = .next t ∧ StoresBytes s t [v] ∧
      GrayByteIs s.enc.transp s.job.invertAlpha luma alpha v := by
  obtain ⟨hp, hsrc, hc⟩ := hd
  obtain ⟨t, ht, hst⟩ := finishPixel_appendBytes hi ⟨hp, hsrc, hc⟩
    (vs := [grayByte s.enc.transp s.job.invertAlpha luma alpha]) (by rw [hg]; rfl)
  refine ⟨t, _, ?_, hst, grayByteIs_grayByte ..⟩
  calc exec (.pix p) s = finishPixel (encodeSource p s) := pixelShell_of_open _ hp hsrc hc
    _ = .next t := by rw [encodeSource_grayscale hg hpair, ht]

/-- Settles O21: the two values of `alphaOnly` are the two pairs of R148. -/
theorem pixGrayStoresItsByte : Obligations.PixGrayStoresItsByte := by
  intro p s hi hd hg
  cases ha : s.alphaOnly with
  | false =>
    obtain ⟨t, v, ht, hst, hv⟩ := exec_pix_grayscale hi hd hg (p := p) (by rw [ha, grayPair_not_alphaOnly])
    exact ⟨t, v, ht, hst, nofun, fun _ => hv⟩
  | true =>
    obtain ⟨t, v, ht, hst, hv⟩ := exec_pix_grayscale hi hd hg (p := p) (by rw [ha, grayPair_alphaOnly])
    exact ⟨t, v, ht, hst, fun _ => hv, nofun⟩

end Sys2Proof.Machine
end

section
/-! PROOFS. The Binary encoder (spec/42_binary_encoder.md): the packer of one bit (R172), which ENC.B and PIX share, and
EOR (R174). -/

namespace Sys2Proof.Machine

/-! ## One bit of the current byte -/

/-- The cursor's mask has one bit, `7 - bitCursor` (R172). -/
theorem getLsbD_bitMask (c : BitVec 3) (k : Nat) :
    (bitMask c).getLsbD k = decide (k + c.toNat = 7) := by
  have hmask : bitMask c = BitVec.twoPow 8 7 >>> c.toNat := rfl
  rw [hmask, BitVec.getLsbD_ushiftRight, BitVec.getLsbD_twoPow]
  grind

/-- The state with the cursor's bit of the current byte set, when `on`. -/
def State.orCursorBit (on : Bool) (s : State) : State :=
  if on then s.putByte s.writeIndex (s.byteAt s.writeIndex ||| bitMask s.bitCursor) else s

theorem State.orCursorBit_eq (on : Bool) (s : State) :
    s.orCursorBit on = { s with buffer := (s.orCursorBit on).buffer } := by
  cases on <;> rfl

theorem State.getLsbD_byteAt_orCursorBit {s : State} (on : Bool) (hm : Memory.wf s.buffer = true) (k : Nat) :
    ((s.orCursorBit on).byteAt s.writeIndex).getLsbD k =
      ((s.byteAt s.writeIndex).getLsbD k || (on && decide (k + s.bitCursor.toNat = 7))) := by
  cases on with
  | false => simp [State.orCursorBit]
  | true => simp [State.orCursorBit, State.byteAt_putByte _ hm, getLsbD_bitMask]

theorem State.byteAt_orCursorBit_ne {s : State} (on : Bool) {a : Nat} (ha : a ≠ s.writeIndex) :
    (s.orCursorBit on).byteAt a = s.byteAt a := by
  cases on with
  | false => rfl
  | true => exact Memory.get_set_ne _ ha

/-- The cursor's advance as one update (R172). -/
theorem State.advanceBit_eq (s : State) :
    s.advanceBit = { s with
      writeIndex := if s.bitCursor.toNat = 7 then s.writeIndex + 1 else s.writeIndex
      bitCursor := BitVec.ofNat 3 ((s.bitCursor.toNat + 1) % 8) } := by
  have hlast : s.bitCursor.toNat = 7 ↔ s.bitCursor = 7 := BitVec.toNat_inj (y := 7)
  unfold State.advanceBit
  split
  next h => rw [if_pos (hlast.2 h), h]; rfl
  next h =>
    have hnext : s.bitCursor + 1 = BitVec.ofNat 3 ((s.bitCursor.toNat + 1) % 8) := by bv_omega
    rw [if_neg (mt hlast.1 h), hnext]

/-! ## ENC.B -/

/-- Packing a bit where the current byte exists completes and does what R172 says, whichever command gave the bit. -/
theorem finishPixel_packBinary {s : State} (bit : Bool) (hm : Memory.wf s.buffer = true)
    (hroom : s.writeIndex < s.enc.bufLen) :
    ∃ t, finishPixel (packBinary bit s) = .next t ∧ PacksBit s t bit := by
  have hpack : packBinary bit s = .ok (s.orCursorBit (bit ^^ s.job.invertAlpha)).advanceBit :=
    packBinary_of_lt bit hroom
  rw [hpack, State.advanceBit_eq, State.orCursorBit_eq]
  exact ⟨_, rfl, rfl, fun k _ => State.getLsbD_byteAt_orCursorBit _ hm k,
    fun a => State.byteAt_orCursorBit_ne _⟩

/-- The current byte of a due Binary pixel exists (R240). -/
theorem Inv.writeIndex_lt_of_binary {src : SrcMode} {s : State} (hi : Inv s) (hd : PixelDue src s)
    (hb : s.job.format = .binary) : s.writeIndex < s.enc.bufLen := by
  obtain ⟨hp, -, hc⟩ := hd
  have hroom := hi.room hp hc
  rwa [hb] at hroom

/-- An ENC command that is due, with a legal payload, does what its packer does (R171). -/
theorem encShell_of_due {restZero : Bool} {s : State} (pack : State → Except Fault State) (hd : PixelDue .canon s)
    (hz : restZero = true) : encShell restZero pack s = finishPixel (pack s) := by
  obtain ⟨hp, hsrc, hc⟩ := hd
  rw [encShell, pixelShell_of_open _ hp hsrc hc, if_pos hz]

/-- Settles O15: the shell lets the payload through and the packer has room for its bit. -/
theorem encBinaryPacksItsBit : Obligations.EncBinaryPacksItsBit := by
  intro q s hi hd hb hq
  obtain ⟨t, ht, hpacks⟩ :=
    finishPixel_packBinary (q.getLsbD 0) hi.memory (hi.writeIndex_lt_of_binary hd hb)
  exact ⟨t, (encShell_of_due _ hd (beq_iff_eq.2 hq)).trans ht, hpacks⟩

/-! ## EOR -/

theorem execEor_outside {s : State} (he : s.phase ≠ .encoding) (hf : s.phase ≠ .failed) :
    execEor s = .next (s.raise .protoOrder) := by
  rw [execEor, unlessFailed_of_ne _ hf, if_pos he]

theorem execEor_midRow {s : State} (he : s.phase = .encoding) (hc : s.col ≠ s.job.width.toNat) :
    execEor s = .next (s.raise .protoRow) := by
  rw [execEor, unlessFailed_of_ne _ (by simp [he]), if_neg (not_not_intro he), if_pos hc]

theorem execEor_fullRow {s : State} (he : s.phase = .encoding) (hc : s.col = s.job.width.toNat) :
    execEor s = .next s.padRow.shiftErrors.nextRow := by
  rw [execEor, unlessFailed_of_ne _ (by simp [he]), if_neg (not_not_intro he), if_neg (not_not_intro hc)]

section
variable (s : State)

/-- The padding as one update, whether it happens or not (R174). -/
theorem State.padRow_eq :
    s.padRow = { s with
      bitCursor := if s.job.format = .binary ∧ s.bitCursor ≠ 0 then 0 else s.bitCursor
      writeIndex := if s.job.format = .binary ∧ s.bitCursor ≠ 0 then s.writeIndex + 1 else s.writeIndex } := by
  unfold State.padRow; split <;> rfl

/-- The move of the dither error as one update, whether it happens or not (R153, R174). -/
theorem State.shiftErrors_eq :
    s.shiftErrors = { s with
      errCur := if s.job.format = .binary ∧ s.job.dither = .floydSteinberg then s.errNxt else s.errCur
      errNxt := if s.job.format = .binary ∧ s.job.dither = .floydSteinberg then
        List.replicate s.errNxt.length 0 else s.errNxt } := by
  unfold State.shiftErrors; split <;> rfl

/-- The advance of the position and the phase as one update (R234). -/
theorem State.nextRow_eq :
    s.nextRow = { s with
      col := 0
      row := if s.row + 1 = s.job.height.toNat then 0 else s.row + 1
      frame := if s.row + 1 = s.job.height.toNat then s.frame + 1 else s.frame
      phase := if s.row + 1 = s.job.height.toNat then
        (if s.frame + 1 = s.enc.frameCount.toNat then .done else .ready) else s.phase } := by
  unfold State.nextRow; split <;> rfl

end

/-- Settles O26: one equation for each way through EOR; at the end of a row its three updates write different
registers. -/
theorem eorEndsTheRow : Obligations.EorEndsTheRow := by
  intro s
  refine ⟨rfl, execEor_outside, execEor_midRow, ?_⟩
  intro he hc padded dithered lastRow lastFrame hpad hdith hrow hframe
  calc exec .eor s = .next s.padRow.shiftErrors.nextRow := execEor_fullRow he hc
    _ = _ := by
      rw [State.nextRow_eq, State.shiftErrors_eq, State.padRow_eq]
      simp only [hpad, hdith, hrow, hframe, he]

end Sys2Proof.Machine
end

section
/-! PROOFS. ENC of a Grayscale job (spec/43_grayscale_alpha_encoder.md R184): what appending, the ENC shell and
the table of R186 say, put together. -/

namespace Sys2Proof.Machine

/-- ENC.G on a due pixel with a legal payload appends the one byte of the payload's luma and alpha (R171, R184). -/
theorem exec_encG_of_due {q : BitVec 32} {s : State} (hd : PixelDue .canon s) (hq : payloadRestG q = 0) :
    exec (.encG q) s =
      finishPixel (appendBytes [grayByte s.enc.transp s.job.invertAlpha (payloadLuma q) (payloadAlpha q)] s) :=
  calc exec (.encG q) s = finishPixel (packGray (payloadLuma q) (payloadAlpha q) s) :=
        encShell_of_due _ hd (beq_iff_eq.2 hq)
    _ = _ := by rw [packGray_eq]

/-- Settles O20: the one byte appended has room, and it is the byte of R186's table. -/
theorem encGrayStoresItsByte : Obligations.EncGrayStoresItsByte := by
  intro q s hi hd hg hq
  obtain ⟨t, ht, hst⟩ := finishPixel_appendBytes hi hd
    (vs := [grayByte s.enc.transp s.job.invertAlpha (payloadLuma q) (payloadAlpha q)]) (by rw [hg]; rfl)
  exact ⟨t, _, (exec_encG_of_due hd hq).trans ht, hst, grayByteIs_grayByte ..⟩

end Sys2Proof.Machine
end

section
/-! PROOFS. Pixels of an RGB565 job (spec/44_rgb565_encoder.md R190): the chroma-key step as one table, the alpha byte,
the colour word as a number and its bytes in the job's order; then PIX and ENC.565. -/

namespace Sys2Proof.Machine

/-! ## The key and the alpha byte, shared with RGB -/

/-- The chroma-key step as one table: the key colour becomes black, any other transparent colour the key
(R190, R200). -/
theorem keyed_eq {α : Type} [DecidableEq α] (key black : α) (t : Transparency) (a : Byte) (colour : α) :
    keyed key black t a colour =
      if t = .chromaKey ∧ colour = key then black else if t = .chromaKey ∧ a.toNat < 128 then key else colour := by
  by_cases ht : t = .chromaKey
  · simp only [keyed, ht, true_and, if_true]; rfl
  · simp [keyed, ht]

theorem alphaBytes_alphaChannel (invert : Bool) (a : Byte) :
    alphaBytes .alphaChannel invert a = [invertByte invert a] := rfl

theorem alphaBytes_of_ne {t : Transparency} (ht : t ≠ .alphaChannel) (invert : Bool) (a : Byte) :
    alphaBytes t invert a = [] := if_neg ht

/-! ## The colour word -/

/-- The top bits of a byte are a truncating division. -/
theorem toNat_topBits (v : Byte) {lo len : Nat} (h : lo + len = 8) :
    (v.extractLsb' lo len).toNat = v.toNat / 2 ^ lo := by
  rw [BitVec.extractLsb'_toNat, Nat.shiftRight_eq_div_pow, Nat.mod_eq_of_lt]
  rw [Nat.div_lt_iff_lt_mul (Nat.two_pow_pos lo), ← Nat.pow_add, Nat.add_comm, h]
  exact v.isLt

theorem toNat_quantise_red (p : Pixel) : (quantise p).1.toNat = p.r.toNat / 8 := toNat_topBits p.r rfl

theorem toNat_quantise_green (p : Pixel) : (quantise p).2.1.toNat = p.g.toNat / 4 := toNat_topBits p.g rfl

theorem toNat_quantise_blue (p : Pixel) : (quantise p).2.2.toNat = p.b.toNat / 8 := toNat_topBits p.b rfl

/-- The key test on quantised fields, as R192 words it. -/
theorem quantise_eq_key565_iff (p : Pixel) :
    quantise p = Config.key565 ↔ p.r.toNat / 8 = 0 ∧ p.g.toNat / 4 = 1 ∧ p.b.toNat / 8 = 0 := by
  rw [Prod.ext_iff, Prod.ext_iff, ← BitVec.toNat_inj, ← BitVec.toNat_inj, ← BitVec.toNat_inj, toNat_quantise_red,
    toNat_quantise_green, toNat_quantise_blue]
  rfl

/-- The fields of a colour word lie side by side (R190). -/
theorem toNat_fields565 (r : BitVec 5) (g : BitVec 6) (b : BitVec 5) :
    (r ++ g ++ b).toNat = r.toNat * 2048 + g.toNat * 32 + b.toNat := by
  rw [BitVec.toNat_append, BitVec.toNat_append, ← Nat.shiftLeft_add_eq_or_of_lt g.isLt,
    ← Nat.shiftLeft_add_eq_or_of_lt b.isLt, Nat.shiftLeft_eq, Nat.shiftLeft_eq]
  omega

theorem toNat_word565 (t : Transparency) (p : Pixel) : (word565 t p).toNat = colourNumber565 t p := by
  have hquant : ((quantise p).1 ++ (quantise p).2.1 ++ (quantise p).2.2).toNat =
      p.r.toNat / 8 * 2048 + p.g.toNat / 4 * 32 + p.b.toNat / 8 := by
    rw [toNat_fields565, toNat_quantise_red, toNat_quantise_green, toNat_quantise_blue]
  unfold word565 colourNumber565
  rw [keyed_eq]
  simp only [quantise_eq_key565_iff]
  split
  · rfl
  · split
    · rfl
    · exact hquant

/-! ## Its bytes -/

theorem toNat_highByte (w : BitVec 16) : (w.extractLsb' 8 8).toNat = w.toNat / 256 := by
  rw [BitVec.extractLsb'_toNat, Nat.shiftRight_eq_div_pow]
  omega

theorem toNat_lowByte (w : BitVec 16) : (w.extractLsb' 0 8).toNat = w.toNat % 256 := BitVec.extractLsb'_toNat ..

/-- The two bytes in either order (R65, R190). -/
theorem wordBytes_word565 (bigEndian : Bool) (t : Transparency) (p : Pixel) :
    ∃ v w, wordBytes bigEndian (word565 t p) = [v, w] ∧ ColourBytes565 bigEndian t p v w := by
  have hhigh := toNat_highByte (word565 t p)
  have hlow := toNat_lowByte (word565 t p)
  rw [toNat_word565] at hhigh hlow
  cases bigEndian with
  | true => exact ⟨_, _, rfl, fun _ => ⟨hhigh, hlow⟩, nofun⟩
  | false => exact ⟨_, _, rfl, nofun, fun _ => ⟨hlow, hhigh⟩⟩

/-! ## PIX and ENC.565 -/

/-- A due pixel of an RGB565 job is packed the same whichever command gives it (R145, R171). -/
theorem exec_of_givesPixel_enc565 {i : Instr} {p : Pixel} {s : State} (hd : PixelDue s.srcMode s)
    (hf : s.job.format = .rgb565) (hg : GivesPixel .enc565 s i p) : exec i s = finishPixel (pack565 p s) := by
  obtain ⟨hsrc, rfl⟩ | ⟨hsrc, q, rfl, rfl⟩ := hg
  · obtain ⟨hp, -, hc⟩ := hd
    calc exec (.pix p) s = finishPixel (encodeSource p s) := pixelShell_of_open _ hp hsrc hc
      _ = finishPixel (pack565 p s) := by rw [encodeSource, hf]
  · exact encShell_of_due _ (hsrc ▸ hd) rfl

/-- Settles O22: both commands append the bytes of `bytes565`, which are the word's two and, under AlphaChannel, one
more. -/
theorem rgb565PixelsStoreTheirBytes : Obligations.Rgb565PixelsStoreTheirBytes := by
  intro i p s hi hd hf hg
  obtain ⟨v, w, hvw, hcolour⟩ := wordBytes_word565 s.enc.bigEndian s.enc.transp p
  obtain ⟨t, ht, hst⟩ := finishPixel_appendBytes hi hd
    (vs := bytes565 s.enc.transp s.job.invertAlpha s.enc.bigEndian p) (by rw [length_bytes565, hf])
  rw [bytes565, hvw] at hst
  refine ⟨t, v, w, (exec_of_givesPixel_enc565 hd hf hg).trans ht, hcolour, ?colourOnly, ?alpha⟩
  case colourOnly =>
    intro hne
    rwa [alphaBytes_of_ne hne] at hst
  case alpha =>
    intro heq
    rw [heq, alphaBytes_alphaChannel] at hst
    exact ⟨_, toNat_invertByte .., hst⟩

end Sys2Proof.Machine
end

section
/-! PROOFS. Pixels of an RGB job (spec/45_rgba_encoder.md R200): the keyed colour as the three bytes of the statement's
table, the bytes of a pixel with and without alpha; then PIX and ENC.RGB. -/

namespace Sys2Proof.Machine

/-! ## The bytes of a pixel -/

/-- The keyed colour, channel by channel, with the key test on the full bytes (R200). -/
theorem colour888_eq_colourBytesRGB (t : Transparency) (p : Pixel) :
    [(colour888 t p).1, (colour888 t p).2.1, (colour888 t p).2.2] = colourBytesRGB t p := by
  have hkey : (p.r, p.g, p.b) = Config.key888 ↔ p.r = 0 ∧ p.g = 1 ∧ p.b = 0 := by
    simp only [Config.key888, Prod.mk.injEq]
  unfold colour888 colourBytesRGB
  rw [keyed_eq]
  simp only [hkey]
  split
  · rfl
  · split <;> rfl

theorem bytesRGB_alphaChannel (invert : Bool) (p : Pixel) :
    bytesRGB .alphaChannel invert p = colourBytesRGB .alphaChannel p ++ [invertByte invert p.a] := by
  rw [bytesRGB, colour888_eq_colourBytesRGB, alphaBytes_alphaChannel]

theorem bytesRGB_of_ne {t : Transparency} (ht : t ≠ .alphaChannel) (invert : Bool) (p : Pixel) :
    bytesRGB t invert p = colourBytesRGB t p := by
  rw [bytesRGB, colour888_eq_colourBytesRGB, alphaBytes_of_ne ht, List.append_nil]

/-! ## PIX and ENC.RGB -/

/-- Where PIX packs a pixel as the ENC row does, a due pixel is packed the same whichever command gives it
(R145, R171). -/
theorem exec_of_givesPixel {row : BitVec 32 → Instr} {pack : Pixel → State → Except Fault State} {i : Instr}
    {p : Pixel} {s : State} (hrow : ∀ q, exec (row q) s = encShell true (pack (pixelOfPayload q)) s)
    (hpix : encodeSource p s = pack p s) (hd : PixelDue s.srcMode s) (hg : GivesPixel row s i p) :
    exec i s = finishPixel (pack p s) := by
  obtain ⟨hsrc, rfl⟩ | ⟨hsrc, q, rfl, rfl⟩ := hg
  · obtain ⟨hp, -, hc⟩ := hd
    rw [← hpix]
    exact pixelShell_of_open _ hp hsrc hc
  · rw [hrow]
    exact encShell_of_due _ (hsrc ▸ hd) rfl

/-- Settles O23: both commands append the bytes of `bytesRGB`, which are the keyed colour's three and, under
AlphaChannel, the alpha byte. -/
theorem rgbPixelsStoreTheirBytes : Obligations.RgbPixelsStoreTheirBytes := by
  intro i p s hi hd hf hg
  have hexec : exec i s = finishPixel (packRGB p s) :=
    exec_of_givesPixel (fun _ => rfl) (by rw [encodeSource, hf]) hd hg
  obtain ⟨t, ht, hst⟩ := finishPixel_appendBytes hi hd
    (vs := bytesRGB s.enc.transp s.job.invertAlpha p) (by rw [length_bytesRGB, hf])
  refine ⟨t, hexec.trans ht, ?colourOnly, ?alpha⟩
  case colourOnly =>
    intro hne
    rwa [bytesRGB_of_ne hne] at hst
  case alpha =>
    intro heq
    rw [heq, bytesRGB_alphaChannel] at hst
    exact ⟨_, toNat_invertByte .., heq ▸ hst⟩

end Sys2Proof.Machine
end

section
/-! PROOFS. The frame orchestrator (spec/47_frame_orchestrator.md): what an accepted CFG computes (R231, R232), and the
phase table (R233). -/

namespace Sys2Proof.Machine

/-! ## An accepted CFG -/

/-- CFG's checks answer the job's mode when none of R122's six fails. -/
theorem cfgCheck_of_not_failsCheck {bufMax : Option Nat} {d : CfgFields} {t : Transparency} (ht : d.transp = t.code)
    (h : ∀ c ∈ checkOrder, ¬FailsCheck bufMax d c) : cfgCheck bufMax d = .ok t := by
  cases hc : cfgCheck bufMax d with
  | error c =>
    obtain ⟨before, after, horder, hfails, -⟩ := cfgCheck_error_iff.1 hc
    exact absurd hfails (h c (by simp [horder]))
  | ok u =>
    obtain ⟨hmode, -⟩ := cfgCheck_ok.1 hc
    rw [ht, Transparency.ofCode_code, Option.some_inj] at hmode
    rw [hmode]

theorem execCfg_accepted {d : CfgFields} {s : State} {t : Transparency} (hr : s.phase ≠ .ready)
    (he : s.phase ≠ .encoding) (h : cfgCheck s.params.bufMax d = .ok t) :
    execCfg d s = .next (s.clearWarnings.configure d t) := by
  simp [execCfg, hr, he, h]

/-- The encoder constants in the words of R26, R62 and R231. -/
theorem encOf_eq (d : CfgFields) (t : Transparency) :
    encOf d t =
      { frameCount := framesEmitted d
        storageWidth := rowWidth d.format t d.width.toNat
        totalRows := d.height.toNat * (framesEmitted d).toNat
        bufLen := rowWidth d.format t d.width.toNat * (d.height.toNat * (framesEmitted d).toNat)
        bigEndian := decide (d.boSet = false ∨ d.bo = .bigEndian)
        transp := t } := by
  have horder : bigEndianOf d.boSet d.bo = decide (d.boSet = false ∨ d.bo = .bigEndian) := by
    rw [Bool.eq_iff_iff]; simp [bigEndianOf]
  rw [encOf, storageWidth_eq_rowWidth, frameCount_eq_framesEmitted, bufLenOf_eq, horder]

theorem warnsFrames_eq (animated : Bool) (srcFrames : BitVec 16) :
    warnsFrames animated srcFrames = decide (animated = true ∧ srcFrames.toNat ≤ 1) := by
  rw [Bool.decide_and, Bool.decide_eq_true]; rfl

theorem warnsOversize_eq (unresized : Bool) (width height : BitVec 16) :
    warnsOversize unresized width height =
      decide (unresized = true ∧ (500 < width.toNat ∨ 500 < height.toNat)) := by
  rw [Bool.decide_and, Bool.decide_or, Bool.decide_eq_true]; rfl

/-- Settles O9: the checks pass, and `configure` writes every register but the parameters and the pending inputs. -/
theorem acceptedCfgConfiguresEveryRegister : Obligations.AcceptedCfgConfiguresEveryRegister := by
  refine ⟨fun _ => rfl, fun d s t hr he ht hpass => ?_⟩
  calc exec (.cfg d) s = .next (s.clearWarnings.configure d t) :=
        execCfg_accepted hr he (cfgCheck_of_not_failsCheck ht hpass)
    _ = _ := by rw [State.configure, encOf_eq, warnsFrames_eq, warnsOversize_eq]; rfl

/-! ## The columns of the phase table -/

/-- The form of R233's columns of SCAN, FRM, PIX, ENC and EOR: ignored in FAILED, an error of order in every other
phase but `due`, and there the command's own cell. -/
def PhaseColumn (due : Phase) (cell : Prop) (s t : State) : Prop :=
  (s.phase = .failed ∧ t = s) ∨ (s.phase ≠ .failed ∧ s.phase ≠ due ∧ Raised t .protoOrder) ∨
  (s.phase = due ∧ cell)

/-- The own cell of a pixel command fed by `src`, when `legal` says that its payload's must-be-zero bits are 0. -/
def PixelCell (src : SrcMode) (legal : Prop) (s t : State) : Prop :=
  (s.srcMode ≠ src → Raised t .protoOrder) ∧
  (s.srcMode = src → s.col = s.job.width.toNat → Raised t .protoRow) ∧
  (s.srcMode = src → s.col ≠ s.job.width.toNat → ¬legal → Raised t .illegalCmd) ∧
  (s.srcMode = src → s.col ≠ s.job.width.toNat → legal → t.phase = .encoding)

/-- EOR's own cell: the row must be full, and the position decides the next phase (R234). -/
def EorCell (s t : State) : Prop :=
  if s.col = s.job.width.toNat then
    t.phase = if s.row + 1 = s.job.height.toNat then
      (if s.frame + 1 = s.enc.frameCount.toNat then .done else .ready) else .encoding
  else Raised t .protoRow

theorem raised_raise (c : ErrCode) (s : State) : Raised (s.raise c) c := ⟨rfl, rfl⟩

section
variable {s t : State}

theorem phaseRow_cfg_iff {d : CfgFields} :
    PhaseRow s (.cfg d) t ↔
      (s.phase = .ready ∨ s.phase = .encoding → Raised t .protoOrder) ∧
      (s.phase ≠ .ready → s.phase ≠ .encoding →
        t.phase = .ready ∨ ∃ c, FirstFailure s.params.bufMax d c ∧ Raised t c) := by
  cases hp : s.phase <;> simp [PhaseRow, hp]

theorem phaseRow_scan_iff {p : Pixel} : PhaseRow s (.scan p) t ↔ PhaseColumn .ready (t.phase = .ready) s t := by
  cases hp : s.phase <;> simp [PhaseRow, PhaseColumn, hp]

theorem phaseRow_frm_iff {src : SrcMode} :
    PhaseRow s (.frm src) t ↔ PhaseColumn .ready (t.phase = .encoding ∨ Raised t .protoScan) s t := by
  cases hp : s.phase <;> simp [PhaseRow, PhaseColumn, hp]

theorem phaseRow_pix_iff {p : Pixel} :
    PhaseRow s (.pix p) t ↔ PhaseColumn .encoding (PixelCell .raw True s t) s t := by
  cases hp : s.phase <;> cases hsrc : s.srcMode <;> simp [PhaseRow, PhaseColumn, PixelCell, hp, hsrc]

theorem encCell_iff {legal : Prop} :
    PhaseRow.encCell s t legal ↔ PhaseColumn .encoding (PixelCell .canon legal s t) s t := by
  cases hp : s.phase <;> cases hsrc : s.srcMode <;> simp [PhaseRow.encCell, PhaseColumn, PixelCell, hp, hsrc]

theorem phaseRow_eor_iff : PhaseRow s .eor t ↔ PhaseColumn .encoding (EorCell s t) s t := by
  cases hp : s.phase <;> simp only [PhaseRow, PhaseColumn, EorCell, hp]
  case encoding => split_ifs <;> simp_all
  all_goals simp

/-! ## The commands keep to their columns -/

theorem phaseRow_of_execCfg {d : CfgFields} (h : execCfg d s = .next t) : PhaseRow s (.cfg d) t := by
  rw [phaseRow_cfg_iff]
  rcases execCfg_next h with ⟨hopen, rfl⟩ | ⟨hr, he, ⟨c, hc, rfl⟩ | ⟨tr, -, rfl⟩⟩
  · exact ⟨fun _ => raised_raise .., fun hr he => absurd hopen (not_or.2 ⟨hr, he⟩)⟩
  · exact ⟨fun hopen => absurd hopen (not_or.2 ⟨hr, he⟩),
      fun _ _ => .inr ⟨c, cfgCheck_error_iff.1 hc, raised_raise ..⟩⟩
  · exact ⟨fun hopen => absurd hopen (not_or.2 ⟨hr, he⟩), fun _ _ => .inl rfl⟩

theorem phaseRow_of_execScan {p : Pixel} (h : execScan p s = .next t) : PhaseRow s (.scan p) t := by
  rw [phaseRow_scan_iff]
  rcases execScan_next h with hfailed | ⟨hf, hr, rfl⟩ | ⟨hr, rfl⟩
  · exact .inl hfailed
  · exact .inr (.inl ⟨hf, hr, raised_raise ..⟩)
  · exact .inr (.inr ⟨hr, hr⟩)

theorem phaseRow_of_execFrm {src : SrcMode} (h : execFrm src s = .next t) : PhaseRow s (.frm src) t := by
  rw [phaseRow_frm_iff]
  rcases execFrm_next h with hfailed | ⟨hf, hr, rfl⟩ | ⟨hr, -, -, rfl⟩ | ⟨hr, -, rfl⟩
  · exact .inl hfailed
  · exact .inr (.inl ⟨hf, hr, raised_raise ..⟩)
  · exact .inr (.inr ⟨hr, .inr (raised_raise ..)⟩)
  · exact .inr (.inr ⟨hr, .inl rfl⟩)

/-- Each way through a pixel command lies in its column. -/
theorem PixelNext.phaseColumn {src : SrcMode} {legal : Prop} {r : Except Fault State}
    (h : PixelNext src legal r s t) : PhaseColumn .encoding (PixelCell src legal s t) s t := by
  cases h with
  | ignored failed => exact .inl ⟨failed, rfl⟩
  | order hf bad =>
    by_cases he : s.phase = .encoding
    · have hsrc : s.srcMode ≠ src := bad.resolve_left (not_not_intro he)
      exact .inr (.inr ⟨he, fun _ => raised_raise .., by simp [hsrc]⟩)
    · exact .inr (.inl ⟨hf, he, raised_raise ..⟩)
  | row he fed full => exact .inr (.inr ⟨he, by simp [PixelCell, fed, full, raised_raise]⟩)
  | illegal he fed room bad => exact .inr (.inr ⟨he, by simp [PixelCell, fed, room, bad, raised_raise]⟩)
  | packed he fed room ok u hu pack =>
    obtain ⟨hframe, -⟩ := pack
    have hphase : u.phase = .encoding := by rw [hframe]; exact he
    exact .inr (.inr ⟨he, by simp [PixelCell, fed, room, ok, hphase]⟩)

theorem encCell_of_pixelNext {accepted legal : Prop} {r : Except Fault State} (hl : accepted ↔ legal)
    (h : PixelNext .canon accepted r s t) : PhaseRow.encCell s t legal := by
  rw [encCell_iff, ← hl]
  exact h.phaseColumn

theorem phaseRow_of_execEor (h : execEor s = .next t) : PhaseRow s .eor t := by
  rw [phaseRow_eor_iff]
  rcases execEor_next h with hfailed | ⟨hf, he, rfl⟩ | ⟨he, hc, rfl⟩ | ⟨he, hc, rfl⟩
  · exact .inl hfailed
  · exact .inr (.inl ⟨hf, he, raised_raise ..⟩)
  · exact .inr (.inr ⟨he, by rw [EorCell, if_neg hc]; exact raised_raise ..⟩)
  · exact .inr (.inr ⟨he, by simp [EorCell, hc, he]⟩)

theorem phaseRow_of_execAbt {cause : BitVec 2} (hw : cause ≠ 3) (h : execAbt cause s = .next t) :
    PhaseRow s (.abt cause) t := by
  rcases execAbt_next h with ⟨hf, rfl⟩ | ⟨-, h3, -⟩ | ⟨hd, -, rfl⟩ | ⟨hf, hd, -, rfl⟩
  · simp [PhaseRow, hf]
  · exact absurd h3 hw
  · simp [PhaseRow, hd, raised_raise]
  · cases hp : s.phase <;> simp_all [PhaseRow, sourceError_code]

/-- Every command keeps to the table. -/
theorem phaseRow_of_exec {i : Instr} (hw : i.wellFormed = true) (h : exec i s = .next t) : PhaseRow s i t := by
  cases i with
  | cfg d => exact phaseRow_of_execCfg h
  | scan p => exact phaseRow_of_execScan h
  | frm src => exact phaseRow_of_execFrm h
  | pix p => exact phaseRow_pix_iff.2 (execPix_next h).phaseColumn
  | encB q => exact encCell_of_pixelNext beq_iff_eq (execEncB_next h)
  | encG q => exact encCell_of_pixelNext beq_iff_eq (execEncG_next h)
  | enc565 q => exact encCell_of_pixelNext (iff_true_intro rfl) (execEnc565_next h)
  | encRGB q => exact encCell_of_pixelNext (iff_true_intro rfl) (execEncRGB_next h)
  | eor => exact phaseRow_of_execEor h
  | abt cause => exact phaseRow_of_execAbt (bne_iff_ne.1 hw) h
  | rst =>
    rw [exec_rst] at h
    cases h
    rfl

/-! ## Illegal words -/

theorem illegalWord_failed (hf : s.phase = .failed) : illegalWord s = .next s := unlessFailed_failed _ hf

theorem illegalWord_raises (hf : s.phase ≠ .failed) : illegalWord s = .next (s.raise .illegalCmd) :=
  unlessFailed_of_ne _ hf

/-- A step takes the illegal word off the inputs (R102, R104). -/
theorem step_illegalWord {w : CmdWord} {rest : List HostInput} {e : DecodeError} (hin : s.inputs = .command w :: rest)
    (hd : decode s.job.format w = .error e) : step s = illegalWord (s.withInputs rest) := by
  simp [step, State.nextInput, hin, stepWord, hd]

end

/-- Settles O29: the commands keep to their columns; an illegal word is ignored in FAILED and an error elsewhere. -/
theorem phaseTransitionsFollowTheTable : Obligations.PhaseTransitionsFollowTheTable := by
  refine ⟨fun i s t => phaseRow_of_exec, fun s t w rest e hin hd h => ?_⟩
  rw [step_illegalWord hin hd] at h
  refine ⟨fun hf => ?failed, fun hf => ?raised⟩
  case failed =>
    cases (illegalWord_failed (s := s.withInputs rest) hf).symm.trans h
    rfl
  case raised =>
    cases (illegalWord_raises (s := s.withInputs rest) hf).symm.trans h
    exact raised_raise ..

end Sys2Proof.Machine
end

section
/-! PROOFS. The error entry (spec/60_exceptions.md R256): every command but CFG enters FAILED by `State.raise` alone;
CFG clears the warnings before its checks. -/

namespace Sys2Proof.Machine

section
variable {s t : State}

/-- `t` is `s` after the error entry with some code (R256). -/
def EntersError (s t : State) : Prop := ∃ c, c ≠ .none ∧ t = s.raise c

/-- EOR's advance writes READY or DONE, or keeps the phase (R234). -/
theorem State.nextRow_phase_ne_failed (h : s.phase ≠ .failed) : s.nextRow.phase ≠ .failed := by
  rw [State.nextRow_phase]
  split_ifs
  · exact nofun
  · exact nofun
  · exact h

section
variable (hf : s.phase ≠ .failed) (ht : t.phase = .failed)
include hf ht

theorem entersError_of_execScan {p : Pixel} (h : execScan p s = .next t) : EntersError s t := by
  rcases execScan_next h with ⟨hfailed, -⟩ | ⟨-, -, rfl⟩ | ⟨-, rfl⟩
  · exact absurd hfailed hf
  · exact ⟨.protoOrder, nofun, rfl⟩
  · exact absurd ht hf

theorem entersError_of_execFrm {src : SrcMode} (h : execFrm src s = .next t) : EntersError s t := by
  rcases execFrm_next h with ⟨hfailed, -⟩ | ⟨-, -, rfl⟩ | ⟨-, -, -, rfl⟩ | ⟨-, -, rfl⟩
  · exact absurd hfailed hf
  · exact ⟨.protoOrder, nofun, rfl⟩
  · exact ⟨.protoScan, nofun, rfl⟩
  · exact absurd ht nofun

/-- A pixel command that packs stays in ENCODING; every other way through it is the error entry. -/
theorem PixelNext.entersError {src : SrcMode} {legal : Prop} {r : Except Fault State}
    (h : PixelNext src legal r s t) : EntersError s t := by
  cases h with
  | ignored failed => exact absurd failed hf
  | order => exact ⟨.protoOrder, nofun, rfl⟩
  | row => exact ⟨.protoRow, nofun, rfl⟩
  | illegal => exact ⟨.illegalCmd, nofun, rfl⟩
  | packed he fed room ok u hu pack =>
    obtain ⟨hframe, -⟩ := pack
    have hphase : u.phase = s.phase := by rw [hframe]
    exact absurd (hphase.symm.trans ht) hf

theorem entersError_of_execEor (h : execEor s = .next t) : EntersError s t := by
  rcases execEor_next h with ⟨hfailed, -⟩ | ⟨-, -, rfl⟩ | ⟨-, -, rfl⟩ | ⟨-, -, rfl⟩
  · exact absurd hfailed hf
  · exact ⟨.protoOrder, nofun, rfl⟩
  · exact ⟨.protoRow, nofun, rfl⟩
  · exact absurd ht (State.nextRow_phase_ne_failed (by simpa using hf))

theorem entersError_of_execAbt {cause : BitVec 2} (h : execAbt cause s = .next t) : EntersError s t := by
  rcases execAbt_next h with ⟨hfailed, -⟩ | ⟨-, -, rfl⟩ | ⟨-, -, rfl⟩ | ⟨-, -, -, rfl⟩
  · exact absurd hfailed hf
  · exact ⟨.illegalCmd, nofun, rfl⟩
  · exact ⟨.protoOrder, nofun, rfl⟩
  · exact ⟨sourceError cause, sourceError_ne_none cause, rfl⟩

/-- Outside CFG, FAILED is entered by the error entry alone (R256). -/
theorem entersError_of_exec {i : Instr} (hi : ∀ d, i ≠ .cfg d) (h : exec i s = .next t) : EntersError s t := by
  cases i with
  | cfg d => exact absurd rfl (hi d)
  | scan p => exact entersError_of_execScan hf ht h
  | frm src => exact entersError_of_execFrm hf ht h
  | pix p => exact (execPix_next h).entersError hf ht
  | encB q => exact (execEncB_next h).entersError hf ht
  | encG q => exact (execEncG_next h).entersError hf ht
  | enc565 q => exact (execEnc565_next h).entersError hf ht
  | encRGB q => exact (execEncRGB_next h).entersError hf ht
  | eor => exact entersError_of_execEor hf ht h
  | abt cause => exact entersError_of_execAbt hf ht h
  | rst =>
    rw [exec_rst] at h
    cases h
    exact absurd ht nofun

end

/-- A CFG that ends in FAILED was refused while a job was in progress, or cleared the warnings and then entered the
error of its first failing check (R126, R256). -/
theorem execCfg_failed {d : CfgFields} (h : execCfg d s = .next t) (ht : t.phase = .failed) :
    ((s.phase = .ready ∨ s.phase = .encoding) ∧ EntersError s t) ∨
    (s.phase ≠ .ready ∧ s.phase ≠ .encoding ∧ EntersError s.clearWarnings t ∧
      FirstFailure s.params.bufMax d t.errCode) := by
  rcases execCfg_next h with ⟨hopen, rfl⟩ | ⟨hr, he, ⟨c, hc, rfl⟩ | ⟨tr, -, rfl⟩⟩
  · exact .inl ⟨hopen, .protoOrder, nofun, rfl⟩
  · exact .inr ⟨hr, he, ⟨c, cfgCheck_error_ne_none hc, rfl⟩, cfgCheck_error_iff.1 hc⟩
  · exact absurd ht nofun

end

/-- Settles O28: a CFG past its refusal enters the error from the cleared warnings, everything else from `s` itself. -/
theorem raisedErrorsWriteNothingElse : Obligations.RaisedErrorsWriteNothingElse := by
  intro i s t hcfg h ht
  by_cases hi : ∃ d, i = .cfg d
  case pos =>
    obtain ⟨d, rfl⟩ := hi
    rcases execCfg_failed h ht with ⟨hopen, c, hc, rfl⟩ | ⟨hr, he, ⟨c, hc, rfl⟩, hfirst⟩
    · exact ⟨hc, fun _ _ hr he => absurd hopen (not_or.2 ⟨hr, he⟩), fun _ => rfl⟩
    · refine ⟨hc, fun d' hd _ _ => ?_, fun hopen => absurd (hopen d rfl) (not_or.2 ⟨hr, he⟩)⟩
      cases hd
      exact ⟨hfirst, rfl⟩
  case neg =>
    obtain ⟨c, hc, rfl⟩ := entersError_of_exec (fun hf => hi (hcfg hf)) ht (not_exists.1 hi) h
    exact ⟨hc, fun d hd => absurd ⟨d, hd⟩ hi, fun _ => rfl⟩

end Sys2Proof.Machine
end

section
/-! PROOFS. The decoder and the encoder (spec/30_encoding.md): the decoder said once as a table of legal words
(`decode_eq_ok_iff`), and from it decode after encode and encode after decode. -/

namespace Sys2Proof

/-! ## The decoder as a table -/

/-- `i` is the command of the legal word `w` in a job of format `f`: the opcode's row, its reserved bits 0, its operands
read from the word (R91 to R93, R97, R102). -/
inductive DecodesTo (f : Format) (w : CmdWord) : Instr → Prop
  | cfg (op : field w 60 4 = 1) (zero : field w 48 2 = 0) : DecodesTo f w (.cfg (cfgFieldsOf w))
  | scan (op : field w 60 4 = 2) (zero : field w 32 28 = 0) : DecodesTo f w (.scan (pixelOfPayload (field w 0 32)))
  | frm (op : field w 60 4 = 3) (zero : field w 1 59 = 0) : DecodesTo f w (.frm (SrcMode.ofCode (flag w 0)))
  | pix (op : field w 60 4 = 4) (zero : field w 32 28 = 0) : DecodesTo f w (.pix (pixelOfPayload (field w 0 32)))
  | enc (op : field w 60 4 = 5) (zero : field w 32 28 = 0) : DecodesTo f w (encRow f (field w 0 32))
  | eor (op : field w 60 4 = 6) (zero : field w 0 60 = 0) : DecodesTo f w .eor
  | abt (op : field w 60 4 = 7) (zero : field w 2 58 = 0) (cause : field w 0 2 ≠ 3) : DecodesTo f w (.abt (field w 0 2))
  | rst (op : field w 60 4 = 15) (zero : field w 0 60 = 0) : DecodesTo f w .rst

theorem decodeAbt_ok {w : CmdWord} {i : Instr} :
    decodeAbt w = .ok i ↔ field w 2 58 = 0 ∧ field w 0 2 ≠ 3 ∧ .abt (field w 0 2) = i := by
  unfold decodeAbt
  split_ifs <;> simp_all

theorem decode_eq_ok_iff {f : Format} {w : CmdWord} {i : Instr} : decode f w = .ok i ↔ DecodesTo f w i := by
  constructor
  · intro h
    unfold decode at h
    simp only [] at h
    split_ifs at h with h1 h2 h3 h4 h5 h6 h7 h15
    · obtain ⟨hz, rfl⟩ := unlessReserved_ok.1 h
      exact .cfg h1 hz
    · obtain ⟨hz, rfl⟩ := unlessReserved_ok.1 h
      exact .scan h2 hz
    · obtain ⟨hz, rfl⟩ := unlessReserved_ok.1 h
      exact .frm h3 hz
    · obtain ⟨hz, rfl⟩ := unlessReserved_ok.1 h
      exact .pix h4 hz
    · obtain ⟨hz, rfl⟩ := unlessReserved_ok.1 h
      exact .enc h5 hz
    · obtain ⟨hz, rfl⟩ := unlessReserved_ok.1 h
      exact .eor h6 hz
    · obtain ⟨hz, hc, rfl⟩ := decodeAbt_ok.1 h
      exact .abt h7 hz hc
    · obtain ⟨hz, rfl⟩ := unlessReserved_ok.1 h
      exact .rst h15 hz
  · intro h
    cases h <;> simp_all [decode, unlessReserved, decodeAbt]

/-! ## Decode after encode -/

section
variable (d : CfgFields)

/-- Where R91 puts a CFG word's wider fields, and its two reserved bits. -/
theorem CfgFields.extract_body :
    d.body.extractLsb' 58 2 = d.format.code ∧ d.body.extractLsb' 56 2 = d.transp ∧ d.body.extractLsb' 48 2 = 0 ∧
    d.body.extractLsb' 32 16 = d.srcFrames ∧ d.body.extractLsb' 16 16 = d.height ∧
    d.body.extractLsb' 0 16 = d.width := by
  unfold CfgFields.body
  simp (disch := omega) only [BitVec.extractLsb'_append_eq_of_add_le, BitVec.extractLsb'_append_eq_of_le]
  simp

/-- Where R91 puts a CFG word's flags. -/
theorem CfgFields.getLsbD_body :
    d.body.getLsbD 55 = d.dither.code ∧ d.body.getLsbD 54 = d.invertAlpha ∧ d.body.getLsbD 53 = d.boSet ∧
    d.body.getLsbD 52 = d.bo.code ∧ d.body.getLsbD 51 = d.animated ∧ d.body.getLsbD 50 = d.unresized := by
  unfold CfgFields.body
  simp only [BitVec.getLsbD_append]
  simp

theorem cfgFieldsOf_encode : cfgFieldsOf (encode (.cfg d)) = d := by
  obtain ⟨hformat, htransp, -, hsrcFrames, hheight, hwidth⟩ := d.extract_body
  obtain ⟨hdither, hinvert, hboSet, hbo, hanimated, hunresized⟩ := d.getLsbD_body
  simp (disch := decide) only [cfgFieldsOf, field_encode, flag_encode, Instr.body, hformat, htransp, hsrcFrames,
    hheight, hwidth, hdither, hinvert, hboSet, hbo, hanimated, hunresized, Format.ofCode_code, Dither.ofCode_code,
    ByteOrder.ofCode_code]

theorem reserved_encode_cfg : field (encode (.cfg d)) 48 2 = 0 :=
  (field_encode _ (by decide)).trans d.extract_body.2.2.1

end

section
variable {i : Instr} {p : BitVec 32}

/-- A command of format P has its payload in bits 31 to 0 and zeros above (R92). -/
theorem field_encode_of_payload (h : i.body = payloadBody p) : field (encode i) 0 32 = p := by
  rw [field_encode _ (by decide), h, extract_payloadBody]

theorem reserved_encode_of_payload (h : i.body = payloadBody p) : field (encode i) 32 28 = 0 := by
  rw [field_encode _ (by decide), h, reserved_payloadBody]

end

theorem reserved_encode_frm (src : SrcMode) : field (encode (.frm src)) 1 59 = 0 :=
  (field_encode _ (by decide)).trans BitVec.extractLsb'_append_eq_left

theorem reserved_encode_abt (c : BitVec 2) : field (encode (.abt c)) 2 58 = 0 :=
  (field_encode _ (by decide)).trans BitVec.extractLsb'_append_eq_left

theorem cause_encode_abt (c : BitVec 2) : field (encode (.abt c)) 0 2 = c :=
  (field_encode _ (by decide)).trans BitVec.extractLsb'_append_eq_right

/-- An ENC command's word stands for the row of the format, hence for the command when that is its row (R100). -/
theorem decodesTo_encode_of_encRow {f : Format} {i : Instr} {q : BitVec 32} (hop : i.opcode = 5)
    (hb : i.body = payloadBody q) (hi : encRow f q = i) : DecodesTo f (encode i) i := by
  have h := DecodesTo.enc (f := f) ((field_op_encode i).trans hop) (reserved_encode_of_payload hb)
  rwa [field_encode_of_payload hb, hi] at h

/-- Every well-formed command that the format admits is the one its word stands for. -/
theorem decodesTo_encode {f : Format} {i : Instr} (hw : i.wellFormed = true) (hf : i.fits f = true) :
    DecodesTo f (encode i) i := by
  have hop := field_op_encode i
  cases i with
  | cfg d => simpa only [cfgFieldsOf_encode] using DecodesTo.cfg (f := f) hop (reserved_encode_cfg d)
  | scan p =>
    have h := DecodesTo.scan (f := f) hop (reserved_encode_of_payload (p := p.payload) rfl)
    rwa [field_encode_of_payload (p := p.payload) rfl, pixelOfPayload_payload] at h
  | frm src =>
    have hflag : flag (encode (.frm src)) 0 = src.code := by
      rw [flag_encode _ (by decide), Instr.body, BitVec.getLsbD_append]
      simp
    have h := DecodesTo.frm (f := f) hop (reserved_encode_frm src)
    rwa [hflag, SrcMode.ofCode_code] at h
  | pix p =>
    have h := DecodesTo.pix (f := f) hop (reserved_encode_of_payload (p := p.payload) rfl)
    rwa [field_encode_of_payload (p := p.payload) rfl, pixelOfPayload_payload] at h
  | encB q => exact decodesTo_encode_of_encRow rfl rfl (by rw [beq_iff_eq.1 hf]; rfl)
  | encG q => exact decodesTo_encode_of_encRow rfl rfl (by rw [beq_iff_eq.1 hf]; rfl)
  | enc565 q => exact decodesTo_encode_of_encRow rfl rfl (by rw [beq_iff_eq.1 hf]; rfl)
  | encRGB q => exact decodesTo_encode_of_encRow rfl rfl (by rw [beq_iff_eq.1 hf]; rfl)
  | eor => exact .eor hop rfl
  | abt c =>
    have h := DecodesTo.abt (f := f) hop (reserved_encode_abt c) (by rw [cause_encode_abt]; exact bne_iff_ne.1 hw)
    rwa [cause_encode_abt] at h
  | rst => exact .rst hop rfl

/-- Settles O1: the word of a command is in the decoder's table, with the command as its meaning. -/
theorem decodeEncodeAgree : Obligations.DecodeEncodeAgree :=
  fun _ _ hw hf => decode_eq_ok_iff.2 (decodesTo_encode hw hf)

/-! ## Encode after decode -/

/-- A command whose opcode and body are a word's has that word (R90). -/
theorem encode_eq_of_fields {i : Instr} {w : CmdWord} (hop : field w 60 4 = i.opcode)
    (hb : w.extractLsb' 0 60 = i.body) : encode i = w := by
  rw [encode, ← hop, ← hb]
  exact BitVec.extractLsb'_append_extractLsb'

theorem ofBool_flag (w : CmdWord) (k : Nat) : BitVec.ofBool (flag w k) = field w k 1 := by
  apply BitVec.eq_of_getLsbD_eq
  intro i hi
  obtain rfl : i = 0 := by omega
  simp [flag, field]

theorem body_cfgFieldsOf {w : CmdWord} (h : field w 48 2 = 0) : (cfgFieldsOf w).body = w.extractLsb' 0 60 := by
  have hz : 0#2 = field w 48 2 := h.symm
  simp only [CfgFields.body, cfgFieldsOf, Format.code_ofCode, Dither.code_ofCode, ByteOrder.code_ofCode, ofBool_flag,
    hz]
  simp (disch := omega) only [field, BitVec.extractLsb'_append_extractLsb'_eq_extractLsb']

theorem payload_pixelOfPayload (q : BitVec 32) : (pixelOfPayload q).payload = q := by
  unfold pixelOfPayload Pixel.payload
  simp (disch := omega) only [BitVec.extractLsb'_append_extractLsb'_eq_extractLsb']
  exact BitVec.extractLsb'_eq_self

/-- Format P's body when the bits above the payload are 0 (R92). -/
theorem payloadBody_field {w : CmdWord} (h : field w 32 28 = 0) : payloadBody (field w 0 32) = w.extractLsb' 0 60 := by
  have hz : 0#28 = field w 32 28 := h.symm
  rw [payloadBody, hz]
  exact BitVec.extractLsb'_append_extractLsb'_eq_extractLsb' rfl

theorem encRow_opcode (f : Format) (q : BitVec 32) : (encRow f q).opcode = 5 := by cases f <;> rfl

theorem encRow_body (f : Format) (q : BitVec 32) : (encRow f q).body = payloadBody q := by cases f <;> rfl

/-- Every row of the decoder's table is the word of its command. -/
theorem DecodesTo.encode_eq {f : Format} {w : CmdWord} {i : Instr} (h : DecodesTo f w i) : encode i = w := by
  cases h with
  | cfg op zero => exact encode_eq_of_fields op (body_cfgFieldsOf zero).symm
  | scan op zero =>
    exact encode_eq_of_fields op (by rw [Instr.body, payload_pixelOfPayload, payloadBody_field zero])
  | frm op zero =>
    have hz : 0#59 = field w 1 59 := zero.symm
    refine encode_eq_of_fields op ?_
    rw [Instr.body, SrcMode.code_ofCode, ofBool_flag, hz, field, field,
      BitVec.extractLsb'_append_extractLsb'_eq_extractLsb' (by rfl)]
  | pix op zero =>
    exact encode_eq_of_fields op (by rw [Instr.body, payload_pixelOfPayload, payloadBody_field zero])
  | enc op zero =>
    exact encode_eq_of_fields (op.trans (encRow_opcode ..).symm) (by rw [encRow_body, payloadBody_field zero])
  | eor op zero => exact encode_eq_of_fields op zero
  | abt op zero cause =>
    have hz : 0#58 = field w 2 58 := zero.symm
    refine encode_eq_of_fields op ?_
    rw [Instr.body, hz, field, field, BitVec.extractLsb'_append_extractLsb'_eq_extractLsb' (by rfl)]
  | rst op zero => exact encode_eq_of_fields op zero

theorem encode_of_decode {f : Format} {w : CmdWord} {i : Instr} (h : decode f w = .ok i) : encode i = w :=
  (decode_eq_ok_iff.1 h).encode_eq

/-- Settles O2: each row of the decoder's table is the word of its command; that the command is well formed and fits
are laws of the decoder. -/
theorem encodeDecodeAgree : Obligations.EncodeDecodeAgree :=
  fun _ _ _ h => ⟨encode_of_decode h, Machine.decode_wellFormed h, Machine.decode_fits h⟩

/-! ## Masks and matches -/

theorem append_inj {m n : Nat} {x x' : BitVec m} {y y' : BitVec n} : x ++ y = x' ++ y' ↔ x = x' ∧ y = y' := by
  refine ⟨fun h => ⟨?_, ?_⟩, fun ⟨hx, hy⟩ => by rw [hx, hy]⟩
  · simpa only [BitVec.extractLsb'_append_eq_left] using congrArg (BitVec.extractLsb' n m) h
  · simpa only [BitVec.extractLsb'_append_eq_right] using congrArg (BitVec.extractLsb' 0 n) h

/-- The form of R105's rows: a mask of the opcode and of `b` bits above the lowest `c`, a match with these 0. -/
theorem and_mask_eq_iff {a b c : Nat} (w : BitVec (4 + (a + (b + c)))) (op : BitVec 4) :
    w &&& (BitVec.allOnes 4 ++ (0#a ++ (BitVec.allOnes b ++ 0#c))) = op ++ (0#a ++ (0#b ++ 0#c)) ↔
      w.extractLsb' (a + (b + c)) 4 = op ∧ w.extractLsb' c b = 0 := by
  have hw : w = w.extractLsb' (a + (b + c)) 4 ++
      (w.extractLsb' (b + c) a ++ (w.extractLsb' c b ++ w.extractLsb' 0 c)) := by
    rw [BitVec.extractLsb'_append_extractLsb'_eq_extractLsb' (by omega),
      BitVec.extractLsb'_append_extractLsb'_eq_extractLsb' (by omega), BitVec.extractLsb'_append_extractLsb']
  conv_lhs => rw [hw]
  simp only [BitVec.and_append, append_inj, BitVec.and_allOnes, BitVec.and_zero, true_and, and_true]
  rfl

/-- A mask of the lowest `b` bits reads them. -/
theorem and_lowMask_eq_iff {a b : Nat} (w : BitVec (a + b)) (v : BitVec b) :
    w &&& (0#a ++ BitVec.allOnes b) = 0#a ++ v ↔ w.extractLsb' 0 b = v := by
  conv_lhs => rw [← BitVec.extractLsb'_append_extractLsb' (x := w)]
  simp only [BitVec.and_append, append_inj, BitVec.and_allOnes, BitVec.and_zero, true_and]

section
variable {f : Format} {w : CmdWord}

/-- A kind of command is what its legal words decode to, when its own words are legal and its row reads legal words. -/
theorem decodes_iff {α : Type} {row : α → Instr} {legal : CmdWord → Prop}
    (hencode : ∀ x, (row x).wellFormed = true → legal (encode (row x)))
    (hdecode : legal w → ∃ x, DecodesTo f w (row x)) : (∃ x, decode f w = .ok (row x)) ↔ legal w :=
  ⟨fun ⟨x, h⟩ => encode_of_decode h ▸ hencode x (Machine.decode_wellFormed h),
    fun h => (hdecode h).imp fun _ => decode_eq_ok_iff.2⟩

theorem decodes_cfg_iff : (∃ d, decode f w = .ok (.cfg d)) ↔ field w 60 4 = 1 ∧ field w 48 2 = 0 :=
  decodes_iff (legal := fun w => field w 60 4 = 1 ∧ field w 48 2 = 0)
    (fun d _ => ⟨field_op_encode _, reserved_encode_cfg d⟩) fun ⟨op, zero⟩ => ⟨_, .cfg op zero⟩

theorem decodes_scan_iff : (∃ p, decode f w = .ok (.scan p)) ↔ field w 60 4 = 2 ∧ field w 32 28 = 0 :=
  decodes_iff (legal := fun w => field w 60 4 = 2 ∧ field w 32 28 = 0)
    (fun p _ => ⟨field_op_encode _, reserved_encode_of_payload (p := p.payload) rfl⟩)
    fun ⟨op, zero⟩ => ⟨_, .scan op zero⟩

theorem decodes_frm_iff : (∃ m, decode f w = .ok (.frm m)) ↔ field w 60 4 = 3 ∧ field w 1 59 = 0 :=
  decodes_iff (legal := fun w => field w 60 4 = 3 ∧ field w 1 59 = 0)
    (fun m _ => ⟨field_op_encode _, reserved_encode_frm m⟩) fun ⟨op, zero⟩ => ⟨_, .frm op zero⟩

theorem decodes_pix_iff : (∃ p, decode f w = .ok (.pix p)) ↔ field w 60 4 = 4 ∧ field w 32 28 = 0 :=
  decodes_iff (legal := fun w => field w 60 4 = 4 ∧ field w 32 28 = 0)
    (fun p _ => ⟨field_op_encode _, reserved_encode_of_payload (p := p.payload) rfl⟩)
    fun ⟨op, zero⟩ => ⟨_, .pix op zero⟩

theorem decodes_encRow_iff : (∃ q, decode f w = .ok (encRow f q)) ↔ field w 60 4 = 5 ∧ field w 32 28 = 0 :=
  decodes_iff (legal := fun w => field w 60 4 = 5 ∧ field w 32 28 = 0)
    (fun q _ => ⟨(field_op_encode _).trans (encRow_opcode f q), reserved_encode_of_payload (encRow_body f q)⟩)
    fun ⟨op, zero⟩ => ⟨_, .enc op zero⟩

theorem decodes_abt_iff :
    (∃ c, decode f w = .ok (.abt c)) ↔ (field w 60 4 = 7 ∧ field w 2 58 = 0) ∧ field w 0 2 ≠ 3 :=
  decodes_iff (legal := fun w => (field w 60 4 = 7 ∧ field w 2 58 = 0) ∧ field w 0 2 ≠ 3)
    (fun c hc => ⟨⟨field_op_encode _, reserved_encode_abt c⟩, by rw [cause_encode_abt]; exact bne_iff_ne.1 hc⟩)
    fun ⟨⟨op, zero⟩, cause⟩ => ⟨_, .abt op zero cause⟩

theorem decodes_eor_iff : decode f w = .ok .eor ↔ field w 60 4 = 6 ∧ field w 0 60 = 0 :=
  ⟨fun h => encode_of_decode h ▸ ⟨field_op_encode _, rfl⟩, fun ⟨op, zero⟩ => decode_eq_ok_iff.2 (.eor op zero)⟩

theorem decodes_rst_iff : decode f w = .ok .rst ↔ field w 60 4 = 15 ∧ field w 0 60 = 0 :=
  ⟨fun h => encode_of_decode h ▸ ⟨field_op_encode _, rfl⟩, fun ⟨op, zero⟩ => decode_eq_ok_iff.2 (.rst op zero)⟩

end

/-- Settles O3: each command's legal words are those with its opcode and its reserved bits 0, which one mask reads. -/
theorem commandsAreTheirMasksAndMatches : Obligations.CommandsAreTheirMasksAndMatches := fun _ w =>
  ⟨decodes_cfg_iff.trans (and_mask_eq_iff (a := 10) (b := 2) (c := 48) w 1).symm,
   decodes_scan_iff.trans (and_mask_eq_iff (a := 0) (b := 28) (c := 32) w 2).symm,
   decodes_frm_iff.trans (and_mask_eq_iff (a := 0) (b := 59) (c := 1) w 3).symm,
   decodes_pix_iff.trans (and_mask_eq_iff (a := 0) (b := 28) (c := 32) w 4).symm,
   decodes_encRow_iff.trans (and_mask_eq_iff (a := 0) (b := 28) (c := 32) w 5).symm,
   decodes_eor_iff.trans (and_mask_eq_iff (a := 0) (b := 60) (c := 0) w 6).symm,
   decodes_abt_iff.trans (and_congr (and_mask_eq_iff (a := 0) (b := 58) (c := 2) w 7).symm
     (not_congr (and_lowMask_eq_iff (a := 62) (b := 2) w 3)).symm),
   decodes_rst_iff.trans (and_mask_eq_iff (a := 0) (b := 60) (c := 0) w 15).symm⟩

/-! ## Illegal words and vectors -/

theorem unlessReserved_error {n : Nat} {v : BitVec n} {i : Instr} :
    (∃ e, unlessReserved v i = .error e) ↔ v ≠ 0 := by
  unfold unlessReserved
  split_ifs <;> simp_all

theorem decodeAbt_error {w : CmdWord} : (∃ e, decodeAbt w = .error e) ↔ field w 2 58 ≠ 0 ∨ field w 0 2 = 3 := by
  unfold decodeAbt
  split_ifs <;> simp_all

/-- The words the decoder rejects are those of R102 and R103. -/
theorem illegalByTheRules_iff (f : Format) (w : CmdWord) :
    Machine.IllegalByTheRules w ↔ ∃ e, decode f w = .error e := by
  unfold decode
  simp only []
  have hfield : ∀ lo len, w.extractLsb' lo len = field w lo len := fun _ _ => rfl
  split_ifs with h1 h2 h3 h4 h5 h6 h7 h15
  case neg =>
    have hreserved : ∀ op : BitVec 4, ¬op = 1 → ¬op = 2 → ¬op = 3 → ¬op = 4 → ¬op = 5 → ¬op = 6 → ¬op = 7 →
        ¬op = 15 →
        op.toNat = 0 ∨ 8 ≤ op.toNat ∧ op.toNat ≤ 14 := by bv_omega
    refine iff_of_true ?_ ⟨_, rfl⟩
    rcases hreserved _ h1 h2 h3 h4 h5 h6 h7 h15 with h | h
    · exact .inl h
    · exact .inr (.inl h)
  all_goals
    simp only [Machine.IllegalByTheRules, hfield, unlessReserved_error, decodeAbt_error]
    simp [*]

/-- Bits that a mask reads are those of the match. -/
theorem field_eq_of_and_eq {w mask m : CmdWord} {lo len : Nat} (h : w &&& mask = m)
    (hm : field mask lo len = BitVec.allOnes len) : field w lo len = field m lo len := by
  have hf : field w lo len &&& field mask lo len = field m lo len := by
    rw [← h]; exact BitVec.extractLsb'_and.symm
  rwa [hm, BitVec.and_allOnes] at hf

/-- Settles O5: seven closed words. -/
theorem wordsOfTheVectorTableDecode : Obligations.WordsOfTheVectorTableDecode := by
  unfold Obligations.WordsOfTheVectorTableDecode
  decide

/-- Settles O40: the codes are a table, and the words are concatenations by definition. -/
theorem codesAndPayloadWordsAreTheTables : Obligations.CodesAndPayloadWordsAreTheTables := by
  refine ⟨by decide, by decide, by decide, by decide, by decide, fun _ => rfl, fun f _ => ?_, rfl⟩
  cases f <;> rfl

namespace Machine

/-! ## The step by its next input -/

section
variable {s : State} {w : CmdWord} {rest : List HostInput}

/-- A legal word runs its command on the state without it (R104). -/
theorem step_command {i : Instr} (hin : s.inputs = .command w :: rest) (hd : decode s.job.format w = .ok i) :
    step s = exec i (s.withInputs rest) := by
  simp [step, State.nextInput, hin, stepWord, hd]

theorem step_of_inputs_nil (hin : s.inputs = []) : step s = .next s := by
  simp [step, State.nextInput, hin]

theorem step_of_hardwareReset (hin : s.inputs = .hardwareReset :: rest) :
    step s = .next (s.withInputs rest).resetRegisters := by
  simp [step, State.nextInput, hin, hardwareReset]

/-- A CFG word with transparency code 3 is legal and fails check 1 (R103, R122). -/
theorem decode_cfg_reservedTransp (f : Format) (h : w &&& 0xF303000000000000 = 0x1300000000000000) :
    ∃ d, decode f w = .ok (.cfg d) ∧ d.transp = 3 :=
  ⟨cfgFieldsOf w, decode_eq_ok_iff.2 (.cfg (field_eq_of_and_eq h rfl) (field_eq_of_and_eq h rfl)),
    field_eq_of_and_eq (lo := 56) (len := 2) h rfl⟩

theorem cfgCheck_badEnum {bufMax : Option Nat} {d : CfgFields} (h : d.transp = 3) :
    cfgCheck bufMax d = .error .cfgBadEnum := by
  rw [cfgCheck, Transparency.ofCode_eq_none.2 h]

end

/-- Settles O6: the three kinds of input that are not illegal words. -/
theorem stepRunsTheDecodedCommand : Obligations.StepRunsTheDecodedCommand := fun _ =>
  ⟨step_of_inputs_nil, fun _ => step_of_hardwareReset, fun _ _ _ => step_command⟩

/-- Settles O4: the decoder's errors are R102's and R103's words; one is an error outside FAILED, and a CFG with
transparency code 3 fails its first check. -/
theorem illegalWordsRaiseIllegalCommand : Obligations.IllegalWordsRaiseIllegalCommand := by
  intro s w rest hin
  refine ⟨fun f => illegalByTheRules_iff f w, fun hw hf => ?illegal, rfl, fun hw hr he => ?badEnum⟩
  case illegal =>
    obtain ⟨e, hd⟩ := (illegalByTheRules_iff s.job.format w).1 hw
    exact (step_illegalWord hin hd).trans (illegalWord_raises hf)
  case badEnum =>
    obtain ⟨d, hd, ht⟩ := decode_cfg_reservedTransp s.job.format hw
    exact (step_command hin hd).trans (execCfg_rejected hr he (cfgCheck_badEnum ht))

end Machine
end Sys2Proof
end

section
/-! PROOFS. The invariant (spec/10_state.md R42): reset meets it, and every command that its word's format admits keeps
it. One lemma per update of Machine/Ops.lean, each giving the fields that the update touches. -/

namespace Sys2Proof.Machine

/-! ## Layout and bits -/

theorem toNat_pos {w : Nat} {v : BitVec w} (h : v ≠ 0) : 0 < v.toNat :=
  Nat.pos_of_ne_zero fun h0 => h (BitVec.eq_of_toNat_eq h0)

theorem frameCount_pos (animated : Bool) (srcFrames : BitVec 16) : 0 < (frameCount animated srcFrames).toNat := by
  unfold frameCount
  split_ifs with hf
  · omega
  · decide

@[simp] theorem rowBytes_zero (f : Format) (t : Transparency) : rowBytes f t 0 = 0 := by
  cases f <;> simp [rowBytes]

/-- A byte format's row grows by the bytes of a pixel (R42(c)). -/
theorem rowBytes_succ {f : Format} (hf : f ≠ .binary) (t : Transparency) (col : Nat) :
    rowBytes f t (col + 1) = rowBytes f t col + pixelBytes f t := by
  cases f with
  | binary => exact absurd rfl hf
  | grayscale => rfl
  | rgb565 => simp only [rowBytes, pixelBytes]; split_ifs <;> omega
  | rgb => simp only [rowBytes, pixelBytes]; split_ifs <;> omega

theorem pixelBytes_pos (f : Format) (t : Transparency) : 0 < pixelBytes f t := by
  cases f <;> unfold pixelBytes <;> split_ifs <;> decide

/-- The bits after the cursor's are among those from it on. -/
theorem and_rest_succ {v : Byte} {n : Nat} (hv : v &&& (0xFF#8 >>> n) = 0) : v &&& (0xFF#8 >>> (n + 1)) = 0 := by
  have hones : 0xFF#8 = BitVec.allOnes 8 := rfl
  have hsub : 0xFF#8 >>> (n + 1) = (0xFF#8 >>> n) &&& (0xFF#8 >>> (n + 1)) := by
    apply BitVec.eq_of_getLsbD_eq
    intro i _
    rw [hones]
    simp only [BitVec.getLsbD_and, BitVec.getLsbD_ushiftRight, BitVec.getLsbD_allOnes]
    grind
  rw [hsub, ← BitVec.and_assoc, hv]
  exact BitVec.zero_and

theorem bitMask_and_rest (c : BitVec 3) : bitMask c &&& (0xFF#8 >>> (c.toNat + 1)) = 0 := by
  revert c; decide

theorem State.le_padRow_writeIndex (s : State) : s.writeIndex ≤ s.padRow.writeIndex := by
  rw [State.padRow_writeIndex]
  split_ifs
  · exact Nat.le_succ _
  · exact Nat.le_refl _

/-- The base of a row is the end of the row before it (R63). -/
theorem State.rowBase_succ (s : State) (frame row : Nat) :
    s.rowBase frame (row + 1) = s.rowBase frame row + s.enc.storageWidth := Nat.mul_succ ..

/-- After a frame's last row comes the next frame's first (R63). -/
theorem State.rowBase_height (s : State) (frame : Nat) : s.rowBase frame s.heightNat = s.rowBase (frame + 1) 0 := by
  rw [State.rowBase, State.rowBase, Nat.succ_mul, Nat.add_zero]

/-! ## PIX by the job's format -/

/-- A pixel of a byte format is packed as the bytes of a pixel (R145). -/
theorem encodeSource_eq_appendBytes {s : State} (hf : s.job.format ≠ .binary) (p : Pixel) :
    ∃ vs, encodeSource p s = appendBytes vs s ∧ vs.length = pixelBytes s.job.format s.enc.transp := by
  cases hg : s.job.format with
  | binary => exact absurd hg hf
  | grayscale => exact ⟨_, encodeSource_grayscale hg rfl, rfl⟩
  | rgb565 => exact ⟨_, by rw [encodeSource, hg]; rfl, length_bytes565 ..⟩
  | rgb => exact ⟨_, by rw [encodeSource, hg]; rfl, length_bytesRGB ..⟩

/-- A Binary pixel is packed as a bit once the normaliser has changed the cells (R145, R147). -/
theorem encodeSource_ok_binary {s u : State} {p : Pixel} (hf : s.job.format = .binary) (hu : encodeSource p s = .ok u) :
    ∃ bit v, normBinary p s = .ok (bit, v) ∧ packBinary bit v = .ok u := by
  unfold encodeSource at hu
  simp only [hf] at hu
  split at hu
  next bit v hv => exact ⟨bit, v, hv, hu⟩
  next => cases hu

/-! ## Reset and an accepted CFG -/

theorem inv_resetRegisters {s : State} (h : s.params.tMono ≠ 0) : Inv s.resetRegisters where
  memory := rfl
  listed := rfl
  index := Nat.le_refl 0
  cursor := fun hc => absurd rfl hc
  unwritten := fun _ _ => rfl
  current := BitVec.zero_and
  storage := show 0 = (0 + 7) / 8 by decide
  totalRows := rfl
  length := rfl
  order := rfl
  resolved := .inl rfl
  allowed := rfl
  configured := fun hp => absurd rfl hp
  idle := fun _ => rfl
  ready := nofun
  encoding := nofun
  done := nofun
  position := ⟨Nat.le_refl 0, Nat.le_refl 0, Nat.le_refl 0⟩
  cells := ⟨rfl, rfl⟩
  quiet := fun _ => ⟨nofun, nofun⟩
  alphaOnly := nofun
  error := ⟨fun he => absurd rfl he, nofun⟩
  scanned := Nat.zero_le _
  threshold := h

/-- Settles O34: `State.reset` is the reset of itself. -/
theorem resetMeetsTheInvariant : Obligations.ResetMeetsTheInvariant :=
  ⟨inv_resetRegisters (s := State.reset) (by decide), fun _ => inv_resetRegisters⟩

/-- An accepted CFG establishes the invariant, whatever the state was (R73, R243). -/
theorem inv_configure {s : State} {d : CfgFields} {tr : Transparency} (hthreshold : s.params.tMono ≠ 0)
    (hok : cfgCheck s.params.bufMax d = .ok tr) : Inv (s.clearWarnings.configure d tr) := by
  obtain ⟨hw, hh, hallowed, -⟩ := cfgCheckJob_none.1 (cfgCheck_ok.1 hok).2
  have hframes := frameCount_pos d.animated d.srcFrames
  exact {
    memory := rfl
    listed := rfl
    index := Nat.zero_le _
    cursor := fun hc => absurd rfl hc
    unwritten := fun _ _ => rfl
    current := BitVec.zero_and
    storage := rfl
    totalRows := rfl
    length := rfl
    order := rfl
    resolved := .inl rfl
    allowed := hallowed
    configured := fun _ _ => ⟨toNat_pos hw, toNat_pos hh, hframes⟩
    idle := nofun
    ready := fun _ => ⟨hframes, rfl, rfl, by simp [State.rowBase]⟩
    encoding := nofun
    done := nofun
    position := ⟨Nat.zero_le _, Nat.zero_le _, Nat.zero_le _⟩
    cells := ⟨List.length_replicate, List.length_replicate⟩
    quiet := fun _ => ⟨fun _ => List.eq_of_mem_replicate, fun _ => List.eq_of_mem_replicate⟩
    alphaOnly := nofun
    error := ⟨fun he => absurd rfl he, nofun⟩
    scanned := Nat.zero_le _
    threshold := hthreshold }

/-! ## The end of a row -/

/-- The position, the write position and the phase that EOR leaves: another row of the frame, another frame, or the end
of the job (R42(c) to (e), R174). -/
inductive RowStart (s : State) (index : Nat) : Nat → Nat → Phase → Prop
  | encoding {frame row : Nat} (hframe : frame < s.framesNat) (hrow : row < s.heightNat)
      (hindex : index = s.rowBase frame row) : RowStart s index frame row .encoding
  | ready {frame : Nat} (hframe : frame < s.framesNat) (hindex : index = s.rowBase frame 0) :
      RowStart s index frame 0 .ready
  | done {frame : Nat} (hframe : frame = s.framesNat) (hindex : index = s.enc.bufLen) : RowStart s index frame 0 .done

theorem RowStart.phase_ne {s : State} {index frame row : Nat} {phase : Phase} (h : RowStart s index frame row phase) :
    phase ≠ .idle ∧ phase ≠ .failed := by cases h <;> exact ⟨nofun, nofun⟩

section
variable {s t : State} (h : Inv s)
include h

/-! ## The host's inputs and the error entry -/

theorem Inv.withInputs (rest : List HostInput) : Inv (s.withInputs rest) :=
  { h with idle := fun hp => congrArg (State.withInputs rest) (h.idle hp) }

/-- The error entry keeps the invariant, the warnings cleared before it or not (R126, R256). -/
theorem Inv.enterError {c : ErrCode} (hc : c ≠ .none) (oversize alphaOnly frames : Bool) :
    Inv { s.raise c with warnOversize := oversize, warnAlphaOnly := alphaOnly, warnFrames := frames } :=
  { h with
    cursor := fun hb => ⟨(h.cursor hb).1, .inr rfl⟩
    configured := fun _ hf => absurd rfl hf
    idle := nofun
    ready := nofun
    encoding := nofun
    done := nofun
    error := ⟨fun _ => rfl, fun _ => hc⟩ }

theorem Inv.raise {c : ErrCode} (hc : c ≠ .none) : Inv (s.raise c) := h.enterError hc _ _ _

/-! ## CFG -/

theorem Inv.of_execCfg {d : CfgFields} (ht : execCfg d s = .next t) : Inv t := by
  rcases execCfg_next ht with ⟨-, rfl⟩ | ⟨-, -, ⟨c, hc, rfl⟩ | ⟨tr, hok, rfl⟩⟩
  · exact h.raise nofun
  · exact h.enterError (cfgCheck_error_ne_none hc) _ _ _
  · exact inv_configure h.threshold hok

/-! ## SCAN and FRM -/

theorem Inv.accumulate (p : Pixel) (hr : s.phase = .ready) : Inv (s.accumulate p) :=
  { h with
    idle := fun hp => absurd (hr.symm.trans hp) nofun
    scanned := Nat.min_le_right .. }

theorem Inv.of_execScan {p : Pixel} (ht : execScan p s = .next t) : Inv t := by
  rcases execScan_next ht with ⟨-, rfl⟩ | ⟨-, -, rfl⟩ | ⟨hr, rfl⟩
  · exact h
  · exact h.raise nofun
  · exact h.accumulate p hr

theorem Inv.bitCursor_of_ready (hr : s.phase = .ready) : s.bitCursor = 0 := by
  by_contra hc
  rcases (h.cursor hc).2 with hp | hp <;> exact absurd (hr.symm.trans hp) nofun

/-- Opening a frame in READY (R142): the position is the frame's first pixel. -/
theorem Inv.openFrame (src : SrcMode) {alphaOnly : Bool} (hr : s.phase = .ready)
    (ha : alphaOnly = true → s.job.format = .binary ∨ (s.job.format = .grayscale ∧ s.enc.transp = .alphaChannel)) :
    Inv (s.openFrame src alphaOnly) := by
  obtain ⟨hframe, -, -, hindex⟩ := h.ready hr
  obtain ⟨-, hheight, hframes⟩ := h.configured (by simp [hr]) (by simp [hr])
  have hcursor := h.bitCursor_of_ready hr
  exact { h with
    cursor := fun hb => absurd hcursor hb
    configured := fun _ _ => h.configured (by simp [hr]) (by simp [hr])
    idle := nofun
    ready := nofun
    encoding := fun _ => ⟨hframe, hheight, by
      rw [State.openFrame_col, rowBytes_zero]
      exact hindex, fun _ => congrArg BitVec.toNat hcursor⟩
    done := nofun
    position := ⟨h.position.1, Nat.zero_le _, Nat.zero_le _⟩
    cells := ⟨(length_zeroCells _).trans h.cells.1, (length_zeroCells _).trans h.cells.2⟩
    quiet := fun _ => ⟨fun _ => mem_zeroCells, fun _ => mem_zeroCells⟩
    alphaOnly := ha
    error := ⟨fun he => absurd (hr.symm.trans (h.error.1 he)) nofun, nofun⟩
    scanned := Nat.zero_le _ }

/-- The override of a Grayscale job (R144): its storage width does not depend on the transparency. -/
theorem Inv.override {on : Bool} (hr : s.phase = .ready) (hon : on = true → s.job.format = .grayscale) :
    Inv (s.override on) := by
  cases on with
  | false => exact h
  | true =>
    have hg := hon rfl
    exact { h with
      storage := show s.enc.storageWidth = storageWidth s.job.format .alphaChannel s.widthNat by
        rw [h.storage, hg]; rfl
      resolved := .inr ⟨hg, rfl⟩
      idle := fun hp => absurd (hr.symm.trans hp) nofun
      alphaOnly := fun _ => .inr ⟨hg, rfl⟩ }

theorem Inv.startFrame (src : SrcMode) (hr : s.phase = .ready) : Inv (s.startFrame src) := by
  refine (h.override hr fun hon => ((overrides_iff ..).1 hon).1).openFrame src (by simpa using hr) fun ha => ?_
  have hneeds : s.needsScan src = true := (Bool.and_eq_true_iff.1 ha).1
  rcases ((s.needsScan_iff src).1 hneeds).2 with hb | hg
  · exact .inl (by simpa using hb)
  · refine .inr ⟨by simpa using hg, ?_⟩
    by_cases ht : s.enc.transp = .alphaChannel <;> simp [overrides, ha, hg, ht]

theorem Inv.of_execFrm {src : SrcMode} (ht : execFrm src s = .next t) : Inv t := by
  rcases execFrm_next ht with ⟨-, rfl⟩ | ⟨-, -, rfl⟩ | ⟨-, -, -, rfl⟩ | ⟨hr, -, rfl⟩
  · exact h
  · exact h.raise nofun
  · exact h.raise nofun
  · exact h.startFrame src hr

/-! ## EOR -/

/-- The end of a full row is the base of the next: padding makes up for a Binary row's last byte (R62, R174). -/
theorem Inv.padRow_writeIndex (he : s.phase = .encoding) (hc : s.col = s.job.width.toNat) :
    s.padRow.writeIndex = s.rowBase s.frame s.row + s.enc.storageWidth := by
  obtain ⟨-, -, hindex, hcursor⟩ := h.encoding he
  have hzero : s.bitCursor = 0 ↔ s.bitCursor.toNat = 0 := BitVec.toNat_inj (y := 0).symm
  have hwidth := h.storageWidth_job
  rw [State.padRow_writeIndex, hindex, hwidth, hc, State.widthNat]
  cases hf : s.job.format with
  | binary =>
    have hcur := hcursor hf
    simp only [rowBytes, storageWidth, true_and, Ne, hzero, hcur, hc]
    split_ifs <;> omega
  | grayscale => simp [rowBytes, storageWidth]
  | rgb565 => simp [rowBytes, storageWidth]
  | rgb => simp [rowBytes, storageWidth]

theorem Inv.padRow_bitCursor : s.padRow.bitCursor = 0 := by
  rw [State.padRow_bitCursor]
  split_ifs with hp
  · rfl
  · by_contra hb
    exact hp ⟨(h.cursor hb).1, hb⟩

/-- Where the padding leaves the write position no bit is set (R42(f)). -/
theorem Inv.byteAt_padRow_writeIndex : s.byteAt s.padRow.writeIndex = 0 := by
  have hcursor := h.padRow_bitCursor
  rw [State.padRow_writeIndex]
  rw [State.padRow_bitCursor] at hcursor
  split_ifs with hp
  · exact h.unwritten _ (Nat.lt_succ_self _)
  · rw [if_neg hp] at hcursor
    have hcurrent := h.current
    rw [hcursor] at hcurrent
    exact BitVec.and_allOnes.symm.trans hcurrent

/-- EOR's three updates in a full row as one, the write position and the cursor in terms of the layout. -/
theorem Inv.endRow_eq (he : s.phase = .encoding) (hc : s.col = s.job.width.toNat) :
    s.padRow.shiftErrors.nextRow = { s with
      writeIndex := s.rowBase s.frame s.row + s.enc.storageWidth, bitCursor := 0
      errCur := s.shiftErrors.errCur, errNxt := s.shiftErrors.errNxt
      col := 0, row := s.nextRow.row, frame := s.nextRow.frame, phase := s.nextRow.phase } := by
  rw [← h.padRow_writeIndex he hc, ← h.padRow_bitCursor]
  rw [State.nextRow_eq, State.shiftErrors_eq, State.padRow_eq, State.nextRow_eq, State.shiftErrors_eq]

/-- After the last frame's last row the buffer is full (R42(e)). -/
theorem Inv.rowBase_frames : s.rowBase s.framesNat 0 = s.enc.bufLen := by
  rw [State.rowBase, h.length, h.totalRows, Nat.add_zero, Nat.mul_comm s.framesNat]

theorem Inv.shiftErrors_cells :
    s.shiftErrors.errCur.length = s.widthNat ∧ s.shiftErrors.errNxt.length = s.widthNat := by
  obtain ⟨hcur, hnxt⟩ := h.cells
  rw [State.shiftErrors_errCur, State.shiftErrors_errNxt]
  split_ifs
  · exact ⟨hnxt, (length_zeroCells _).trans hnxt⟩
  · exact ⟨hcur, hnxt⟩

theorem Inv.shiftErrors_quiet (hq : ¬(s.job.format = .binary ∧ s.job.dither = .floydSteinberg)) :
    (∀ c ∈ s.shiftErrors.errCur, c = 0) ∧ ∀ c ∈ s.shiftErrors.errNxt, c = 0 := by
  rw [State.shiftErrors_errCur, State.shiftErrors_errNxt, if_neg hq, if_neg hq]
  exact h.quiet hq

theorem Inv.errCode_of_encoding (he : s.phase = .encoding) : s.errCode = .none := by
  by_contra hcode
  exact absurd (he.symm.trans (h.error.1 hcode)) nofun

/-- EOR's position: another row of the frame, another frame, or the end of the job. -/
theorem Inv.nextRow_position (he : s.phase = .encoding) {index : Nat}
    (hindex : index = s.rowBase s.frame s.row + s.enc.storageWidth) :
    RowStart s index s.nextRow.frame s.nextRow.row s.nextRow.phase := by
  obtain ⟨hframe, hrow, -, -⟩ := h.encoding he
  rw [← State.rowBase_succ] at hindex
  rw [State.nextRow_row, State.nextRow_frame, State.nextRow_phase]
  by_cases hl : s.row + 1 = s.job.height.toNat
  · have hbase : index = s.rowBase (s.frame + 1) 0 := by
      rw [hindex, ← State.rowBase_height]; exact congrArg _ hl
    simp only [hl, if_true]
    by_cases hlast : s.frame + 1 = s.enc.frameCount.toNat
    · rw [if_pos hlast]
      exact .done hlast (by rw [hbase, hlast]; exact h.rowBase_frames)
    · rw [if_neg hlast]
      exact .ready (Nat.lt_of_le_of_ne hframe hlast) hbase
  · simp only [hl, if_false, he]
    exact .encoding hframe (Nat.lt_of_le_of_ne hrow hl) hindex

/-- EOR's three updates in a full row. -/
theorem Inv.endRow (he : s.phase = .encoding) (hc : s.col = s.job.width.toNat) :
    Inv s.padRow.shiftErrors.nextRow := by
  obtain ⟨hframe, hrow, -, -⟩ := h.encoding he
  have hle := s.le_padRow_writeIndex
  have hbyte := h.byteAt_padRow_writeIndex
  have hstart := h.nextRow_position he rfl
  rw [h.padRow_writeIndex he hc] at hle hbyte
  rw [h.endRow_eq he hc]
  generalize s.nextRow.frame = frame, s.nextRow.row = row, s.nextRow.phase = phase at hstart ⊢
  exact { h with
    index := rowBase_add_le h hframe hrow
    cursor := fun hb => absurd rfl hb
    unwritten := fun a ha => h.unwritten a (hle.trans_lt ha)
    current := (congrArg (· &&& _) hbyte).trans BitVec.zero_and
    configured := fun _ _ => h.configured (by simp [he]) (by simp [he])
    idle := fun hp => absurd hp hstart.phase_ne.1
    ready := fun hp => by
      subst hp
      cases hstart with
      | ready hframe hindex => exact ⟨hframe, rfl, rfl, hindex⟩
    encoding := fun hp => by
      subst hp
      cases hstart with
      | encoding hframe hrow hindex =>
        refine ⟨hframe, hrow, hindex.trans ?_, fun _ => rfl⟩
        rw [rowBytes_zero]
        rfl
    done := fun hp => by
      subst hp
      cases hstart with
      | done hframe hindex => exact ⟨hframe, rfl, rfl, hindex⟩
    position := by
      cases hstart with
      | encoding hframe hrow => exact ⟨hframe.le, hrow.le, Nat.zero_le _⟩
      | ready hframe => exact ⟨hframe.le, Nat.zero_le _, Nat.zero_le _⟩
      | done hframe => exact ⟨hframe.le, Nat.zero_le _, Nat.zero_le _⟩
    cells := h.shiftErrors_cells
    quiet := h.shiftErrors_quiet
    error := ⟨fun hcode => absurd (h.errCode_of_encoding he) hcode, fun hp => absurd hp hstart.phase_ne.2⟩ }

theorem Inv.of_execEor (ht : execEor s = .next t) : Inv t := by
  rcases execEor_next ht with ⟨-, rfl⟩ | ⟨-, -, rfl⟩ | ⟨-, -, rfl⟩ | ⟨he, hc, rfl⟩
  · exact h
  · exact h.raise nofun
  · exact h.raise nofun
  · exact h.endRow he hc

/-! ## ABT -/

theorem Inv.of_execAbt {cause : BitVec 2} (ht : execAbt cause s = .next t) : Inv t := by
  rcases execAbt_next ht with ⟨-, rfl⟩ | ⟨-, -, rfl⟩ | ⟨-, -, rfl⟩ | ⟨-, -, -, rfl⟩
  · exact h
  · exact h.raise nofun
  · exact h.raise nofun
  · exact h.raise (sourceError_ne_none cause)

/-! ## Pixels -/

theorem Inv.bitCursor_of_bytes (hf : s.job.format ≠ .binary) : s.bitCursor = 0 := by
  by_contra hb
  exact hf (h.cursor hb).1

theorem Inv.wf_orCursorBit (on : Bool) : Memory.wf (s.orCursorBit on).buffer = true := by
  cases on with
  | false => exact h.memory
  | true => exact Memory.wf_set _ _ h.memory

theorem Inv.below_orCursorBit (on : Bool) (hroom : s.writeIndex < s.enc.bufLen) :
    Memory.below s.enc.bufLen (s.orCursorBit on).buffer = true := by
  cases on with
  | false => exact h.listed
  | true => exact Memory.below_set _ hroom h.listed

/-- Setting the cursor's bit leaves the bits after it clear (R42(f)). -/
theorem Inv.current_orCursorBit (on : Bool) :
    (s.orCursorBit on).byteAt s.writeIndex &&& (0xFF#8 >>> (s.bitCursor.toNat + 1)) = 0 := by
  have hrest := and_rest_succ h.current
  cases on with
  | false => exact hrest
  | true =>
    have hbyte : (s.orCursorBit true).byteAt s.writeIndex = s.byteAt s.writeIndex ||| bitMask s.bitCursor :=
      Memory.get_set_eq _ _ h.memory
    rw [hbyte, BitVec.and_or_distrib_right, hrest, bitMask_and_rest]
    rfl

section
variable (he : s.phase = .encoding) (hc : s.col ≠ s.job.width.toNat)
include he hc

/-- A pixel stored as bytes keeps the invariant: its bytes end where the next pixel's begin. -/
theorem Inv.of_appendBytes {vs : List Byte} {u : State} (hf : s.job.format ≠ .binary)
    (hl : vs.length = pixelBytes s.job.format s.job.transp) (hu : appendBytes vs s = .ok u) :
    Inv { u with col := u.col + 1 } := by
  obtain ⟨hframe, hrow, hindex, -⟩ := h.encoding he
  have hroom := h.room he hc
  rw [← hl] at hroom
  obtain ⟨m, hm, hwf, hbelow, -, hrest⟩ := appendBytes_of_le h.memory hroom
  cases hm.symm.trans hu
  have hpos : 0 < vs.length := hl ▸ pixelBytes_pos ..
  have hcursor := h.bitCursor_of_bytes hf
  exact { h with
    memory := hwf
    listed := hbelow h.listed
    index := hroom
    unwritten := fun a ha => (hrest a (.inr ha.le)).trans (h.unwritten a (lt_of_le_of_lt (Nat.le_add_right ..) ha))
    current := by
      have hnext : s.byteAt (s.writeIndex + vs.length) = 0 := h.unwritten _ (Nat.lt_add_of_pos_right hpos)
      exact (congrArg (· &&& _) ((hrest _ (.inr (Nat.le_refl _))).trans hnext)).trans BitVec.zero_and
    idle := fun hp => absurd (he.symm.trans hp) nofun
    ready := fun hp => absurd (he.symm.trans hp) nofun
    encoding := fun _ => ⟨hframe, hrow, by
      show s.writeIndex + vs.length = s.rowBase s.frame s.row + rowBytes s.job.format s.job.transp (s.col + 1)
      rw [rowBytes_succ hf, hindex, hl, Nat.add_assoc], fun hb => absurd hb hf⟩
    done := fun hp => absurd (he.symm.trans hp) nofun
    position := ⟨h.position.1, h.position.2.1, h.col_lt hc⟩ }

/-- A packed bit keeps the invariant: the cursor and the write position move as the column does. -/
theorem Inv.of_packBinary {bit : Bool} {u : State} (hf : s.job.format = .binary) (hu : packBinary bit s = .ok u) :
    Inv { u with col := u.col + 1 } := by
  obtain ⟨hframe, hrow, hindex, hcursor⟩ := h.encoding he
  have hroom : s.writeIndex < s.enc.bufLen := h.writeIndex_lt_of_binary ⟨he, rfl, hc⟩ hf
  have hcur := hcursor hf
  cases (packBinary_of_lt bit hroom).symm.trans hu
  generalize (bit ^^ s.job.invertAlpha) = on
  change Inv { (s.orCursorBit on).advanceBit with col := (s.orCursorBit on).advanceBit.col + 1 }
  rw [State.advanceBit_eq, State.orCursorBit_eq]
  have hmoves : s.writeIndex ≤ (if s.bitCursor.toNat = 7 then s.writeIndex + 1 else s.writeIndex) ∧
      (if s.bitCursor.toNat = 7 then s.writeIndex + 1 else s.writeIndex) ≤ s.enc.bufLen := by
    split_ifs <;> omega
  exact { h with
    memory := h.wf_orCursorBit on
    listed := h.below_orCursorBit on hroom
    index := hmoves.2
    cursor := fun _ => ⟨hf, .inl he⟩
    unwritten := fun a ha => by
      have hlt : s.writeIndex < a := lt_of_le_of_lt hmoves.1 ha
      exact (State.byteAt_orCursorBit_ne on hlt.ne').trans (h.unwritten a hlt)
    current := by
      show (s.orCursorBit on).byteAt (if s.bitCursor.toNat = 7 then s.writeIndex + 1 else s.writeIndex) &&&
        (0xFF#8 >>> (BitVec.ofNat 3 ((s.bitCursor.toNat + 1) % 8)).toNat) = 0
      by_cases hlast : s.bitCursor.toNat = 7
      · rw [if_pos hlast, State.byteAt_orCursorBit_ne on (Nat.succ_ne_self _), h.unwritten _ (Nat.lt_succ_self _)]
        exact BitVec.zero_and
      · have hnext : (BitVec.ofNat 3 ((s.bitCursor.toNat + 1) % 8)).toNat = s.bitCursor.toNat + 1 := by
          rw [BitVec.toNat_ofNat]; omega
        rw [if_neg hlast, hnext]
        exact h.current_orCursorBit on
    idle := fun hp => absurd (he.symm.trans hp) nofun
    ready := fun hp => absurd (he.symm.trans hp) nofun
    encoding := fun _ => by
      refine ⟨hframe, hrow, ?_, fun _ => ?_⟩
      · show (if s.bitCursor.toNat = 7 then s.writeIndex + 1 else s.writeIndex) =
          s.rowBase s.frame s.row + rowBytes s.job.format s.job.transp (s.col + 1)
        rw [hindex, hcur, hf]
        simp only [rowBytes]
        split_ifs <;> omega
      · show (BitVec.ofNat 3 ((s.bitCursor.toNat + 1) % 8)).toNat = (s.col + 1) % 8
        rw [BitVec.toNat_ofNat, hcur]
        omega
    done := fun hp => absurd (he.symm.trans hp) nofun
    position := ⟨h.position.1, h.position.2.1, h.col_lt hc⟩ }

/-- Appending as many bytes as a pixel of the resolved transparency has keeps the invariant. -/
theorem Inv.of_appendBytes_resolved {f : Format} {vs : List Byte} {u : State} (hf : s.job.format = f)
    (hb : f ≠ .binary) (hl : vs.length = pixelBytes f s.enc.transp) (hu : appendBytes vs s = .ok u) :
    Inv { u with col := u.col + 1 } := by
  subst hf
  exact h.of_appendBytes he hc hb (hl.trans h.pixelBytes_resolved) hu

end

/-- The dither step keeps the invariant (R33). -/
theorem Inv.withCells {cur nxt : List Int} (he : s.phase = .encoding)
    (hd : s.job.format = .binary ∧ s.job.dither = .floydSteinberg)
    (hl : cur.length = s.widthNat ∧ nxt.length = s.widthNat) : Inv (s.withCells cur nxt) :=
  { h with
    idle := fun hp => absurd (he.symm.trans hp) nofun
    cells := hl
    quiet := fun hq => absurd hd hq }

theorem Inv.of_normBinary {p : Pixel} {bit : Bool} {u : State} (he : s.phase = .encoding) (hf : s.job.format = .binary)
    (hu : normBinary p s = .ok (bit, u)) : Inv u := by
  obtain ⟨hcells, hquiet, hdither⟩ := normBinary_ok hu
  cases hd : s.job.dither with
  | noDither => exact (hquiet hd).1 ▸ h
  | floydSteinberg =>
    have hlen := length_apply s.params.fs s.params.tMono s.job.width.toNat
      (monoSource s.params.luma s.alphaOnly p) s.col s.errCur s.errNxt
    rw [← hdither hd, h.cells.1, h.cells.2] at hlen
    rw [hcells]
    exact h.withCells he ⟨hf, hd⟩ hlen

theorem Inv.of_encodeSource {p : Pixel} {u : State} (he : s.phase = .encoding) (hc : s.col ≠ s.job.width.toNat)
    (hu : encodeSource p s = .ok u) : Inv { u with col := u.col + 1 } := by
  by_cases hf : s.job.format = .binary
  · obtain ⟨bit, v, hv, hpack⟩ := encodeSource_ok_binary hf hu
    have hframe := (normBinary_ok hv).1
    refine (h.of_normBinary he hf hv).of_packBinary ?_ ?_ ?_ hpack <;> rw [hframe] <;> assumption
  · obtain ⟨vs, hvs, hl⟩ := encodeSource_eq_appendBytes hf p
    exact h.of_appendBytes_resolved he hc rfl hf hl (hvs ▸ hu)

theorem Inv.of_pixelNext {src : SrcMode} {legal : Prop} {r : Except Fault State} (hn : PixelNext src legal r s t)
    (hp : s.phase = .encoding → s.col ≠ s.job.width.toNat → ∀ u, r = .ok u → Inv { u with col := u.col + 1 }) :
    Inv t := by
  cases hn with
  | ignored => exact h
  | order => exact h.raise nofun
  | row => exact h.raise nofun
  | illegal => exact h.raise nofun
  | packed he _ room _ u hu => exact hp he room u hu

/-! ## Every command and every step -/

theorem Inv.of_exec {i : Instr} (hi : i.fits s.job.format = true) (ht : exec i s = .next t) : Inv t := by
  cases i with
  | cfg d => exact h.of_execCfg ht
  | scan p => exact h.of_execScan ht
  | frm src => exact h.of_execFrm ht
  | pix p => exact h.of_pixelNext (execPix_next ht) fun he hc _ hu => h.of_encodeSource he hc hu
  | encB q => exact h.of_pixelNext (execEncB_next ht) fun he hc _ hu => h.of_packBinary he hc (beq_iff_eq.1 hi) hu
  | encG q =>
    exact h.of_pixelNext (execEncG_next ht) fun he hc _ hu =>
      h.of_appendBytes_resolved he hc (beq_iff_eq.1 hi) nofun rfl (packGray_eq .. ▸ hu)
  | enc565 q =>
    exact h.of_pixelNext (execEnc565_next ht) fun he hc _ hu =>
      h.of_appendBytes_resolved he hc (beq_iff_eq.1 hi) nofun (length_bytes565 ..) hu
  | encRGB q =>
    exact h.of_pixelNext (execEncRGB_next ht) fun he hc _ hu =>
      h.of_appendBytes_resolved he hc (beq_iff_eq.1 hi) nofun (length_bytesRGB ..) hu
  | eor => exact h.of_execEor ht
  | abt cause => exact h.of_execAbt ht
  | rst =>
    cases ht
    exact inv_resetRegisters h.threshold

end

/-- Settles O35: an input taken off the list changes no register, and the command, the reset or the error entry keeps
the invariant. -/
theorem stepKeepsInvariant : Obligations.StepKeepsInvariant := by
  intro s t h ht
  rcases step_next ht with ⟨-, rfl⟩ | ⟨rest, -, rfl⟩ | ⟨w, rest, i, -, hd, hexec⟩ |
    ⟨w, rest, e, -, -, ⟨-, rfl⟩ | ⟨-, rfl⟩⟩
  · exact h
  · exact inv_resetRegisters h.threshold
  · exact (h.withInputs rest).of_exec (decode_fits hd) hexec
  · exact h.withInputs rest
  · exact (h.withInputs rest).raise nofun

end Sys2Proof.Machine
end

section
/-! PROOFS. PIX of a Binary job (spec/41_pixel_normalizer.md R147, R150 to R152): the normaliser's bit, thresholded or
dithered, goes to the packer of R172. -/

namespace Sys2Proof.Machine

section
variable {p : Pixel} {s : State}

/-- A due PIX normalises and packs (R145). -/
theorem exec_pix_of_due (hd : PixelDue .raw s) : exec (.pix p) s = finishPixel (encodeSource p s) := by
  obtain ⟨hp, hsrc, hc⟩ := hd
  exact pixelShell_of_open _ hp hsrc hc

/-- A Binary pixel packs the bit that the normaliser answers, in the state it answers (R147). -/
theorem encodeSource_binary {bit : Bool} {t : State} (hb : s.job.format = .binary)
    (hn : normBinary p s = .ok (bit, t)) : encodeSource p s = packBinary bit t := by
  simp only [encodeSource, hb, hn]

theorem normBinary_noDither (hd : s.job.dither = .noDither) :
    normBinary p s = .ok (mono1 s.params.tMono (monoSource s.params.luma s.alphaOnly p), s) := by
  simp only [normBinary, hd]

theorem normBinary_floydSteinberg (hd : s.job.dither = .floydSteinberg) :
    normBinary p s = fsStep (monoSource s.params.luma s.alphaOnly p) s := by
  simp only [normBinary, hd]

end

/-- Settles O16: without dither the bit is `mono1` of the monochrome source. -/
theorem pixBinaryThresholds : Obligations.PixBinaryThresholds := by
  intro p s hi hd hb hdither
  obtain ⟨t, ht, hpacks⟩ := finishPixel_packBinary (mono1 s.params.tMono (monoSource s.params.luma s.alphaOnly p))
    hi.memory (hi.writeIndex_lt_of_binary hd hb)
  refine ⟨t, ?_, hpacks⟩
  rw [exec_pix_of_due hd, encodeSource_binary hb (normBinary_noDither hdither), ht]

/-- A due PIX of a dithered Binary job: the block's step answers the bit and the cells, and the bit is packed. -/
theorem exec_pix_dithered {p : Pixel} {s : State} (hi : Inv s) (hd : PixelDue .raw s) (hb : s.job.format = .binary)
    (hdither : s.job.dither = .floydSteinberg) :
    ∃ t bit, exec (.pix p) s = .next t ∧
      (bit, t.errCur, t.errNxt) = s.params.fs.apply s.params.tMono s.job.width.toNat
        (monoSource s.params.luma s.alphaOnly p) s.col s.errCur s.errNxt ∧
      PacksBit { s with errCur := t.errCur, errNxt := t.errNxt } t bit := by
  obtain ⟨bit, cur, nxt, hstep, happly⟩ := fsStep_of_lt (m := monoSource s.params.luma s.alphaOnly p) (hi.cell hd.2.2)
  obtain ⟨t, ht, hpacks⟩ := finishPixel_packBinary (s := s.withCells cur nxt) bit hi.memory
    (hi.writeIndex_lt_of_binary hd hb)
  have hcells : t.errCur = cur ∧ t.errNxt = nxt := by
    obtain ⟨heq, -⟩ := hpacks
    rw [heq]
    exact ⟨rfl, rfl⟩
  rw [← hcells.1, ← hcells.2] at happly hpacks hstep
  refine ⟨t, bit, ?_, happly, hpacks⟩
  rw [exec_pix_of_due hd, encodeSource_binary hb ((normBinary_floydSteinberg hdither).trans hstep), hcells.1,
    hcells.2, ht]

theorem Inv.errCur_length {s : State} (hi : Inv s) : s.errCur.length = s.job.width.toNat := hi.cells.1

theorem Inv.errNxt_length {s : State} (hi : Inv s) : s.errNxt.length = s.job.width.toNat := hi.cells.2

theorem Inv.length_of_apply {s : State} (hi : Inv s) {m : Byte} {x : Nat} {bit : Bool} {cur nxt : List Int}
    (h : (bit, cur, nxt) = s.params.fs.apply s.params.tMono s.job.width.toNat m x s.errCur s.errNxt) :
    cur.length = s.job.width.toNat ∧ nxt.length = s.job.width.toNat := by
  have hlen := length_apply s.params.fs s.params.tMono s.job.width.toNat m x s.errCur s.errNxt
  rwa [← h, hi.errCur_length, hi.errNxt_length] at hlen

/-- Settles O19: the step keeps the number of cells. -/
theorem pixBinaryUsesTheBlocksDitherStep : Obligations.PixBinaryUsesTheBlocksDitherStep := by
  intro p s hi hd hb hdither
  obtain ⟨t, bit, ht, happly, hpacks⟩ := exec_pix_dithered (p := p) hi hd hb hdither
  obtain ⟨hcur, hnxt⟩ := hi.length_of_apply happly
  exact ⟨t, bit, ht, happly, hcur, hnxt, hpacks⟩

/-! ## The default step -/

/-- The floor of a sixteenth, cut to a byte's range (R10, R151). -/
theorem fsValue_eq (m : Byte) (x : Nat) (cur : List Int) :
    fsValue m x cur = max 0 (min 255 ((m.toNat : Int) + Int.floor ((cur.getD x 0 : ℚ) / 16))) := by
  have hfloor : Int.floor ((cur.getD x 0 : ℚ) / 16) = cur.getD x 0 / 16 := by
    exact_mod_cast Rat.floor_intCast_div_natCast (cur.getD x 0) 16
  rw [hfloor, fsValue, clamp, asr4]
  split_ifs <;> omega

section
variable {cells : List Int} {j : Nat}

/-- A share given to cell `i` on a condition, as cell `j` sees it. -/
theorem getD_ite_addAt (c : Prop) [Decidable c] (hj : j < cells.length) (i : Nat) (e : Int) :
    (if c then addAt cells i e else cells).getD j 0 = cells.getD j 0 + if c ∧ j = i then e else 0 := by
  by_cases hc : c
  · simp only [hc, if_true, true_and, getD_addAt, hj, and_true, eq_comm (a := i)]
  · simp only [hc, if_false, false_and, add_zero]

theorem length_ite_addAt (c : Prop) [Decidable c] (i : Nat) (e : Int) :
    (if c then addAt cells i e else cells).length = cells.length := by
  split_ifs
  · exact length_addAt ..
  · rfl

/-- Where the share of the current row goes (R152). -/
theorem getD_distributeCur (hj : j < cells.length) (x : Nat) (e : Int) :
    (distributeCur cells.length x e cells).getD j 0 = cells.getD j 0 + if j = x + 1 then 7 * e else 0 := by
  have hright : x + 1 < cells.length ∧ j = x + 1 ↔ j = x + 1 := by omega
  simp only [distributeCur, getD_ite_addAt _ hj, hright]

/-- Where the shares of the next row go (R152). -/
theorem getD_distributeNxt (hj : j < cells.length) (x : Nat) (e : Int) :
    (distributeNxt cells.length x e cells).getD j 0 = cells.getD j 0 + (if j + 1 = x then 3 * e else 0) +
      (if j = x then 5 * e else 0) + (if j = x + 1 then e else 0) := by
  have hleft : 1 ≤ x ∧ j = x - 1 ↔ j + 1 = x := by omega
  have hright : x + 1 < cells.length ∧ j = x + 1 ↔ j = x + 1 := by omega
  have hbelow : j < (addAt (if 1 ≤ x then addAt cells (x - 1) (3 * e) else cells) x (5 * e)).length := by
    rwa [length_addAt, length_ite_addAt]
  simp only [distributeNxt, getD_ite_addAt _ hbelow, hright, getD_addAt, length_ite_addAt, getD_ite_addAt _ hj, hleft,
    hj, and_true, eq_comm (a := x)]

end

/-- Settles O18: the default step's value, bit and shares are those of R151 and R152. -/
theorem pixBinarySpreadsTheError : Obligations.PixBinarySpreadsTheError := by
  intro p s v e bit hi hd hb hdither hfs hv hbit he
  obtain ⟨t, bit', ht, happly, hpacks⟩ := exec_pix_dithered (p := p) hi hd hb hdither
  obtain ⟨hcur, hnxt⟩ := hi.length_of_apply happly
  set m := monoSource s.params.luma s.alphaOnly p with hm
  have hv' : v = fsValue m s.col s.errCur := hv.trans (fsValue_eq ..).symm
  have hb' : bit = fsBit s.params.tMono m s.col s.errCur := by
    rw [Bool.eq_iff_iff, hbit, hv', fsBit, decide_eq_true_iff]
  have he' : e = fsError s.params.tMono m s.col s.errCur := by rw [he, hv', hb', fsError]
  rw [hfs] at happly
  simp only [FsParam.apply, Prod.mk.injEq, ← hb', ← he'] at happly
  obtain ⟨rfl, hc, hn⟩ := happly
  refine ⟨t, ht, hpacks, hcur, hnxt, fun j hj => ⟨?_, ?_⟩⟩
  · rw [hc, ← hi.errCur_length, getD_distributeCur (hi.errCur_length ▸ hj)]
  · rw [hn, ← hi.errNxt_length, getD_distributeNxt (hi.errNxt_length ▸ hj)]

end Sys2Proof.Machine
end

section
/-! PROOFS. The order of a pixel command's errors (spec/60_exceptions.md R254), and where the reserved key is stored
(spec/46_transparency_policy_mux.md R215). -/

namespace Sys2Proof.Machine

/-! ## The shell's errors -/

section
variable {src : SrcMode} {s : State} (r : Result)

theorem pixelShell_order (hf : s.phase ≠ .failed) (h : s.phase ≠ .encoding ∨ s.srcMode ≠ src) :
    pixelShell src s r = .next (s.raise .protoOrder) := by
  rw [pixelShell, unlessFailed_of_ne _ hf, if_pos h]

theorem pixelShell_row (he : s.phase = .encoding) (hsrc : s.srcMode = src) (hc : s.col = s.job.width.toNat) :
    pixelShell src s r = .next (s.raise .protoRow) := by
  simp [pixelShell, unlessFailed, he, hsrc, hc]

theorem encShell_illegal {restZero : Bool} (pack : State → Except Fault State) (hd : PixelDue .canon s)
    (hz : restZero = false) : encShell restZero pack s = .next (s.raise .illegalCmd) := by
  obtain ⟨hp, hsrc, hc⟩ := hd
  rw [encShell, pixelShell_of_open _ hp hsrc hc, hz]
  rfl

end

/-- Every pixel command makes the shell's checks first (R145, R171). -/
theorem exec_eq_pixelShell {i : Instr} {src : SrcMode} (s : State)
    (hi : (∃ p, i = .pix p) ∧ src = .raw ∨
      (∃ q, i = .encB q ∨ i = .encG q ∨ i = .enc565 q ∨ i = .encRGB q) ∧ src = .canon) :
    ∃ r, exec i s = pixelShell src s r := by
  obtain ⟨⟨p, rfl⟩, rfl⟩ | ⟨⟨q, rfl | rfl | rfl | rfl⟩, rfl⟩ := hi <;> exact ⟨_, rfl⟩

/-- Settles O24: the shell's checks come first, then ENC.B's and ENC.G's payload. -/
theorem pixelCommandsRaiseInOrder : Obligations.PixelCommandsRaiseInOrder := by
  intro i src s hf hi
  obtain ⟨r, hr⟩ := exec_eq_pixelShell s hi
  rw [hr]
  refine ⟨pixelShell_order r hf, pixelShell_row r, fun hd hbad => ?_⟩
  rw [← hr]
  obtain ⟨⟨p, rfl⟩, -⟩ | ⟨-, rfl⟩ := hi
  · obtain ⟨q, ⟨h, -⟩ | ⟨h, -⟩⟩ := hbad <;> cases h
  · obtain ⟨q, ⟨rfl, hq⟩ | ⟨rfl, hq⟩⟩ := hbad <;> exact encShell_illegal _ hd (beq_eq_false_iff_ne.2 hq)

/-! ## The reserved key -/

theorem StoresBytes.byteAt {s t : State} {vs : List Byte} (h : StoresBytes s t vs) {k : Nat} {v : Byte}
    (hv : vs[k]? = some v) : t.byteAt (s.writeIndex + k) = v := h.2.1 k v hv

/-- A Grayscale pixel of a chroma-key job takes the key exactly when it is not fully opaque (R184). -/
theorem grayByte_eq_key_iff (luma alpha : Byte) : grayByte .chromaKey false luma alpha = 1 ↔ alpha ≠ 0xFF := by
  rw [grayByte_chromaKey]
  simp only [invertByte, Bool.false_eq_true, if_false]
  split_ifs with ha hl <;> simp_all

/-- The colour number is the key's exactly for a transparent colour that is not the key itself (R190, R215). -/
theorem colourNumber565_eq_key_iff (p : Pixel) :
    colourNumber565 .chromaKey p = 32 ↔ p.a.toNat < 128 ∧ quantise p ≠ Config.key565 := by
  rw [Ne, quantise_eq_key565_iff, colourNumber565]
  simp only [true_and]
  have hblue := p.b.isLt
  split_ifs with hkey ha
  · exact iff_of_false (by decide) fun h => h.2 hkey
  · exact iff_of_true rfl ⟨ha, hkey⟩
  · exact iff_of_false (by omega) fun h => ha h.1

theorem colourBytes565_eq_key_iff {bigEndian : Bool} {t : Transparency} {p : Pixel} {v w : Byte}
    (h : ColourBytes565 bigEndian t p v w) :
    (if bigEndian = true then v = 0 ∧ w = 0x20 else v = 0x20 ∧ w = 0) ↔ colourNumber565 t p = 32 := by
  have hzero : (0 : Byte).toNat = 0 := rfl
  have hkey : (0x20 : Byte).toNat = 32 := rfl
  cases bigEndian with
  | true =>
    obtain ⟨hv, hw⟩ := h.1 rfl
    simp only [if_true, ← BitVec.toNat_inj, hv, hw, hzero, hkey]
    omega
  | false =>
    obtain ⟨hv, hw⟩ := h.2 rfl
    simp only [Bool.false_eq_true, if_false, ← BitVec.toNat_inj, hv, hw, hzero, hkey]
    omega

/-- Part of a part of a word. -/
theorem extractLsb'_extractLsb' {w a n b m : Nat} (x : BitVec w) (h : b + m ≤ n) :
    (x.extractLsb' a n).extractLsb' b m = x.extractLsb' (a + b) m := by
  apply BitVec.eq_of_getLsbD_eq
  intro i hi
  have hin : b + i < n := by omega
  simp only [BitVec.getLsbD_extractLsb', hi, hin, decide_true, Bool.true_and, Nat.add_assoc]

/-- The quantised fields of a payload (R98, R190). -/
theorem quantise_pixelOfPayload (q : BitVec 32) :
    quantise (pixelOfPayload q) = (q.extractLsb' 27 5, q.extractLsb' 18 6, q.extractLsb' 11 5) := by
  simp only [quantise, pixelOfPayload]
  rw [extractLsb'_extractLsb' _ (by decide), extractLsb'_extractLsb' _ (by decide),
    extractLsb'_extractLsb' _ (by decide)]

/-- An RGB pixel of a chroma-key job takes the key exactly when it is transparent and not itself the key (R200). -/
theorem colourBytesRGB_eq_key_iff (p : Pixel) :
    colourBytesRGB .chromaKey p = [0, 1, 0] ↔ p.a.toNat < 128 ∧ ¬(p.r = 0 ∧ p.g = 1 ∧ p.b = 0) := by
  rw [colourBytesRGB]
  simp only [true_and]
  split_ifs with hkey ha
  · exact iff_of_false (by decide) fun h => h.2 hkey
  · exact iff_of_true rfl ⟨ha, hkey⟩
  · exact iff_of_false (by simpa using hkey) fun h => ha h.1

/-- The colour of a payload is the key when its three bytes are (R98). -/
theorem pixelOfPayload_eq_key_iff (q : BitVec 32) :
    ((pixelOfPayload q).r = 0 ∧ (pixelOfPayload q).g = 1 ∧ (pixelOfPayload q).b = 0) ↔
      q.extractLsb' 8 24 = 0x000100 := by
  have hsplit : q.extractLsb' 8 24 = (pixelOfPayload q).r ++ ((pixelOfPayload q).g ++ (pixelOfPayload q).b) := by
    simp only [pixelOfPayload]
    rw [BitVec.extractLsb'_append_extractLsb'_eq_extractLsb' (by rfl),
      BitVec.extractLsb'_append_extractLsb'_eq_extractLsb' (by rfl)]
  have hkey : (0x000100 : BitVec 24) = 0#8 ++ (1#8 ++ 0#8) := rfl
  rw [hsplit, hkey, append_inj, append_inj]
  rfl

theorem length_colourBytesRGB (t : Transparency) (p : Pixel) : (colourBytesRGB t p).length = 3 := by
  unfold colourBytesRGB
  split_ifs <;> rfl

/-- Settles O25: the byte of R184, the colour number of R190 and the colour of R200 are the key exactly then. -/
theorem keyIsStoredOnlyForTransparentPixels : Obligations.KeyIsStoredOnlyForTransparentPixels := by
  intro q s hi hd ht hinv
  have hsrc : s.srcMode = .canon := hd.2.1
  have hdue : PixelDue s.srcMode s := hsrc ▸ hd
  refine ⟨fun hf hq => ?gray, fun hf => ?c565, fun hf => ?rgb⟩
  case gray =>
    obtain ⟨t, hexec, hst⟩ := finishPixel_appendBytes hi hd
      (vs := [grayByte s.enc.transp s.job.invertAlpha (payloadLuma q) (payloadAlpha q)]) (by rw [hf]; rfl)
    refine ⟨t, (exec_encG_of_due hd hq).trans hexec, ?_⟩
    rw [← Nat.add_zero s.writeIndex, hst.byteAt rfl, ht, hinv]
    exact grayByte_eq_key_iff ..
  case c565 =>
    obtain ⟨t, v, w, hexec, hcolour, hst, -⟩ :=
      rgb565PixelsStoreTheirBytes (.enc565 q) (pixelOfPayload q) s hi hdue hf (.inr ⟨hsrc, q, rfl, rfl⟩)
    have hstored := hst (by simp [ht])
    have hv : t.byteAt s.writeIndex = v := hstored.byteAt (k := 0) rfl
    have hw : t.byteAt (s.writeIndex + 1) = w := hstored.byteAt (k := 1) rfl
    refine ⟨t, hexec, ?_⟩
    rw [hv, hw, colourBytes565_eq_key_iff hcolour, ht, colourNumber565_eq_key_iff, quantise_pixelOfPayload]
    simp only [Config.key565, Ne, Prod.mk.injEq]
    rfl
  case rgb =>
    obtain ⟨t, hexec, hst, -⟩ :=
      rgbPixelsStoreTheirBytes (.encRGB q) (pixelOfPayload q) s hi hdue hf (.inr ⟨hsrc, q, rfl, rfl⟩)
    have hstored := hst (by simp [ht])
    obtain ⟨x, y, z, hxyz⟩ := List.length_eq_three.1 (length_colourBytesRGB s.enc.transp (pixelOfPayload q))
    rw [hxyz] at hstored
    have hx : t.byteAt s.writeIndex = x := hstored.byteAt (k := 0) rfl
    have hy : t.byteAt (s.writeIndex + 1) = y := hstored.byteAt (k := 1) rfl
    have hz : t.byteAt (s.writeIndex + 2) = z := hstored.byteAt (k := 2) rfl
    have hlist : x = 0 ∧ y = 1 ∧ z = 0 ↔ colourBytesRGB .chromaKey (pixelOfPayload q) = [0, 1, 0] := by
      rw [← ht, hxyz]; simp
    refine ⟨t, hexec, ?_⟩
    rw [hx, hy, hz, hlist, colourBytesRGB_eq_key_iff, pixelOfPayload_eq_key_iff]
    rfl

end Sys2Proof.Machine
end

section
/-! PROOFS. What a command never does: act in FAILED (spec/60_exceptions.md R259), write the job (spec/10_state.md),
go back over written bytes (spec/20_memory.md R68), or stop without a next state (spec/00_scope.md R14). -/

namespace Sys2Proof.Machine

/-! ## FAILED -/

theorem pixelShell_failed {src : SrcMode} {s : State} (r : Result) (hf : s.phase = .failed) :
    pixelShell src s r = .next s := unlessFailed_failed _ hf

/-- In FAILED every command but CFG and RST is ignored (R259). -/
theorem exec_failed {i : Instr} {s : State} (hf : s.phase = .failed) (hcfg : ∀ d, i ≠ .cfg d) (hrst : i ≠ .rst) :
    exec i s = .next s := by
  cases i with
  | cfg d => exact absurd rfl (hcfg d)
  | scan p => exact unlessFailed_failed _ hf
  | frm src => exact unlessFailed_failed _ hf
  | pix p => exact pixelShell_failed _ hf
  | encB q => exact pixelShell_failed _ hf
  | encG q => exact pixelShell_failed _ hf
  | enc565 q => exact pixelShell_failed _ hf
  | encRGB q => exact pixelShell_failed _ hf
  | eor => exact unlessFailed_failed _ hf
  | abt cause =>
    by_cases h3 : cause = 3
    · subst h3; exact illegalWord_failed hf
    · exact execAbt_failed h3 hf
  | rst => exact absurd rfl hrst

/-- Outside a job in progress CFG is accepted or records its first failing check (R121, R122, R126). -/
theorem exec_cfg_outcome (d : CfgFields) {s : State} (hr : s.phase ≠ .ready) (he : s.phase ≠ .encoding) :
    ∃ t, exec (.cfg d) s = .next t ∧
      ((t.phase = .ready ∧ t.errCode = .none) ∨ ∃ c, FirstFailure s.params.bufMax d c ∧ Raised t c) := by
  cases hc : cfgCheck s.params.bufMax d with
  | error c => exact ⟨_, execCfg_rejected hr he hc, .inr ⟨c, cfgCheck_error_iff.1 hc, raised_raise ..⟩⟩
  | ok tr => exact ⟨_, execCfg_accepted hr he hc, .inl ⟨rfl, rfl⟩⟩

/-- Settles O27: the other commands and illegal words are ignored, CFG comes to its checks and RST to the reset
registers. -/
theorem failedPerformsOnlyCfgAndRst : Obligations.FailedPerformsOnlyCfgAndRst := by
  intro s hf
  refine ⟨fun i => exec_failed hf, fun w rest f e hin hd => ?illegal, fun d => ?cfg, ⟨_, exec_rst s, rfl, rfl⟩⟩
  case illegal =>
    exact (step_illegalWord hin (decode_error_any_format hd)).trans (illegalWord_failed (by simpa using hf))
  case cfg => exact exec_cfg_outcome d (by simp [hf]) (by simp [hf])

/-! ## What a command leaves: the job, the parameters, the written bytes -/

/-- What every command but CFG, FRM and RST leaves (R21, R26, R27, R34, R68). -/
structure Leaves (s t : State) : Prop where
  params : t.params = s.params
  inputs : t.inputs = s.inputs
  job : t.job = s.job
  enc : t.enc = s.enc
  warnings : t.outWarn = s.outWarn
  index : s.writeIndex ≤ t.writeIndex
  bytes : ∀ a, a < s.writeIndex ∨ t.writeIndex < a → t.byteAt a = s.byteAt a

section
variable {s t : State}

theorem Leaves.refl (s : State) : Leaves s s := ⟨rfl, rfl, rfl, rfl, rfl, Nat.le_refl _, fun _ _ => rfl⟩

theorem leaves_raise (c : ErrCode) (s : State) : Leaves s (s.raise c) :=
  ⟨rfl, rfl, rfl, rfl, rfl, Nat.le_refl _, fun _ _ => rfl⟩

theorem leaves_of_execScan {p : Pixel} (h : execScan p s = .next t) : Leaves s t := by
  rcases execScan_next h with ⟨-, rfl⟩ | ⟨-, -, rfl⟩ | ⟨-, rfl⟩
  · exact .refl _
  · exact leaves_raise ..
  · exact ⟨rfl, rfl, rfl, rfl, rfl, Nat.le_refl _, fun _ _ => rfl⟩

theorem PixelNext.leaves {src : SrcMode} {legal : Prop} {r : Except Fault State} (h : PixelNext src legal r s t) :
    Leaves s t := by
  cases h with
  | ignored => exact .refl _
  | order => exact leaves_raise ..
  | row => exact leaves_raise ..
  | illegal => exact leaves_raise ..
  | packed he fed room ok u hu pack =>
    obtain ⟨hframe, hindex, hbytes⟩ := pack
    exact ⟨by rw [hframe], by rw [hframe], by rw [hframe], by rw [hframe], by rw [hframe]; rfl, hindex, hbytes⟩

theorem leaves_of_execEor (h : execEor s = .next t) : Leaves s t := by
  rcases execEor_next h with ⟨-, rfl⟩ | ⟨-, -, rfl⟩ | ⟨-, -, rfl⟩ | ⟨-, -, rfl⟩
  · exact .refl _
  · exact leaves_raise ..
  · exact leaves_raise ..
  · refine ⟨by simp, by simp, by simp, by simp, by simp [State.outWarn], ?_, fun a _ => by simp [State.byteAt]⟩
    simpa using s.le_padRow_writeIndex

theorem leaves_of_execAbt {cause : BitVec 2} (h : execAbt cause s = .next t) : Leaves s t := by
  rcases execAbt_next h with ⟨-, rfl⟩ | ⟨-, -, rfl⟩ | ⟨-, -, rfl⟩ | ⟨-, -, -, rfl⟩
  · exact .refl _
  · exact leaves_raise ..
  · exact leaves_raise ..
  · exact leaves_raise ..

/-- FRM leaves all of that too, but for the override of a raw Grayscale frame (R144). -/
theorem execFrm_leaves {src : SrcMode} (h : execFrm src s = .next t) :
    Leaves s t ∨ (Leaves (s.override true) t ∧ src = .raw ∧ s.job.format = .grayscale) := by
  rcases execFrm_next h with ⟨-, rfl⟩ | ⟨-, -, rfl⟩ | ⟨-, -, -, rfl⟩ | ⟨-, -, rfl⟩
  · exact .inl (.refl _)
  · exact .inl (leaves_raise ..)
  · exact .inl (leaves_raise ..)
  · have hopen (u : State) : Leaves u (u.openFrame src (s.frameAlphaOnly src)) :=
      ⟨rfl, rfl, rfl, rfl, rfl, Nat.le_refl _, fun _ _ => rfl⟩
    unfold State.startFrame
    cases hon : overrides s.job.format (s.frameAlphaOnly src) s.enc.transp with
    | false => exact .inl (hopen s)
    | true =>
      obtain ⟨hg, ha, -⟩ := (overrides_iff ..).1 hon
      have hneeds : s.needsScan src = true := (Bool.and_eq_true_iff.1 ha).1
      exact .inr ⟨hopen _, ((s.needsScan_iff src).1 hneeds).1, hg⟩

/-- Every command but CFG and RST leaves all of that, but for the override (R144). -/
theorem exec_leaves {i : Instr} (hcfg : ∀ d, i ≠ .cfg d) (hrst : i ≠ .rst) (h : exec i s = .next t) :
    Leaves s t ∨ (Leaves (s.override true) t ∧ i = .frm .raw ∧ s.job.format = .grayscale) := by
  cases i with
  | cfg d => exact absurd rfl (hcfg d)
  | scan p => exact .inl (leaves_of_execScan h)
  | frm src =>
    refine (execFrm_leaves h).imp_right ?_
    rintro ⟨hl, rfl, hg⟩
    exact ⟨hl, rfl, hg⟩
  | pix p => exact .inl (execPix_next h).leaves
  | encB q => exact .inl (execEncB_next h).leaves
  | encG q => exact .inl (execEncG_next h).leaves
  | enc565 q => exact .inl (execEnc565_next h).leaves
  | encRGB q => exact .inl (execEncRGB_next h).leaves
  | eor => exact .inl (leaves_of_execEor h)
  | abt cause => exact .inl (leaves_of_execAbt h)
  | rst => exact absurd rfl hrst

theorem execCfg_params_inputs {d : CfgFields} (h : execCfg d s = .next t) :
    t.params = s.params ∧ t.inputs = s.inputs := by
  rcases execCfg_next h with ⟨-, rfl⟩ | ⟨-, -, ⟨c, -, rfl⟩ | ⟨tr, -, rfl⟩⟩ <;> exact ⟨rfl, rfl⟩

end

theorem Leaves.warn_eq {s t : State} (h : Leaves s t) :
    t.warnOversize = s.warnOversize ∧ t.warnAlphaOnly = s.warnAlphaOnly ∧ t.warnFrames = s.warnFrames := by
  simpa only [State.outWarn, Prod.mk.injEq] using h.warnings

/-- Settles O30: FRM's override apart, every command but CFG and RST leaves the job; CFG and RST leave the parameters
and the inputs. -/
theorem onlyCfgAndRstWriteTheJob : Obligations.OnlyCfgAndRstWriteTheJob := by
  intro i s t h
  by_cases hcfg : ∃ d, i = .cfg d
  · obtain ⟨d, rfl⟩ := hcfg
    obtain ⟨hp, hin⟩ := execCfg_params_inputs h
    exact ⟨hp, hin, fun hne => absurd rfl (hne d)⟩
  by_cases hrst : i = .rst
  · subst hrst
    cases h
    exact ⟨rfl, rfl, fun _ hne => absurd rfl hne⟩
  rcases exec_leaves (not_exists.1 hcfg) hrst h with hl | ⟨hl, rfl, hg⟩
  · obtain ⟨hover, halpha, hframes⟩ := hl.warn_eq
    exact ⟨hl.params, hl.inputs, fun _ _ => ⟨hl.job, by rw [hl.enc], hover, hframes, .inl ⟨by rw [hl.enc], halpha⟩⟩⟩
  · obtain ⟨hover, halpha, hframes⟩ := hl.warn_eq
    exact ⟨hl.params, hl.inputs, fun _ _ =>
      ⟨hl.job, by rw [hl.enc]; rfl, hover, hframes, .inr ⟨rfl, hg, by rw [hl.enc]; rfl, halpha⟩⟩⟩

/-- Settles O31: the override writes no byte. -/
theorem bytesBelowTheWriteIndexAreFinal : Obligations.BytesBelowTheWriteIndexAreFinal := by
  intro i s t hcfg hrst h
  rcases exec_leaves hcfg hrst h with hl | ⟨hl, -⟩ <;> exact ⟨hl.index, hl.bytes⟩

/-! ## Every command answers -/

section
variable {s : State}

theorem unlessFailed_answers {r : Result} (h : ∃ t, r = .next t) : ∃ t, unlessFailed s r = .next t := by
  unfold unlessFailed
  split_ifs
  · exact ⟨_, rfl⟩
  · exact h

/-- A pixel command answers when it does so for a due pixel. -/
theorem pixelShell_answers {src : SrcMode} {r : Result} (h : PixelDue src s → ∃ t, r = .next t) :
    ∃ t, pixelShell src s r = .next t := by
  refine unlessFailed_answers ?_
  split_ifs with ho hc
  · exact ⟨_, rfl⟩
  · exact ⟨_, rfl⟩
  · push Not at ho
    exact h ⟨ho.1, ho.2, hc⟩

theorem encShell_answers {restZero : Bool} {pack : State → Except Fault State}
    (h : PixelDue .canon s → ∃ t, finishPixel (pack s) = .next t) : ∃ t, encShell restZero pack s = .next t := by
  refine pixelShell_answers fun hd => ?_
  split_ifs
  · exact h hd
  · exact ⟨_, rfl⟩

theorem execCfg_answers (d : CfgFields) (s : State) : ∃ t, execCfg d s = .next t := by
  unfold execCfg
  split_ifs
  · exact ⟨_, rfl⟩
  · split <;> exact ⟨_, rfl⟩

theorem execAbt_answers (cause : BitVec 2) (s : State) : ∃ t, execAbt cause s = .next t := by
  unfold execAbt
  split_ifs
  · exact unlessFailed_answers ⟨_, rfl⟩
  · exact unlessFailed_answers ⟨_, rfl⟩
  · exact unlessFailed_answers ⟨_, rfl⟩

variable (hi : Inv s)
include hi

/-- A due pixel's bytes have room. -/
theorem Inv.appendBytes_answers {src : SrcMode} {f : Format} {vs : List Byte} (hd : PixelDue src s)
    (hf : s.job.format = f) (hl : vs.length = pixelBytes f s.enc.transp) :
    ∃ t, finishPixel (appendBytes vs s) = .next t := by
  obtain ⟨t, ht, -⟩ := finishPixel_appendBytes hi hd (hf ▸ hl)
  exact ⟨t, ht⟩

theorem Inv.encodeSource_answers {p : Pixel} (hd : PixelDue .raw s) :
    ∃ t, finishPixel (encodeSource p s) = .next t := by
  by_cases hf : s.job.format = .binary
  · rw [← exec_pix_of_due hd]
    cases hdither : s.job.dither with
    | noDither =>
      obtain ⟨t, ht, -⟩ := pixBinaryThresholds p s hi hd hf hdither
      exact ⟨t, ht⟩
    | floydSteinberg =>
      obtain ⟨t, bit, ht, -⟩ := exec_pix_dithered (p := p) hi hd hf hdither
      exact ⟨t, ht⟩
  · obtain ⟨vs, hvs, hl⟩ := encodeSource_eq_appendBytes hf p
    rw [hvs]
    exact hi.appendBytes_answers hd rfl hl

theorem Inv.exec_answers {i : Instr} (hfits : i.fits s.job.format = true) : ∃ t, exec i s = .next t := by
  cases i with
  | cfg d => exact execCfg_answers d s
  | scan p =>
    refine unlessFailed_answers ?_
    split_ifs <;> exact ⟨_, rfl⟩
  | frm src =>
    refine unlessFailed_answers ?_
    split_ifs <;> exact ⟨_, rfl⟩
  | pix p => exact pixelShell_answers hi.encodeSource_answers
  | encB q =>
    exact encShell_answers fun hd => (finishPixel_packBinary _ hi.memory
      (hi.writeIndex_lt_of_binary hd (beq_iff_eq.1 hfits))).imp fun _ ht => ht.1
  | encG q =>
    refine encShell_answers fun hd => ?_
    rw [packGray_eq]
    exact hi.appendBytes_answers hd (beq_iff_eq.1 hfits) rfl
  | enc565 q =>
    exact encShell_answers fun hd => hi.appendBytes_answers hd (beq_iff_eq.1 hfits) (length_bytes565 ..)
  | encRGB q =>
    exact encShell_answers fun hd => hi.appendBytes_answers hd (beq_iff_eq.1 hfits) (length_bytesRGB ..)
  | eor =>
    refine unlessFailed_answers ?_
    split_ifs <;> exact ⟨_, rfl⟩
  | abt cause => exact execAbt_answers cause s
  | rst => exact ⟨_, exec_rst s⟩

end

/-- Settles O36: whatever was sent, the step answers. -/
theorem stepAlwaysAnswers : Obligations.StepAlwaysAnswers := by
  intro s hi
  match hin : s.inputs with
  | [] => exact ⟨_, step_of_inputs_nil hin⟩
  | .hardwareReset :: rest => exact ⟨_, step_of_hardwareReset hin⟩
  | .command w :: rest =>
    cases hd : decode s.job.format w with
    | error e =>
      rw [step_illegalWord hin hd]
      exact unlessFailed_answers ⟨_, rfl⟩
    | ok i =>
      rw [step_command hin hd]
      exact (hi.withInputs rest).exec_answers (decode_fits hd)

end Sys2Proof.Machine
end

section
/-! PROOFS. Jobs in sequence (spec/47_frame_orchestrator.md R243), the default LUMA (spec/41_pixel_normalizer.md R146)
and the host's frame size (R160). -/

namespace Sys2Proof.Machine

/-- Settles O11: `configure` writes every register, so its result depends on the parameters and the inputs alone. -/
theorem acceptedCfgForgetsTheEarlierJob : Obligations.AcceptedCfgForgetsTheEarlierJob := by
  intro d s s' t hparams hinputs hr he h hready
  rcases execCfg_next h with ⟨-, rfl⟩ | ⟨-, -, ⟨c, -, rfl⟩ | ⟨tr, hok, rfl⟩⟩
  · exact absurd hready nofun
  · exact absurd hready nofun
  · have hsame : s'.clearWarnings.configure d tr = s.clearWarnings.configure d tr := by
      simp only [State.configure, State.clearWarnings, hparams, hinputs]
    rw [hparams] at hok
    exact (execCfg_accepted hr he hok).trans (congrArg _ hsame)

/-! ## The default LUMA -/

/-- The weighted sum fits 24 bits, so the shift loses no high bit (R146). -/
theorem toNat_lumaStandard (r g b : Byte) : (lumaStandard r g b).toNat =
    (19595 * r.toNat + 38470 * g.toNat + 7471 * b.toNat + 32768) / 65536 := by
  rw [lumaStandard, BitVec.toNat_ofNat, Nat.shiftRight_eq_div_pow]
  omega

/-- Settles O17: the weights add up to 65536, so a grey's luma is itself. -/
theorem standardLumaOfGreysAndWeights : Obligations.StandardLumaOfGreysAndWeights := by
  refine ⟨toNat_lumaStandard, fun v => BitVec.eq_of_toNat_eq ?_, fun p => toNat_lumaStandard p.r p.g p.b,
    fun _ _ => rfl⟩
  rw [toNat_lumaStandard]
  omega

/-! ## The host's frame size -/

/-- The floor of a size times an exact ratio is the truncating division (R160). -/
theorem floor_mul_div (size m n : Nat) : ⌊(size : ℚ) * ((m : ℚ) / n)⌋₊ = size * m / n := by
  rw [← mul_div_assoc, ← Nat.cast_mul, Nat.floor_div_eq_div]

/-- The two bounds compared as ratios and as cross products. -/
theorem ratio_le_iff {origW origH : Nat} (maxW maxH : Nat) (hw : 0 < origW) (hh : 0 < origH) :
    (maxW : ℚ) / origW ≤ (maxH : ℚ) / origH ↔ maxW * origH ≤ maxH * origW := by
  rw [div_le_div_iff₀ (by exact_mod_cast hw) (by exact_mod_cast hh)]
  exact_mod_cast Iff.rfl

/-- Settles O39: the smaller ratio gives its own dimension exactly, the other one by truncation. -/
theorem resizeIsTheFloorOfTheExactRatio : Obligations.ResizeIsTheFloorOfTheExactRatio := by
  intro origW origH maxW maxH hw hh _ _ ratio hratio
  refine ⟨?_, rfl⟩
  have hle := ratio_le_iff maxW maxH hw hh
  rw [finalDims, resizeDims]
  split_ifs with hc
  · rw [hratio, min_eq_left (hle.2 hc), floor_mul_div, floor_mul_div, Nat.mul_div_cancel_left _ hw]
  · rw [hratio, min_eq_right (le_of_not_ge (mt hle.1 hc)), floor_mul_div, floor_mul_div, Nat.mul_div_cancel_left _ hh]

end Sys2Proof.Machine
end

section
/-! PROOFS. The dither cells (spec/10_state.md R33): how the shares of R152 add up along a row, and that every step
keeps the bound. -/

namespace Sys2Proof.Machine

/-! ## Which updates change the cells -/

section
variable {s t u : State}

theorem cells_of_appendBytes {vs : List Byte} (h : appendBytes vs s = .ok u) :
    u.errCur = s.errCur ∧ u.errNxt = s.errNxt := by
  obtain ⟨hu, -⟩ := appendBytes_ok h
  rw [hu]
  exact ⟨rfl, rfl⟩

theorem cells_of_packBinary {bit : Bool} (h : packBinary bit s = .ok u) :
    u.errCur = s.errCur ∧ u.errNxt = s.errNxt := by
  rcases packBinary_ok h with ⟨-, rfl⟩ | ⟨-, -, rfl⟩ <;> simp

/-- PIX changes the cells in a dithered Binary job alone, and there as the block's step answers (R147, U3). -/
theorem cells_of_encodeSource {p : Pixel} (h : encodeSource p s = .ok u) :
    (u.errCur = s.errCur ∧ u.errNxt = s.errNxt) ∨
    ∃ bit m, (bit, u.errCur, u.errNxt) =
      s.params.fs.apply s.params.tMono s.job.width.toNat m s.col s.errCur s.errNxt := by
  by_cases hf : s.job.format = .binary
  · obtain ⟨bit, v, hv, hpack⟩ := encodeSource_ok_binary hf h
    obtain ⟨-, hplain, hdither⟩ := normBinary_ok hv
    obtain ⟨hcur, hnxt⟩ := cells_of_packBinary hpack
    rw [hcur, hnxt]
    cases hd : s.job.dither with
    | noDither => rw [(hplain hd).1]; exact .inl ⟨rfl, rfl⟩
    | floydSteinberg => exact .inr ⟨bit, _, hdither hd⟩
  · obtain ⟨vs, hvs, -⟩ := encodeSource_eq_appendBytes hf p
    exact .inl (cells_of_appendBytes (hvs ▸ h))

/-! ## Bounds that need no arithmetic of shares -/

theorem nextRowShares_nonneg (col j : Nat) : 0 ≤ nextRowShares col j := by
  unfold nextRowShares; split_ifs <;> decide

theorem nextRowShares_le (col j : Nat) : nextRowShares col j ≤ 9 := by
  unfold nextRowShares; split_ifs <;> decide

theorem nextRowShares_mono {col col' : Nat} (h : col ≤ col') (j : Nat) :
    nextRowShares col j ≤ nextRowShares col' j := by
  unfold nextRowShares; split_ifs <;> omega

theorem getD_of_forall_zero {cells : List Int} (h : ∀ c ∈ cells, c = 0) (j : Nat) : cells.getD j 0 = 0 := by
  rw [List.getD_eq_getElem?_getD]
  cases hj : cells[j]? with
  | none => rfl
  | some c => exact h c (List.mem_of_getElem? hj)

theorem ditherBounded_of_zero (hcur : ∀ c ∈ t.errCur, c = 0) (hnxt : ∀ c ∈ t.errNxt, c = 0) : DitherBounded t := by
  intro _ _ j
  have hshares := nextRowShares_nonneg t.col j
  rw [getD_of_forall_zero hcur, getD_of_forall_zero hnxt, abs_zero]
  exact ⟨by decide, by decide, fun _ => ⟨fun _ => by decide, by omega⟩⟩

/-- Unchanged cells stay bounded while the column goes on. -/
theorem DitherBounded.of_cells (h : DitherBounded s) (hparams : t.params = s.params)
    (hcells : t.errCur = s.errCur ∧ t.errNxt = s.errNxt)
    (hcol : t.phase = .encoding → s.phase = .encoding ∧ s.col ≤ t.col) : DitherBounded t := by
  intro hfs ht j
  rw [hparams] at hfs ht
  obtain ⟨hcur, hnxt, hopen⟩ := h hfs ht j
  rw [hcells.1, hcells.2]
  refine ⟨hcur, hnxt, fun he => ?_⟩
  obtain ⟨hs, hle⟩ := hcol he
  obtain ⟨hright, hbelow⟩ := hopen hs
  have hmono := nextRowShares_mono hle j
  exact ⟨fun hj => hright (hle.trans_lt hj), hbelow.trans (by omega)⟩

theorem DitherBounded.raise (h : DitherBounded s) (c : ErrCode) : DitherBounded (s.raise c) :=
  h.of_cells rfl ⟨rfl, rfl⟩ nofun

/-! ## The shares -/

/-- The default step's error with the threshold 128 (R151). -/
theorem abs_fsError_le (m : Byte) (x : Nat) (cur : List Int) : |fsError 128 m x cur| ≤ 127 := by
  have hv : 0 ≤ fsValue m x cur ∧ fsValue m x cur ≤ 255 := by
    rw [fsValue_eq]; omega
  have h128 : ((128 : Byte).toNat : Int) = 128 := rfl
  rw [fsError, fsBit, h128, abs_le]
  split_ifs with hb
  · have := of_decide_eq_true hb
    omega
  · have := of_decide_eq_false (eq_false_of_ne_true hb)
    omega

theorem length_distributeCur (width x : Nat) (e : Int) (cells : List Int) :
    (distributeCur width x e cells).length = cells.length := by
  rw [distributeCur, length_ite_addAt]

theorem length_distributeNxt (width x : Nat) (e : Int) (cells : List Int) :
    (distributeNxt width x e cells).length = cells.length := by
  simp only [distributeNxt, length_ite_addAt, length_addAt]

/-- A cell grows by at most what is added to it; beyond the row there is nothing to add to. -/
theorem abs_getD_le_of_sub {cells cells' : List Int} {j : Nat} {b : Int} (hl : cells'.length = cells.length)
    (hb : 0 ≤ b) (h : j < cells.length → |cells'.getD j 0 - cells.getD j 0| ≤ b) :
    |cells'.getD j 0| ≤ |cells.getD j 0| + b := by
  by_cases hj : j < cells.length
  · have hsum : cells'.getD j 0 = cells.getD j 0 + (cells'.getD j 0 - cells.getD j 0) := by ring
    rw [hsum]
    exact (abs_add_le ..).trans (Int.add_le_add_left (h hj) _)
  · rw [List.getD_eq_default _ _ (by omega), List.getD_eq_default _ _ (by omega), abs_zero]
    omega

/-- The next cell of the current row gets 7 shares, every other none (R152). -/
theorem abs_getD_distributeCur_le {e : Int} (he : |e| ≤ 127) (cells : List Int) (x j : Nat) :
    |(distributeCur cells.length x e cells).getD j 0| ≤ |cells.getD j 0| + if j = x + 1 then 7 * 127 else 0 := by
  rw [abs_le] at he
  refine abs_getD_le_of_sub (length_distributeCur ..) (by split_ifs <;> decide) fun hj => ?_
  rw [getD_distributeCur hj, abs_le]
  split_ifs <;> omega

/-- A cell of the next row gets 3, 5 or 1 shares, as many as its bound grows by (R152). -/
theorem abs_getD_distributeNxt_le {e : Int} (he : |e| ≤ 127) (cells : List Int) (x j : Nat) :
    |(distributeNxt cells.length x e cells).getD j 0| ≤
      |cells.getD j 0| + (nextRowShares (x + 1) j - nextRowShares x j) * 127 := by
  have hmono := nextRowShares_mono (Nat.le_add_right x 1) j
  rw [abs_le] at he
  refine abs_getD_le_of_sub (length_distributeNxt ..) (by omega) fun hj => ?_
  rw [getD_distributeNxt hj, abs_le]
  unfold nextRowShares
  split_ifs <;> omega

end

/-! ## The commands -/

section
variable {s t : State} (h : DitherBounded s)
include h

/-- A dithered pixel keeps the bound, the column one further (R151, R152). -/
theorem DitherBounded.of_apply (hi : Inv s) (he : s.phase = .encoding) {bit : Bool} {m : Byte}
    (hparams : t.params = s.params) (hcol : t.col = s.col + 1)
    (happly : (bit, t.errCur, t.errNxt) =
      s.params.fs.apply s.params.tMono s.job.width.toNat m s.col s.errCur s.errNxt) : DitherBounded t := by
  intro hfs ht j
  rw [hparams] at hfs ht
  obtain ⟨hcur, hnxt, hopen⟩ := h hfs ht j
  obtain ⟨hright, hbelow⟩ := hopen he
  rw [hfs, ht] at happly
  simp only [FsParam.apply, Prod.mk.injEq] at happly
  obtain ⟨-, hc, hn⟩ := happly
  have hcur' := abs_getD_distributeCur_le (abs_fsError_le m s.col s.errCur) s.errCur s.col j
  have hnxt' := abs_getD_distributeNxt_le (abs_fsError_le m s.col s.errCur) s.errNxt s.col j
  rw [hi.errCur_length, ← hc] at hcur'
  rw [hi.errNxt_length, ← hn] at hnxt'
  have hshares := nextRowShares_le (s.col + 1) j
  rw [hcol]
  refine ⟨?_, by omega, fun _ => ⟨fun hj => ?_, by omega⟩⟩
  · split_ifs at hcur' with hj
    · have := hright (by omega)
      omega
    · omega
  · rw [if_neg (by omega)] at hcur'
    have := hright (by omega)
    omega

/-- A pixel command whose packer keeps the cells or spreads an error keeps the bound. -/
theorem DitherBounded.of_pixelNext (hi : Inv s) {src : SrcMode} {legal : Prop} {r : Except Fault State}
    (hn : PixelNext src legal r s t)
    (hr : ∀ u, r = .ok u → (u.errCur = s.errCur ∧ u.errNxt = s.errNxt) ∨ ∃ bit m, (bit, u.errCur, u.errNxt) =
      s.params.fs.apply s.params.tMono s.job.width.toNat m s.col s.errCur s.errNxt) : DitherBounded t := by
  cases hn with
  | ignored => exact h
  | order => exact h.raise _
  | row => exact h.raise _
  | illegal => exact h.raise _
  | packed he fed room ok u hu pack =>
    obtain ⟨hframe, -⟩ := pack
    have hparams : u.params = s.params := by rw [hframe]
    have hcol : u.col = s.col := by rw [hframe]
    rcases hr u hu with hcells | ⟨bit, m, happly⟩
    · exact h.of_cells hparams hcells fun _ => ⟨he, hcol ▸ Nat.le_succ u.col⟩
    · exact h.of_apply hi he hparams (congrArg (· + 1) hcol) happly

theorem DitherBounded.of_execCfg {d : CfgFields} (ht : execCfg d s = .next t) : DitherBounded t := by
  rcases execCfg_next ht with ⟨-, rfl⟩ | ⟨-, -, ⟨c, -, rfl⟩ | ⟨tr, -, rfl⟩⟩
  · exact h.raise _
  · exact h.of_cells rfl ⟨rfl, rfl⟩ nofun
  · exact ditherBounded_of_zero (fun _ => List.eq_of_mem_replicate) (fun _ => List.eq_of_mem_replicate)

theorem DitherBounded.of_execScan {p : Pixel} (ht : execScan p s = .next t) : DitherBounded t := by
  rcases execScan_next ht with ⟨-, rfl⟩ | ⟨-, -, rfl⟩ | ⟨hr, rfl⟩
  · exact h
  · exact h.raise _
  · exact h.of_cells rfl ⟨rfl, rfl⟩ fun he => absurd (hr.symm.trans he) nofun

theorem DitherBounded.of_execFrm {src : SrcMode} (ht : execFrm src s = .next t) : DitherBounded t := by
  rcases execFrm_next ht with ⟨-, rfl⟩ | ⟨-, -, rfl⟩ | ⟨-, -, -, rfl⟩ | ⟨-, -, rfl⟩
  · exact h
  · exact h.raise _
  · exact h.raise _
  · exact ditherBounded_of_zero (fun _ => mem_zeroCells) (fun _ => mem_zeroCells)

/-- EOR makes the next row the current one: its cells hold 9 shares at most (R153). -/
theorem DitherBounded.of_endRow (hi : Inv s) (he : s.phase = .encoding) :
    DitherBounded s.padRow.shiftErrors.nextRow := by
  by_cases hd : s.job.format = .binary ∧ s.job.dither = .floydSteinberg
  case neg =>
    obtain ⟨hcur, hnxt⟩ := hi.quiet hd
    exact ditherBounded_of_zero (by simpa [hd] using hcur) (by simpa [hd] using hnxt)
  case pos =>
    intro hfs ht j
    obtain ⟨-, hnxt, hopen⟩ := h (by simpa using hfs) (by simpa using ht) j
    obtain ⟨-, hbelow⟩ := hopen he
    have hshares := nextRowShares_le s.col j
    have hzero := getD_of_forall_zero (fun _ => mem_zeroCells (cells := s.errNxt)) j
    have hnonneg := nextRowShares_nonneg 0 j
    simp only [State.nextRow_errCur, State.nextRow_errNxt, State.nextRow_col, State.shiftErrors_errCur,
      State.shiftErrors_errNxt, State.padRow_job, State.padRow_errNxt, hd, and_self, if_true, hzero, abs_zero]
    exact ⟨hnxt, by decide, fun _ => ⟨fun _ => by omega, by omega⟩⟩

theorem DitherBounded.of_execEor (hi : Inv s) (ht : execEor s = .next t) : DitherBounded t := by
  rcases execEor_next ht with ⟨-, rfl⟩ | ⟨-, -, rfl⟩ | ⟨-, -, rfl⟩ | ⟨he, -, rfl⟩
  · exact h
  · exact h.raise _
  · exact h.raise _
  · exact h.of_endRow hi he

theorem DitherBounded.of_execAbt {cause : BitVec 2} (ht : execAbt cause s = .next t) : DitherBounded t := by
  rcases execAbt_next ht with ⟨-, rfl⟩ | ⟨-, -, rfl⟩ | ⟨-, -, rfl⟩ | ⟨-, -, -, rfl⟩
  · exact h
  · exact h.raise _
  · exact h.raise _
  · exact h.raise _

omit h in
theorem ditherBounded_resetRegisters (s : State) : DitherBounded s.resetRegisters :=
  ditherBounded_of_zero nofun nofun

theorem DitherBounded.of_exec (hi : Inv s) {i : Instr} (ht : exec i s = .next t) : DitherBounded t := by
  cases i with
  | cfg d => exact h.of_execCfg ht
  | scan p => exact h.of_execScan ht
  | frm src => exact h.of_execFrm ht
  | pix p => exact h.of_pixelNext hi (execPix_next ht) fun _ => cells_of_encodeSource
  | encB q => exact h.of_pixelNext hi (execEncB_next ht) fun _ hu => .inl (cells_of_packBinary hu)
  | encG q =>
    exact h.of_pixelNext hi (execEncG_next ht) fun _ hu => .inl (cells_of_appendBytes (packGray_eq .. ▸ hu))
  | enc565 q => exact h.of_pixelNext hi (execEnc565_next ht) fun _ hu => .inl (cells_of_appendBytes hu)
  | encRGB q => exact h.of_pixelNext hi (execEncRGB_next ht) fun _ hu => .inl (cells_of_appendBytes hu)
  | eor => exact h.of_execEor hi ht
  | abt cause => exact h.of_execAbt ht
  | rst =>
    cases ht
    exact ditherBounded_resetRegisters s

theorem DitherBounded.withInputs (rest : List HostInput) : DitherBounded (s.withInputs rest) := h

theorem DitherBounded.of_step (hi : Inv s) (ht : step s = .next t) : DitherBounded t := by
  rcases step_next ht with ⟨-, rfl⟩ | ⟨rest, -, rfl⟩ | ⟨w, rest, i, -, -, hexec⟩ |
    ⟨w, rest, e, -, -, ⟨-, rfl⟩ | ⟨-, rfl⟩⟩
  · exact h
  · exact ditherBounded_resetRegisters _
  · exact (h.withInputs rest).of_exec (hi.withInputs rest) hexec
  · exact h.withInputs rest
  · exact (h.withInputs rest).raise _

/-- 16 shares of 127 lie within R33's range. -/
theorem DitherBounded.range (hfs : s.params.fs = .standard) (ht : s.params.tMono = 128) :
    (∀ c ∈ s.errCur, -2040 ≤ c ∧ c ≤ 2040) ∧ ∀ c ∈ s.errNxt, -2040 ≤ c ∧ c ≤ 2040 := by
  have hmem {cells : List Int} (hb : ∀ j, |cells.getD j 0| ≤ 16 * 127) : ∀ c ∈ cells, -2040 ≤ c ∧ c ≤ 2040 := by
    intro c hc
    obtain ⟨j, hj, rfl⟩ := List.mem_iff_getElem.1 hc
    have hcell := hb j
    rw [List.getD_eq_getElem _ _ hj, abs_le] at hcell
    omega
  exact ⟨hmem fun j => (h hfs ht j).1, hmem fun j => (h hfs ht j).2.1⟩

end

/-- Settles O37: a step keeps the bound, which is one by shares of the largest error. -/
theorem ditherCellsStayInRange : Obligations.DitherCellsStayInRange :=
  ⟨ditherBounded_resetRegisters, fun _ _ hi h => h.of_step hi, fun _ h => h.range⟩

end Sys2Proof.Machine
end

section
/-! PROOFS. A Binary job and its transparency (spec/42_binary_encoder.md R175): every operation that a Binary job uses
commutes with a change of the transparency registers. -/

namespace Sys2Proof.Machine

/-- The state with other transparency registers. -/
def State.withTransp (tj te : Transparency) (s : State) : State :=
  { s with job := { s.job with transp := tj }, enc := { s.enc with transp := te } }

section
variable (tj te : Transparency) {s t u : State}

theorem packBinary_withTransp {bit : Bool} (h : packBinary bit s = .ok u) :
    packBinary bit (s.withTransp tj te) = .ok (u.withTransp tj te) := by
  rcases packBinary_ok h with ⟨hb, rfl⟩ | ⟨hb, hroom, rfl⟩
  · have hplain : packBinary bit (s.withTransp tj te) = .ok (s.withTransp tj te).advanceBit :=
      if_neg (ne_true_of_eq_false hb)
    rw [hplain, State.advanceBit_eq, State.advanceBit_eq]
    rfl
  · have hb' : (bit ^^ (s.withTransp tj te).job.invertAlpha) = true := hb
    rw [packBinary_of_lt (s := s.withTransp tj te) bit hroom, if_pos hb', State.advanceBit_eq, State.advanceBit_eq]
    rfl

theorem normBinary_withTransp {p : Pixel} {bit : Bool} (h : normBinary p s = .ok (bit, u)) :
    normBinary p (s.withTransp tj te) = .ok (bit, u.withTransp tj te) := by
  cases hd : s.job.dither with
  | noDither =>
    cases (normBinary_noDither hd).symm.trans h
    exact normBinary_noDither hd
  | floydSteinberg =>
    rw [normBinary_floydSteinberg hd] at h
    rw [normBinary_floydSteinberg (s := s.withTransp tj te) hd]
    unfold fsStep at h ⊢
    split at h
    next hc =>
      cases h
      exact if_pos hc
    next => cases h

theorem encodeSource_withTransp {p : Pixel} (hb : s.job.format = .binary) (h : encodeSource p s = .ok u) :
    encodeSource p (s.withTransp tj te) = .ok (u.withTransp tj te) := by
  obtain ⟨bit, v, hv, hpack⟩ := encodeSource_ok_binary hb h
  exact (encodeSource_binary (s := s.withTransp tj te) hb (normBinary_withTransp tj te hv)).trans
    (packBinary_withTransp tj te hpack)

/-- Each way through a pixel command commutes when its packer does; `out` is what the command does for a due pixel. -/
theorem PixelNext.withTransp {src : SrcMode} {legal : Prop} {r r' : Except Fault State} {out : Result}
    (hn : PixelNext src legal r s t) (hr : ∀ u, r = .ok u → r' = .ok (u.withTransp tj te))
    (hlegal : legal → out = finishPixel r') (hbad : ¬legal → out = .next ((s.withTransp tj te).raise .illegalCmd)) :
    pixelShell src (s.withTransp tj te) out = .next (t.withTransp tj te) := by
  cases hn with
  | ignored failed => exact pixelShell_failed _ failed
  | order hf bad => exact pixelShell_order _ hf bad
  | row he fed full => exact pixelShell_row _ he fed full
  | illegal he fed room bad => exact (pixelShell_of_open (s := s.withTransp tj te) _ he fed room).trans (hbad bad)
  | packed he fed room ok u hu =>
    refine (pixelShell_of_open (s := s.withTransp tj te) _ he fed room).trans ((hlegal ok).trans ?_)
    rw [hr u hu]
    rfl

theorem execScan_withTransp {p : Pixel} (h : execScan p s = .next t) :
    execScan p (s.withTransp tj te) = .next (t.withTransp tj te) := by
  rcases execScan_next h with ⟨hf, rfl⟩ | ⟨hf, hr, rfl⟩ | ⟨hr, rfl⟩
  · exact unlessFailed_failed _ hf
  · exact execScan_outside p hr hf
  · exact execScan_ready p hr

/-- FRM overrides nothing in a Binary job (R144). -/
theorem State.startFrame_of_binary (hb : s.job.format = .binary) (src : SrcMode) :
    s.startFrame src = s.openFrame src (s.frameAlphaOnly src) := by
  rw [State.startFrame, hb]
  rfl

theorem execFrm_withTransp {src : SrcMode} (hb : s.job.format = .binary) (h : execFrm src s = .next t) :
    execFrm src (s.withTransp tj te) = .next (t.withTransp tj te) := by
  rcases execFrm_next h with ⟨hf, rfl⟩ | ⟨hf, hr, rfl⟩ | ⟨hr, hn, hc, rfl⟩ | ⟨hr, hc, rfl⟩
  · exact unlessFailed_failed _ hf
  · exact execFrm_outside src hr hf
  · exact execFrm_unscanned hr hn hc
  · rw [State.startFrame_of_binary hb]
    refine (execFrm_opens (s := s.withTransp tj te) hr hc).trans (congrArg _ ?_)
    exact State.startFrame_of_binary (s := s.withTransp tj te) hb src

theorem execEor_withTransp (h : execEor s = .next t) :
    execEor (s.withTransp tj te) = .next (t.withTransp tj te) := by
  rcases execEor_next h with ⟨hf, rfl⟩ | ⟨hf, he, rfl⟩ | ⟨he, hc, rfl⟩ | ⟨he, hc, rfl⟩
  · exact unlessFailed_failed _ hf
  · exact execEor_outside he hf
  · exact execEor_midRow he hc
  · refine (execEor_fullRow (s := s.withTransp tj te) he hc).trans (congrArg _ ?_)
    simp only [State.nextRow_eq, State.shiftErrors_eq, State.padRow_eq]
    rfl

theorem execAbt_withTransp {cause : BitVec 2} (h : execAbt cause s = .next t) :
    execAbt cause (s.withTransp tj te) = .next (t.withTransp tj te) := by
  rcases execAbt_next h with ⟨hf, rfl⟩ | ⟨hf, rfl, rfl⟩ | ⟨hd, h3, rfl⟩ | ⟨hf, hd, h3, rfl⟩
  · exact exec_failed hf nofun nofun (i := .abt cause)
  · exact illegalWord_raises hf
  · exact execAbt_done h3 hd
  · exact execAbt_open h3 hd hf

end

/-- Settles O33: a Binary job's commands commute with a change of the transparency registers. -/
theorem binaryJobsIgnoreTransparency : Obligations.BinaryJobsIgnoreTransparency := by
  intro i s t tj te hb hfits hcfg hrst h
  change exec i (s.withTransp tj te) = .next (t.withTransp tj te)
  cases i with
  | cfg d => exact absurd rfl (hcfg d)
  | scan p => exact execScan_withTransp tj te h
  | frm src => exact execFrm_withTransp tj te hb h
  | pix p =>
    exact (execPix_next h).withTransp tj te (fun _ => encodeSource_withTransp tj te hb) (fun _ => rfl)
      (absurd trivial)
  | encB q =>
    exact (execEncB_next h).withTransp tj te (fun _ => packBinary_withTransp tj te) (fun hq => if_pos hq)
      (fun hq => if_neg hq)
  | eor => exact execEor_withTransp tj te h
  | abt cause => exact execAbt_withTransp tj te h
  | rst => exact absurd rfl hrst
  | encG q => cases hfits
  | enc565 q => cases hfits
  | encRGB q => cases hfits

end Sys2Proof.Machine
end

section
/-! PROOFS. Where a pixel lands (spec/20_memory.md R63, R64): the write position of the invariant is the place of the
pixel's byte, and the packers store there alone. -/

namespace Sys2Proof.Machine

section
variable {s t : State}

/-- A pixel command that leaves ENCODING open was due and did what its packer does. -/
theorem PixelNext.finishPixel_of_encoding {src : SrcMode} {legal : Prop} {r : Except Fault State}
    (hn : PixelNext src legal r s t) (he : s.phase = .encoding) (ht : t.phase = .encoding) :
    PixelDue src s ∧ finishPixel r = .next t := by
  cases hn with
  | ignored failed => exact absurd (he.symm.trans failed) nofun
  | order => cases ht
  | row => cases ht
  | illegal => cases ht
  | packed _ fed room ok u hu => exact ⟨⟨he, fed, room⟩, by rw [hu]; rfl⟩

variable (hi : Inv s)
include hi

theorem Inv.packsBit {src : SrcMode} (hd : PixelDue src s) (hb : s.job.format = .binary) {bit : Bool}
    {cur nxt : List Int} (h : finishPixel (packBinary bit (s.withCells cur nxt)) = .next t) :
    PacksBit (s.withCells cur nxt) t bit := by
  obtain ⟨t', ht', hpacks⟩ := finishPixel_packBinary (s := s.withCells cur nxt) bit hi.memory
    (hi.writeIndex_lt_of_binary hd hb)
  cases ht'.symm.trans h
  exact hpacks

theorem Inv.storesBytes {src : SrcMode} (hd : PixelDue src s) {vs : List Byte}
    (hl : vs.length = pixelBytes s.job.format s.enc.transp) (h : finishPixel (appendBytes vs s) = .next t) :
    StoresBytes s t vs := by
  obtain ⟨t', ht', hst⟩ := finishPixel_appendBytes hi hd hl
  cases ht'.symm.trans h
  exact hst

/-- What the packers of the job's format do to a pixel that is due: a bit, or the bytes of a pixel. -/
def PixelStored (s t : State) : Prop :=
  (s.job.format = .binary ∧ ∃ cur nxt bit, PacksBit (s.withCells cur nxt) t bit) ∨
  (s.job.format ≠ .binary ∧ ∃ vs, vs.length = pixelBytes s.job.format s.enc.transp ∧ StoresBytes s t vs)

theorem Inv.pixelStored_of_encodeSource {p : Pixel} (hd : PixelDue .raw s)
    (h : finishPixel (encodeSource p s) = .next t) : PixelStored s t := by
  by_cases hf : s.job.format = .binary
  · obtain ⟨u, hu, -⟩ := finishPixel_next h
    obtain ⟨bit, v, hv, hpack⟩ := encodeSource_ok_binary hf hu
    rw [hu, ← hpack, (normBinary_ok hv).1] at h
    exact .inl ⟨hf, _, _, bit, hi.packsBit hd hf h⟩
  · obtain ⟨vs, hvs, hl⟩ := encodeSource_eq_appendBytes hf p
    exact .inr ⟨hf, vs, hl, hi.storesBytes hd hl (hvs ▸ h)⟩

theorem Inv.pixelStored_of_appendBytes {src : SrcMode} {f : Format} {vs : List Byte} (hd : PixelDue src s)
    (hf : s.job.format = f) (hb : f ≠ .binary) (hl : vs.length = pixelBytes f s.enc.transp)
    (h : finishPixel (appendBytes vs s) = .next t) : PixelStored s t := by
  subst hf
  exact .inr ⟨hb, vs, hl, hi.storesBytes hd hl h⟩

/-- A pixel command of the job's format that encodes stores its pixel (R145, R171). -/
theorem Inv.pixelStored {i : Instr} (he : s.phase = .encoding) (hfits : i.fits s.job.format = true)
    (hpixel : (∃ p, i = .pix p) ∨ ∃ q, i = .encB q ∨ i = .encG q ∨ i = .enc565 q ∨ i = .encRGB q)
    (h : exec i s = .next t) (ht : t.phase = .encoding) : PixelStored s t := by
  obtain ⟨p, rfl⟩ | ⟨q, rfl | rfl | rfl | rfl⟩ := hpixel
  · obtain ⟨hd, hpack⟩ := (execPix_next h).finishPixel_of_encoding he ht
    exact hi.pixelStored_of_encodeSource hd hpack
  · obtain ⟨hd, hpack⟩ := (execEncB_next h).finishPixel_of_encoding he ht
    have hb : s.job.format = .binary := beq_iff_eq.1 hfits
    exact .inl ⟨hb, _, _, _, hi.packsBit (cur := s.errCur) (nxt := s.errNxt) hd hb hpack⟩
  · obtain ⟨hd, hpack⟩ := (execEncG_next h).finishPixel_of_encoding he ht
    rw [packGray_eq] at hpack
    exact hi.pixelStored_of_appendBytes hd (beq_iff_eq.1 hfits) nofun rfl hpack
  · obtain ⟨hd, hpack⟩ := (execEnc565_next h).finishPixel_of_encoding he ht
    exact hi.pixelStored_of_appendBytes hd (beq_iff_eq.1 hfits) nofun (length_bytes565 ..) hpack
  · obtain ⟨hd, hpack⟩ := (execEncRGB_next h).finishPixel_of_encoding he ht
    exact hi.pixelStored_of_appendBytes hd (beq_iff_eq.1 hfits) nofun (length_bytesRGB ..) hpack

end

/-! ## The place of the write position -/

/-- The write position in a Binary row (R63, R64). -/
theorem Inv.writeIndex_binary {s : State} (hi : Inv s) (he : s.phase = .encoding) (hb : s.job.format = .binary) :
    s.writeIndex = s.enc.storageWidth * (s.frame * s.job.height.toNat + s.row) + s.col / 8 ∧
      s.bitCursor.toNat = s.col % 8 := by
  obtain ⟨-, -, hindex, hcursor⟩ := hi.encoding he
  rw [hb] at hindex
  exact ⟨hindex, hcursor hb⟩

theorem rowBytes_eq_mul {f : Format} (hf : f ≠ .binary) (t : Transparency) (col : Nat) :
    rowBytes f t col = pixelBytes f t * col := by
  induction col with
  | zero => exact rowBytes_zero f t
  | succ col ih => rw [rowBytes_succ hf, ih, Nat.mul_succ]

theorem rowWidth_one {f : Format} (hf : f ≠ .binary) (t : Transparency) : rowWidth f t 1 = pixelBytes f t := by
  cases f with
  | binary => exact absurd rfl hf
  | grayscale => rfl
  | rgb565 => cases t <;> rfl
  | rgb => cases t <;> rfl

/-- The write position in a row of a byte format (R63, R64). -/
theorem Inv.writeIndex_bytes {s : State} (hi : Inv s) (he : s.phase = .encoding) (hf : s.job.format ≠ .binary) :
    s.writeIndex = s.enc.storageWidth * (s.frame * s.job.height.toNat + s.row) +
      pixelBytes s.job.format s.enc.transp * s.col := by
  obtain ⟨-, -, hindex, -⟩ := hi.encoding he
  rw [hindex, rowBytes_eq_mul hf, hi.pixelBytes_resolved]
  rfl

/-- Settles O32: the packers store at the write position alone, and that is the pixel's place. -/
theorem pixelsLandAtTheirPlace : Obligations.PixelsLandAtTheirPlace := by
  intro i s t hi he hfits hpixel h ht base hbase
  rcases hi.pixelStored he hfits hpixel h ht with ⟨hb, cur, nxt, bit, -, hbits, hother⟩ |
    ⟨hf, vs, hl, hst, -, hother⟩
  · refine ⟨fun _ a k hk hne => ?_, fun hne => absurd hb hne⟩
    obtain ⟨hindex, hcursor⟩ := hi.writeIndex_binary he hb
    have ha : a = s.writeIndex := by
      by_contra ha
      exact hne (congrArg (BitVec.getLsbD · k) (hother a ha))
    subst ha
    have hbit : k + s.bitCursor.toNat = 7 := by
      by_contra hk7
      refine hne ((hbits k hk).trans ?_)
      rw [State.withCells_bitCursor, decide_eq_false hk7, Bool.and_false, Bool.or_false]
      rfl
    exact ⟨by rw [hindex, hbase], by omega⟩
  · refine ⟨fun hb => absurd hb hf, fun _ n hn => ?_⟩
    rw [rowWidth_one hf, ← hl] at hn
    have hindex := hi.writeIndex_bytes he hf
    rw [← hl, ← hn, ← hbase] at hindex
    refine ⟨?_, fun a ha => ?_⟩
    · rw [hst, ← hindex, hn]
    · by_contra hout
      exact ha (hother a (by omega))

end Sys2Proof.Machine
end

section
/-! PROOFS. A complete job (spec/47_frame_orchestrator.md R230, R241): what a stream of commands does, one step a
command (`Performs`), and where a job has come to (`At`) after its CFG, a scan pass, FRM, a pixel, a row, a frame. -/

namespace Sys2Proof.Machine

/-! ## Streams of commands -/

/-- Sent to a state that meets `P`, the words of `cs` are performed one a step, the inputs after them left waiting, and
end in a state that meets `Q`. -/
def Performs (P : State → Prop) (cs : List Instr) (Q : State → Prop) : Prop :=
  ∀ s rest, P s → s.inputs = hostInputs cs ++ rest →
    ∃ t, core.run cs.length s = .next t ∧ t.inputs = rest ∧ Q t

theorem core_run_succ {k : Nat} {s u : State} (h : step s = .next u) : core.run (k + 1) s = core.run k u := by
  have hstep : core.step s = .next u := h
  simp only [Host.Core.run, hstep]

theorem core_run_succ_next {k : Nat} {s t : State} (h : core.run (k + 1) s = .next t) :
    ∃ u, step s = .next u ∧ core.run k u = .next t := by
  simp only [Host.Core.run] at h
  split at h
  next u hu => exact ⟨u, hu, h⟩
  next => cases h
  next => cases h

theorem core_run_add {m n : Nat} {s t : State} (h : core.run m s = .next t) : core.run (m + n) s = core.run n t := by
  induction m generalizing s with
  | zero =>
    cases h
    rw [Nat.zero_add]
  | succ m ih =>
    obtain ⟨u, hu, hrun⟩ := core_run_succ_next h
    rw [Nat.succ_add, core_run_succ hu]
    exact ih hrun

section
variable {P Q R : State → Prop} {cs ds : List Instr}

theorem Performs.nil (P : State → Prop) : Performs P [] P := fun s _ hP hin => ⟨s, rfl, hin, hP⟩

theorem Performs.append (h : Performs P cs Q) (h' : Performs Q ds R) : Performs P (cs ++ ds) R := by
  intro s rest hP hin
  rw [hostInputs, List.map_append, List.append_assoc] at hin
  obtain ⟨t, ht, hrest, hQ⟩ := h s _ hP hin
  obtain ⟨u, hu, hurest, hR⟩ := h' t rest hQ hrest
  refine ⟨u, ?_, hurest, hR⟩
  rw [List.length_append, core_run_add ht, hu]

/-- One command: its word decodes to it, and no command changes the inputs that wait. -/
theorem Performs.single {i : Instr} (hw : i.wellFormed = true) (hf : ∀ s, P s → i.fits s.job.format = true)
    (h : ∀ s rest, P s → ∃ t, exec i (s.withInputs rest) = .next t ∧ Q t) : Performs P [i] Q := by
  intro s rest hP hin
  obtain ⟨t, ht, hQ⟩ := h s rest hP
  have hstep : step s = .next t := (step_command hin (decodeEncodeAgree _ i hw (hf s hP))).trans ht
  exact ⟨t, (core_run_succ hstep).trans rfl, (onlyCfgAndRstWriteTheJob i _ t ht).2.1, hQ⟩

/-- A stream of blocks, when each block goes from what the blocks before it reach to one more. -/
theorem Performs.flatMap {α : Type} {xs : List α} {f : α → List Instr} {P : List α → State → Prop}
    (h : ∀ pre x post, xs = pre ++ x :: post → Performs (P pre) (f x) (P (pre ++ [x]))) :
    Performs (P []) (xs.flatMap f) (P xs) := by
  suffices hall : ∀ ys pre, xs = pre ++ ys → Performs (P pre) (ys.flatMap f) (P xs) from hall xs [] rfl
  intro ys
  induction ys with
  | nil =>
    rintro pre rfl
    rw [List.append_nil]
    exact .nil _
  | cons y ys ih =>
    intro pre hxs
    exact (h pre y ys hxs).append (ih (pre ++ [y]) (by rw [hxs, List.append_assoc]; rfl))

end

/-! ## Where a job has come to -/

/-- The frames of a job and the transparency they resolve it to (R27, R143, R144). -/
def Resolved (d : CfgFields) (tr : Transparency) (frames : List JobFrame) (t : Transparency) : Prop :=
  (d.format = .grayscale ∧ (∃ fr ∈ frames, ShowsAlphaOnly fr) → t = .alphaChannel) ∧
  (¬(d.format = .grayscale ∧ ∃ fr ∈ frames, ShowsAlphaOnly fr) → t = tr)

/-- The scan accumulators after these pixels (R141). -/
structure Scanned (ps : List Pixel) (s : State) : Prop where
  color : s.scanColorMax = 0 ↔ ∀ p ∈ ps, p.r = 0 ∧ p.g = 0 ∧ p.b = 0
  alpha : s.scanAlphaMin ≠ 0xFF ↔ ∃ p ∈ ps, p.a ≠ 0xFF
  count : s.scanCount = min ps.length (2 ^ 33 - 1)

/-- A point of a job's stream: the phase and the position, the frames opened so far, the source of the open frame, and
the scan pass so far. -/
structure Progress where
  phase : Phase
  frame : Nat
  row : Nat
  col : Nat
  opened : List JobFrame
  src : SrcMode
  scan : List Pixel

/-- The source mode, the scan pass and the pixel commands of a frame, row by row. -/
def JobFrame.src : JobFrame → SrcMode
  | .raw _ _ => .raw
  | .canon _ _ => .canon

def JobFrame.scan : JobFrame → List Pixel
  | .raw scan _ => scan
  | .canon scan _ => scan

def JobFrame.pixels (f : Format) : JobFrame → List (List Instr)
  | .raw _ rows => rows.map fun ps => ps.map .pix
  | .canon _ rows => rows.map fun qs => qs.map (encRow f)

theorem JobFrame.commands_eq (f : Format) (fr : JobFrame) :
    fr.commands f = scanCommands fr.scan ++ ([.frm fr.src] ++ (fr.pixels f).flatMap fun row => row ++ [.eor]) := by
  cases fr with
  | raw scan rows =>
    rw [JobFrame.pixels, List.flatMap_map]
    rfl
  | canon scan rows =>
    rw [JobFrame.pixels, List.flatMap_map]
    rfl

/-- A pixel command of a job of format `f`, fed by `src`, its payload legal (R145, R171). -/
def PixelCommand (f : Format) : SrcMode → Instr → Prop
  | .raw, i => ∃ p, i = .pix p
  | .canon, i => ∃ q, i = encRow f q ∧ payloadLegal f q = true

/-- A frame of the grammar has `height` rows of `width` pixel commands (R230). -/
theorem JobFrame.pixels_of_fits {f : Format} {w k : Nat} {fr : JobFrame} (h : fr.fits f w k = true) :
    (fr.pixels f).length = k ∧ ∀ row ∈ fr.pixels f, row.length = w ∧ ∀ i ∈ row, PixelCommand f fr.src i := by
  cases fr with
  | raw scan rows =>
    simp only [JobFrame.fits, Bool.and_eq_true, beq_iff_eq, List.all_eq_true] at h
    obtain ⟨⟨-, hrows⟩, hwidth⟩ := h
    simp only [JobFrame.pixels, JobFrame.src, PixelCommand, List.length_map, List.forall_mem_map]
    exact ⟨hrows, fun ps hps => ⟨hwidth ps hps, fun p _ => ⟨p, rfl⟩⟩⟩
  | canon scan rows =>
    simp only [JobFrame.fits, Bool.and_eq_true, beq_iff_eq, List.all_eq_true] at h
    obtain ⟨hrows, hwidth⟩ := h
    simp only [JobFrame.pixels, JobFrame.src, PixelCommand, List.length_map, List.forall_mem_map]
    exact ⟨hrows, fun qs hqs => ⟨(hwidth qs hqs).1, fun q hq => ⟨q, rfl, (hwidth qs hqs).2 q hq⟩⟩⟩

/-- The job `d`, whose accepted transparency is `tr`, has come to `g`. -/
structure At (d : CfgFields) (tr : Transparency) (g : Progress) (s : State) : Prop where
  inv : Inv s
  job : s.job = jobOf d tr
  enc : s.enc = { encOf d tr with transp := s.enc.transp }
  resolved : Resolved d tr g.opened s.enc.transp
  phase : s.phase = g.phase
  frame : s.frame = g.frame
  row : s.row = g.row
  col : s.col = g.col
  fed : g.phase = .encoding → s.srcMode = g.src
  scanned : Scanned g.scan s

section
variable {d : CfgFields} {tr : Transparency} {g g' : Progress} {s t : State}

theorem At.withInputs (h : At d tr g s) (rest : List HostInput) : At d tr g (s.withInputs rest) :=
  { h with inv := h.inv.withInputs rest, scanned := ⟨h.scanned.color, h.scanned.alpha, h.scanned.count⟩ }

theorem At.fits (h : At d tr g s) {i : Instr} (hf : i.fits d.format = true) : i.fits s.job.format = true := by
  rwa [h.job]

theorem At.width (h : At d tr g s) : s.job.width = d.width := by rw [h.job]; rfl
theorem At.height (h : At d tr g s) : s.job.height = d.height := by rw [h.job]; rfl
theorem At.format (h : At d tr g s) : s.job.format = d.format := by rw [h.job]; rfl
theorem At.frameCount (h : At d tr g s) : s.enc.frameCount = framesEmitted d := by rw [h.enc]; rfl

theorem performs_at_single {i : Instr} (hw : i.wellFormed = true) (hf : i.fits d.format = true)
    (h : ∀ s, At d tr g s → ∃ t, exec i s = .next t ∧ At d tr g' t) : Performs (At d tr g) [i] (At d tr g') :=
  .single hw (fun _ hs => hs.fits hf) fun _ rest hs => h _ (hs.withInputs rest)

/-! ## CFG and SCAN -/

theorem scanned_nil {s : State} (hc : s.scanColorMax = 0) (ha : s.scanAlphaMin = 0xFF) (hn : s.scanCount = 0) :
    Scanned [] s := by
  constructor <;> simp [hc, ha, hn]

theorem resolved_nil (d : CfgFields) (tr : Transparency) : Resolved d tr [] tr := by
  simp [Resolved]

/-- A job whose checks pass starts at its first frame (R121). -/
theorem exec_cfg_at (hr : s.phase ≠ .ready) (he : s.phase ≠ .encoding) (hthreshold : s.params.tMono ≠ 0)
    (ht : d.transp = tr.code) (hpass : ∀ c ∈ checkOrder, ¬FailsCheck s.params.bufMax d c) :
    ∃ t, exec (.cfg d) s = .next t ∧ At d tr ⟨.ready, 0, 0, 0, [], .raw, []⟩ t := by
  have hok := cfgCheck_of_not_failsCheck ht hpass
  refine ⟨_, execCfg_accepted hr he hok, ?_⟩
  exact {
    inv := inv_configure hthreshold hok
    job := rfl
    enc := rfl
    resolved := resolved_nil d tr
    phase := rfl
    frame := rfl
    row := rfl
    col := rfl
    fed := nofun
    scanned := scanned_nil rfl rfl rfl }

theorem maxByte_eq_zero_iff (x y : Byte) : maxByte x y = 0 ↔ x = 0 ∧ y = 0 := by
  rw [← BitVec.toNat_inj, ← BitVec.toNat_inj, ← BitVec.toNat_inj, toNat_maxByte]
  show max x.toNat y.toNat = 0 ↔ x.toNat = 0 ∧ y.toNat = 0
  omega

theorem minByte_ne_max_iff (x y : Byte) : minByte x y ≠ 0xFF ↔ x ≠ 0xFF ∨ y ≠ 0xFF := by
  rw [Ne, Ne, Ne, ← BitVec.toNat_inj, ← BitVec.toNat_inj, ← BitVec.toNat_inj, toNat_minByte]
  show ¬min x.toNat y.toNat = 255 ↔ ¬x.toNat = 255 ∨ ¬y.toNat = 255
  omega

/-- SCAN adds its pixel to the pass (R141). -/
theorem Scanned.accumulate {ps : List Pixel} (h : Scanned ps s) (p : Pixel) : Scanned (ps ++ [p]) (s.accumulate p) where
  color := by
    rw [State.accumulate_scanColorMax, maxByte_eq_zero_iff, maxByte_eq_zero_iff, maxByte_eq_zero_iff, h.color]
    simp only [List.forall_mem_append, List.forall_mem_singleton, and_assoc]
  alpha := by
    rw [State.accumulate_scanAlphaMin, minByte_ne_max_iff, h.alpha]
    simp [or_and_right, exists_or]
  count := by
    rw [State.accumulate_scanCount, h.count, List.length_append, List.length_singleton]
    omega

theorem At.scan (h : At d tr g s) (hr : g.phase = .ready) (p : Pixel) :
    ∃ t, exec (.scan p) s = .next t ∧ At d tr { g with scan := g.scan ++ [p] } t := by
  have hready : s.phase = .ready := h.phase.trans hr
  refine ⟨s.accumulate p, execScan_ready p hready, ?_⟩
  exact { h with inv := h.inv.accumulate p hready, scanned := h.scanned.accumulate p }

theorem performs_scanCommands (hr : g.phase = .ready) (hs : g.scan = []) (ps : List Pixel) :
    Performs (At d tr g) (scanCommands ps) (At d tr { g with scan := ps }) := by
  have hflat : scanCommands ps = ps.flatMap fun p => [.scan p] := by
    rw [scanCommands, List.map_eq_flatMap]
  have hstart : g = { g with scan := [] } := by rw [← hs]
  rw [hflat, hstart]
  refine Performs.flatMap (P := fun qs => At d tr { g with scan := qs }) fun pre p post _ => ?_
  exact performs_at_single rfl rfl fun s h => h.scan hr p

/-! ## FRM -/

/-- A frame's pass shows it alpha-only exactly when FRM decides so, for the formats that read it (R142, R143). -/
theorem frameAlphaOnly_iff {fr : JobFrame} (h : Scanned fr.scan s) :
    s.frameAlphaOnly fr.src = true ↔
      (s.job.format = .binary ∨ s.job.format = .grayscale) ∧ ShowsAlphaOnly fr := by
  rw [State.frameAlphaOnly, Bool.and_eq_true, s.needsScan_iff, isAlphaOnly_iff, h.color, h.alpha]
  cases fr with
  | raw scan rows => simp [JobFrame.src, JobFrame.scan, ShowsAlphaOnly]
  | canon scan rows => simp [JobFrame.src, ShowsAlphaOnly]

theorem Resolved.append {frames : List JobFrame} {u u' : Transparency} (h : Resolved d tr frames u) {fr : JobFrame}
    (hshows : d.format = .grayscale ∧ ShowsAlphaOnly fr → u' = .alphaChannel)
    (hkeeps : ¬(d.format = .grayscale ∧ ShowsAlphaOnly fr) → u' = u) : Resolved d tr (frames ++ [fr]) u' := by
  have hsplit : (∃ x ∈ frames ++ [fr], ShowsAlphaOnly x) ↔ (∃ x ∈ frames, ShowsAlphaOnly x) ∨ ShowsAlphaOnly fr := by
    simp [or_and_right, exists_or]
  unfold Resolved
  rw [hsplit]
  by_cases hs : d.format = .grayscale ∧ ShowsAlphaOnly fr
  · exact ⟨fun _ => hshows hs, fun hn => absurd ⟨hs.1, .inr hs.2⟩ hn⟩
  · rw [hkeeps hs]
    refine ⟨fun ⟨hg, hx⟩ => h.1 ⟨hg, hx.resolve_right fun hfr => hs ⟨hg, hfr⟩⟩, fun hn => h.2 fun ⟨hg, hx⟩ => ?_⟩
    exact hn ⟨hg, .inl hx⟩

theorem State.startFrame_enc (s : State) (src : SrcMode) :
    (s.startFrame src).enc = { s.enc with
      transp := if overrides s.job.format (s.frameAlphaOnly src) s.enc.transp = true then .alphaChannel
        else s.enc.transp } := by
  rw [State.startFrame, State.override_eq]
  rfl

/-- FRM's override in the terms of the frame's pass (R144). -/
theorem At.resolved_startFrame (h : At d tr g s) {fr : JobFrame} (hs : g.scan = fr.scan) :
    Resolved d tr (g.opened ++ [fr]) (s.startFrame fr.src).enc.transp := by
  have halpha := frameAlphaOnly_iff (hs ▸ h.scanned)
  rw [h.format] at halpha
  rw [State.startFrame_enc, h.format]
  refine h.resolved.append (fun ⟨hg, hshow⟩ => ?_) fun hn => if_neg fun hon => ?_
  · by_cases ht : s.enc.transp = .alphaChannel
    · simp [ht]
    · exact if_pos ((overrides_iff ..).2 ⟨hg, halpha.2 ⟨.inr hg, hshow⟩, ht⟩)
  · obtain ⟨hg, ha, -⟩ := (overrides_iff ..).1 hon
    exact hn ⟨hg, (halpha.1 ha).2⟩

/-- The count of a whole frame does not saturate (R32, R141). -/
theorem Scanned.count_eq {ps : List Pixel} (h : Scanned ps s) {w k : BitVec 16} (hl : ps.length = w.toNat * k.toNat) :
    s.scanCount = w.toNat * k.toNat := by
  have hmax : w.toNat * k.toNat ≤ 65535 * 65535 :=
    Nat.mul_le_mul (Nat.le_of_lt_succ w.isLt) (Nat.le_of_lt_succ k.isLt)
  rw [h.count, hl]
  omega

theorem At.frm (h : At d tr g s) (hr : g.phase = .ready) {fr : JobFrame} (hs : g.scan = fr.scan)
    (hfits : fr.fits d.format d.width.toNat d.height.toNat = true) :
    ∃ t, exec (.frm fr.src) s = .next t ∧
      At d tr ⟨.encoding, g.frame, 0, 0, g.opened ++ [fr], fr.src, []⟩ t := by
  have hready : s.phase = .ready := h.phase.trans hr
  have hcount : s.needsScan fr.src = true → s.scanCount = s.job.width.toNat * s.job.height.toNat := by
    intro hneeds
    obtain ⟨hraw, hf⟩ := (s.needsScan_iff _).1 hneeds
    rw [h.format] at hf
    rw [h.width, h.height]
    refine h.scanned.count_eq ?_
    rw [hs]
    cases fr with
    | canon scan rows => cases hraw
    | raw scan rows =>
      rcases hf with hf | hf <;> simp_all [JobFrame.fits, rawScanFits, JobFrame.scan]
  refine ⟨_, execFrm_opens hready hcount, ?_⟩
  exact {
    inv := h.inv.startFrame fr.src hready
    job := by simp [State.startFrame, h.job]
    enc := by rw [State.startFrame_enc, h.enc]
    resolved := h.resolved_startFrame hs
    phase := rfl
    frame := by simp [State.startFrame, h.frame]
    row := rfl
    col := rfl
    fed := fun _ => rfl
    scanned := scanned_nil rfl rfl rfl }

/-! ## Pixels and rows -/

theorem PixelCommand.wellFormed {f : Format} {src : SrcMode} {i : Instr} (h : PixelCommand f src i) :
    i.wellFormed = true := by
  cases src with
  | raw => obtain ⟨p, rfl⟩ := h; rfl
  | canon => obtain ⟨q, rfl, -⟩ := h; cases f <;> rfl

theorem PixelCommand.fits {f : Format} {src : SrcMode} {i : Instr} (h : PixelCommand f src i) : i.fits f = true := by
  cases src with
  | raw => obtain ⟨p, rfl⟩ := h; rfl
  | canon => obtain ⟨q, rfl, -⟩ := h; cases f <;> rfl

/-- What a pixel command of the grammar can do: its payload is legal. -/
theorem PixelCommand.next {f : Format} {src : SrcMode} {i : Instr} (h : PixelCommand f src i)
    (ht : exec i s = .next t) : ∃ legal r, PixelNext src legal r s t ∧ legal := by
  cases src with
  | raw =>
    obtain ⟨p, rfl⟩ := h
    exact ⟨_, _, execPix_next ht, trivial⟩
  | canon =>
    obtain ⟨q, rfl, hl⟩ := h
    cases f with
    | binary => exact ⟨_, _, execEncB_next ht, hl⟩
    | grayscale => exact ⟨_, _, execEncG_next ht, hl⟩
    | rgb565 => exact ⟨_, _, execEnc565_next ht, rfl⟩
    | rgb => exact ⟨_, _, execEncRGB_next ht, rfl⟩

/-- A due pixel with a legal payload is packed and counted (R145, R171). -/
theorem PixelNext.eq_of_due {src : SrcMode} {legal : Prop} {r : Except Fault State} (hn : PixelNext src legal r s t)
    (hd : PixelDue src s) (hl : legal) :
    t = { s with buffer := t.buffer, writeIndex := t.writeIndex, bitCursor := t.bitCursor, errCur := t.errCur,
                 errNxt := t.errNxt, col := s.col + 1 } := by
  obtain ⟨he, hsrc, hc⟩ := hd
  cases hn with
  | ignored failed => exact absurd (he.symm.trans failed) nofun
  | order _ bad => exact absurd bad (not_or.2 ⟨not_not_intro he, not_not_intro hsrc⟩)
  | row _ _ full => exact absurd full hc
  | illegal _ _ _ bad => exact absurd hl bad
  | packed _ _ _ _ u _ pack =>
    obtain ⟨hframe, -⟩ := pack
    have hcol : u.col = s.col := by rw [hframe]
    rw [← hcol]
    exact congrArg (fun v : State => { v with col := u.col + 1 }) hframe

theorem At.pixel (h : At d tr g s) (he : g.phase = .encoding) (hc : g.col < d.width.toNat) {i : Instr}
    (hi : PixelCommand d.format g.src i) : ∃ t, exec i s = .next t ∧ At d tr { g with col := g.col + 1 } t := by
  have hfits := h.fits hi.fits
  have hdue : PixelDue g.src s := by
    refine ⟨h.phase.trans he, h.fed he, ?_⟩
    rw [h.col, h.width]
    exact hc.ne
  obtain ⟨t, ht⟩ := h.inv.exec_answers hfits
  obtain ⟨legal, r, hn, hl⟩ := hi.next ht
  have heq := hn.eq_of_due hdue hl
  refine ⟨t, ht, ?_⟩
  have hinv := h.inv.of_exec hfits ht
  rw [heq] at hinv ⊢
  exact { h with
    inv := hinv
    col := congrArg (· + 1) h.col
    scanned := ⟨h.scanned.color, h.scanned.alpha, h.scanned.count⟩ }

/-- Where a job stands after `n` rows of its frame number `k`: in the next row, or at the next frame, or at the end. -/
def afterRows (d : CfgFields) (k : Nat) (opened : List JobFrame) (src : SrcMode) (n : Nat) : Progress :=
  if n = d.height.toNat then
    ⟨if k + 1 = (framesEmitted d).toNat then .done else .ready, k + 1, 0, 0, opened, .raw, []⟩
  else ⟨.encoding, k, n, 0, opened, src, []⟩

theorem At.eor {k n : Nat} {opened : List JobFrame} {src : SrcMode}
    (h : At d tr ⟨.encoding, k, n, d.width.toNat, opened, src, []⟩ s) :
    ∃ t, exec .eor s = .next t ∧ At d tr (afterRows d k opened src (n + 1)) t := by
  have hfull : s.col = s.job.width.toNat := by rw [h.col, h.width]
  have hphase : s.phase = .encoding := h.phase
  have hrow : s.row = n := h.row
  have hframe : s.frame = k := h.frame
  refine ⟨_, execEor_fullRow hphase hfull, ?_⟩
  have hinv := h.inv.endRow hphase hfull
  have hscan : Scanned [] s.padRow.shiftErrors.nextRow :=
    ⟨by simpa using h.scanned.color, by simpa using h.scanned.alpha, by simpa using h.scanned.count⟩
  have henc : s.padRow.shiftErrors.nextRow.enc = s.enc := by simp
  have hposition : s.padRow.shiftErrors.nextRow.phase = (afterRows d k opened src (n + 1)).phase ∧
      s.padRow.shiftErrors.nextRow.frame = (afterRows d k opened src (n + 1)).frame ∧
      s.padRow.shiftErrors.nextRow.row = (afterRows d k opened src (n + 1)).row := by
    simp only [State.nextRow_phase, State.nextRow_frame, State.nextRow_row, State.shiftErrors_job, State.padRow_job,
      State.shiftErrors_enc, State.padRow_enc, State.shiftErrors_phase, State.padRow_phase, State.shiftErrors_frame,
      State.padRow_frame, State.shiftErrors_row, State.padRow_row, h.height, h.frameCount, hphase, hframe,
      hrow, afterRows]
    split_ifs <;> exact ⟨rfl, rfl, rfl⟩
  obtain ⟨hp, hf, hr⟩ := hposition
  exact {
    inv := hinv
    job := by simpa using h.job
    enc := by rw [henc]; exact h.enc
    resolved := by
      rw [henc]
      unfold afterRows
      split_ifs <;> exact h.resolved
    phase := hp
    frame := hf
    row := hr
    col := by
      unfold afterRows
      split_ifs <;> exact State.nextRow_col _
    fed := by
      unfold afterRows
      split_ifs
      · exact nofun
      · exact nofun
      · exact fun _ => by simpa using h.fed rfl
    scanned := by
      unfold afterRows
      split_ifs <;> exact hscan }

theorem performs_row {k n : Nat} {opened : List JobFrame} {src : SrcMode} {row : List Instr}
    (hw : row.length = d.width.toNat) (hi : ∀ i ∈ row, PixelCommand d.format src i) :
    Performs (At d tr ⟨.encoding, k, n, 0, opened, src, []⟩) (row ++ [.eor])
      (At d tr (afterRows d k opened src (n + 1))) := by
  have hpixels : Performs (At d tr ⟨.encoding, k, n, 0, opened, src, []⟩) (row.flatMap fun i => [i])
      (At d tr ⟨.encoding, k, n, row.length, opened, src, []⟩) := by
    refine Performs.flatMap (P := fun is => At d tr ⟨.encoding, k, n, is.length, opened, src, []⟩) ?_
    rintro pre i post rfl
    have hcommand := hi i (by simp)
    have hroom : pre.length < d.width.toNat := by
      rw [← hw, List.length_append, List.length_cons]
      omega
    refine performs_at_single hcommand.wellFormed hcommand.fits fun s h => ?_
    rw [List.length_append, List.length_singleton]
    exact h.pixel rfl hroom hcommand
  rw [List.flatMap_singleton', hw] at hpixels
  exact hpixels.append (performs_at_single rfl rfl fun s h => h.eor)

/-! ## Frames and jobs -/

/-- Where a job stands between frames. -/
def betweenFrames (d : CfgFields) (opened : List JobFrame) : Progress :=
  ⟨if opened.length = (framesEmitted d).toNat then .done else .ready, opened.length, 0, 0, opened, .raw, []⟩

theorem performs_frame {pre : List JobFrame} {fr : JobFrame} (hpre : pre.length < (framesEmitted d).toNat)
    (hheight : 0 < d.height.toNat) (hfits : fr.fits d.format d.width.toNat d.height.toNat = true) :
    Performs (At d tr (betweenFrames d pre)) (fr.commands d.format) (At d tr (betweenFrames d (pre ++ [fr]))) := by
  obtain ⟨hrows, hrow⟩ := JobFrame.pixels_of_fits hfits
  have hready : (betweenFrames d pre).phase = .ready := if_neg hpre.ne
  have hfirst : afterRows d pre.length (pre ++ [fr]) fr.src 0 =
      ⟨.encoding, pre.length, 0, 0, pre ++ [fr], fr.src, []⟩ := if_neg hheight.ne
  have hlast : afterRows d pre.length (pre ++ [fr]) fr.src d.height.toNat = betweenFrames d (pre ++ [fr]) := by
    rw [afterRows, if_pos rfl, betweenFrames, List.length_append, List.length_singleton]
  have hpixels : Performs (At d tr (afterRows d pre.length (pre ++ [fr]) fr.src 0))
      ((fr.pixels d.format).flatMap fun row => row ++ [.eor])
      (At d tr (afterRows d pre.length (pre ++ [fr]) fr.src (fr.pixels d.format).length)) := by
    refine Performs.flatMap (P := fun rows => At d tr (afterRows d pre.length (pre ++ [fr]) fr.src rows.length)) ?_
    intro done row post hsplit
    obtain ⟨hw, hi⟩ := hrow row (by rw [hsplit]; simp)
    have hmore : done.length ≠ d.height.toNat := by
      rw [← hrows, hsplit, List.length_append, List.length_cons]
      omega
    rw [List.length_append, List.length_singleton, afterRows, if_neg hmore]
    exact performs_row hw hi
  rw [hrows, hlast, hfirst] at hpixels
  rw [JobFrame.commands_eq]
  refine (performs_scanCommands hready rfl fr.scan).append (Performs.append ?_ hpixels)
  exact performs_at_single rfl rfl fun s h => h.frm hready rfl hfits

theorem performs_frames {frames : List JobFrame} (hn : frames.length = (framesEmitted d).toNat)
    (hheight : 0 < d.height.toNat) (hfits : ∀ fr ∈ frames, fr.fits d.format d.width.toNat d.height.toNat = true) :
    Performs (At d tr (betweenFrames d [])) (frames.flatMap (JobFrame.commands d.format))
      (At d tr (betweenFrames d frames)) := by
  refine Performs.flatMap (P := fun pre => At d tr (betweenFrames d pre)) fun pre fr post hsplit => ?_
  refine performs_frame ?_ hheight (hfits fr (by rw [hsplit]; simp))
  rw [← hn, hsplit, List.length_append, List.length_cons]
  omega

/-- The states to which a job that passes the checks of CFG can be sent. -/
def Accepts (d : CfgFields) (s : State) : Prop :=
  s.phase ≠ .ready ∧ s.phase ≠ .encoding ∧ s.params.tMono ≠ 0 ∧ ∀ c ∈ checkOrder, ¬FailsCheck s.params.bufMax d c

theorem performs_job {frames : List JobFrame} (ht : d.transp = tr.code)
    (hn : frames.length = (framesEmitted d).toNat) (hheight : 0 < d.height.toNat)
    (hfits : ∀ fr ∈ frames, fr.fits d.format d.width.toNat d.height.toNat = true) :
    Performs (Accepts d) (jobCommands d frames) (At d tr (betweenFrames d frames)) := by
  have hstart : betweenFrames d [] = ⟨.ready, 0, 0, 0, [], .raw, []⟩ := by
    have hpos : 0 < (framesEmitted d).toNat := frameCount_pos d.animated d.srcFrames
    rw [betweenFrames, List.length_nil, if_neg hpos.ne]
  have hcfg : Performs (Accepts d) [.cfg d] (At d tr (betweenFrames d [])) := by
    rw [hstart]
    exact .single rfl (fun _ _ => rfl) fun s rest ⟨hr, he, hthreshold, hpass⟩ =>
      exec_cfg_at (s := s.withInputs rest) hr he hthreshold ht hpass
  exact hcfg.append (performs_frames hn hheight hfits)

/-! ## The end of a job -/

theorem At.bufLen (h : At d tr g s) :
    s.enc.bufLen = rowWidth d.format tr d.width.toNat * (d.height.toNat * (framesEmitted d).toNat) := by
  rw [h.enc, encOf_eq]

end

/-- Settles O38: the stream is performed frame by frame, and the state it ends in meets the invariant in DONE. -/
theorem completeJobReachesDone : Obligations.CompleteJobReachesDone := by
  intro d frames s tr hr he hthreshold ht hpass hn hfits hin
  have hheight : 0 < d.height.toNat := toNat_pos fun h0 => hpass .cfgBadDim (by decide) (.inr h0)
  obtain ⟨t, hrun, hinputs, hend⟩ := performs_job ht hn hheight hfits s [] ⟨hr, he, hthreshold, hpass⟩ (by simp [hin])
  have hdone : t.phase = .done := hend.phase.trans (if_pos hn)
  have hcode : t.errCode = .none := by
    by_contra hc
    exact absurd (hdone.symm.trans (hend.inv.error.1 hc)) nofun
  obtain ⟨-, -, -, hindex⟩ := hend.inv.done hdone
  have hmeta {α : Type} {v w : α} (h : v = w) : t.whenDone v = some w := by
    rw [t.whenDone_eq_some_iff]; exact ⟨hdone, h.symm⟩
  refine ⟨t, hrun, hinputs, hdone, hcode, hend.frame, hindex, ?_, hmeta hend.width, hmeta hend.height,
    hmeta (congrArg Format.code hend.format), hmeta hend.frameCount, fun hs => hmeta ?_, fun hs => hmeta ?_⟩
  · rw [hend.bufLen, hn, Nat.mul_assoc]
  · rw [hend.resolved.1 hs]; rfl
  · rw [hend.resolved.2 hs]

end Sys2Proof.Machine
end
